-- ==== Sys2Proof/Word.lean ====
section
/-! DEFINITION. The words of HUFCORE: the widths of 00_scope.md R7, and the fixed-size register file. -/

namespace Sys2Proof

/-- A host-port word, a frequency count, a command word (R7, R23, R80). -/
abbrev Word := BitVec 32

/-- A symbol: a byte value read as unsigned (R7, R9). -/
abbrev Symbol := BitVec 8

/-- A node index, `IDX_W` = 9 bits (R7). -/
abbrev NodeIdx := BitVec 9

/-- A node weight, `WEIGHT_W` = 40 bits (R7). -/
abbrev Weight := BitVec 40

/-- A word address of the host port (R7). -/
abbrev PortAddr := BitVec 12

/-- One bit of a bit stream: `true` is 1. -/
abbrev Bit := Bool

/-- A register file: a list of entries whose length never changes. -/
structure Table (α : Type) (size : Nat) where
  cells : List α
  length_cells : cells.length = size
deriving DecidableEq, Repr

/-- The register file with every entry `a`. -/
def Table.const {α : Type} (size : Nat) (a : α) : Table α size :=
  ⟨List.replicate size a, List.length_replicate⟩

end Sys2Proof
end

