-- ==== Sys2Proof/Config.lean ====
section
/-! DEFINITION. The fixed parameters of HUFCORE 1.0 (00_scope.md R7, 10_state.md R23 to R25), and the free
values: what the spec leaves open (93_implementation_defined.md U10 to U13) is an opaque constant with no body. -/

namespace Sys2Proof.Config

/-- `NSYM`, the alphabet size (R7). -/
def numSymbols : Nat := 256

/-- `NODE_CAP`, the node store's entries (R7). -/
def nodeCap : Nat := 511

/-- `MAX_INTERNAL`, the most internal nodes of a tree (R7). -/
def maxInternal : Nat := 255

/-- `MAX_DEPTH`, the longest code in bits (R7). -/
def maxDepth : Nat := 255

/-- The constant of the ID register (R24). -/
def idWord : Word := 0x48460100#32

/-- The constant of the CAPS register (R25). -/
def capsWord : Word := 0x282001FF#32

/-- The word address of ID (R23). -/
def idAddr : PortAddr := 0x000#12

/-- The word address of CAPS (R23). -/
def capsAddr : PortAddr := 0x001#12

/-- The word address of CMD (R23). -/
def cmdAddr : PortAddr := 0x002#12

/-- The word address of STATUS (R23). -/
def statusAddr : PortAddr := 0x003#12

/-- The word address of RESULT (R23). -/
def resultAddr : PortAddr := 0x004#12

/-- The word address of TREE (R23). -/
def treeAddr : PortAddr := 0x005#12

/-- The first word address of the FREQ window (R23). -/
def freqBase : PortAddr := 0x100#12

/-- The first word address of the LEAF_OF window (R23). -/
def leafOfBase : PortAddr := 0x200#12

/-- The first word address of the NODE window (R23). -/
def nodeBase : PortAddr := 0x400#12

/-- FREE VALUE (DESIGN CHOICE, assumption 3; U10, R185): the word a host read returns while the block is busy,
one draw per read. -/
opaque freeWord : Nat → Word

/-- FREE VALUE (DESIGN CHOICE, assumption 3; U11, R27): STATUS.TREE_VALID as read while BUILD or DESERIALIZE is
pending, one draw per read. -/
opaque freeTreeValid : Nat → Bool

/-- FREE VALUE (DESIGN CHOICE, assumption 2; U13, R184, R187): how many host operations come between the moment
a command (or INIT) becomes pending and its completion step. Any finite number. INIT's at `State.reset` is one. -/
opaque freeDelay : Nat → Nat

/-- FREE VALUE (DESIGN CHOICE, assumption 4; U12, R242): how many bits an aborted command had emitted, cut to
the length of what it would have emitted. -/
opaque freeEmitted : Nat → Nat

/-- FREE VALUE (DESIGN CHOICE, assumption 4; U12, R242): how many bits an aborted command had consumed, cut to
the number it would have consumed. -/
opaque freeConsumed : Nat → Nat

end Sys2Proof.Config
end

