-- ==== Sys2Proof/Syntax.lean ====
section
/-! DEFINITION. The commands of HUFCORE (30_encoding.md R82), the fields of a command word (R80), and the
operations of the host and the platform (R86, R89, 70_reset_and_hazards.md R230). -/

namespace Sys2Proof

/-- The command set, one constructor per row of the opcode map (R82). The one operand form is SYM (R81). -/
inductive Instr where
  | freqClear
  | freqInc (sym : Symbol)
  | build
  | encode (sym : Symbol)
  | decode
  | serialize
  | deserialize
  | softReset
deriving DecidableEq, Repr

/-- The two formats of a command word (R80). -/
inductive Format where
  | n
  | s
deriving DecidableEq, Repr

/-- The three fields of a command word (R80). -/
structure CmdFields where
  rsvd : BitVec 16
  sym  : Symbol
  op   : BitVec 8
deriving DecidableEq, Repr

/-- What the host and the platform do: the primitives RD and WR (R86), the polling loop WAIT (R89), and the
hardware reset input (R230). -/
inductive HostOp where
  | read (a : PortAddr)
  | write (a : PortAddr) (v : Word)
  | wait
  | hardReset
deriving DecidableEq, Repr

end Sys2Proof
end

