-- ==== Sys2Proof/WellFormed.lean ====
section
/-! DEFINITION. What is well formed: the operand of a command, and a host program that keeps the duties of
44_control.md R189. -/

namespace Sys2Proof

/-- The check on a command's operand: SYM is one of the `NSYM` symbols (R7, R81). Every 8-bit operand passes it. -/
def Instr.wellFormed : Instr → Bool
  | .freqInc sym => decide (sym.toNat < Config.numSymbols)
  | .encode sym => decide (sym.toNat < Config.numSymbols)
  | .freqClear => true
  | .build => true
  | .decode => true
  | .serialize => true
  | .deserialize => true
  | .softReset => true

/-- Addresses a write to which the block may drop while busy: CMD and FREQ (R183). -/
def isCommandOrFreq (a : PortAddr) : Bool :=
  a == Config.cmdAddr || (Config.freqBase.toNat ≤ a.toNat && a.toNat < Config.leafOfBase.toNat)

/-- Addresses whose read is any value while the block is busy: RESULT, TREE and the windows (R185). -/
def isOpenWhileBusy (a : PortAddr) : Bool :=
  a == Config.resultAddr || a == Config.treeAddr ||
  (Config.freqBase.toNat ≤ a.toNat && a.toNat < 0x300) ||
  (Config.nodeBase.toNat ≤ a.toNat && a.toNat < 0xBFC)

/-- The word of SOFT_RESET (R181, R87). -/
def softResetWord : Word := 0x00000008#32

/-- What a host that keeps its duties has yet to see end before it goes on (R189, rows 1 to 3). -/
inductive HostWait where
  /-- nothing: the host has waited since its last command and since the last reset -/
  | nothing
  /-- a command it wrote to CMD -/
  | command
  /-- a reset -/
  | reset
deriving DecidableEq, Repr

/-- May the host write to `a`? Not to CMD or FREQ while a command may be in flight (R189 row 1, R183), and nowhere
after a reset (row 2, R233). -/
def HostWait.mayWrite (w : HostWait) (a : PortAddr) : Bool :=
  match w with
  | .nothing => true
  | .command => !isCommandOrFreq a
  | .reset => false

/-- May the host read `a`? Not what is any value while a command may be in flight (R189 row 3, R185, R235), and
after a reset ID, CAPS and STATUS only (row 2, R233). -/
def HostWait.mayRead (w : HostWait) (a : PortAddr) : Bool :=
  match w with
  | .nothing => true
  | .command => !isOpenWhileBusy a
  | .reset => a == Config.idAddr || a == Config.capsAddr || a == Config.statusAddr

/-- What the host has to wait for after a write of `v` to `a`: the command it wrote, or the reset SOFT_RESET is.
DESIGN CHOICE (assumption 15): every CMD write counts, one that is not accepted too (an illegal word, a command
dropped in the error state); R189 row 1 says "every accepted command", R234 "any two commands". -/
def HostWait.afterWrite (w : HostWait) (a : PortAddr) (v : Word) : HostWait :=
  if a = Config.cmdAddr then (if v = softResetWord then .reset else .command) else w

/-- The host's duties of R189 on the block's port: it waits for BUSY = 0 after every command before the next CMD or
FREQ write (row 1) and before it reads what is any value while busy (row 3), and after a reset before anything but
ID, CAPS and STATUS reads (row 2). The first argument is what it has yet to wait for when the list begins. -/
def keepsDuties : HostWait → List HostOp → Bool
  | _, [] => true
  | _, .wait :: rest => keepsDuties .nothing rest
  | _, .hardReset :: rest => keepsDuties .reset rest
  | w, .write a v :: rest => w.mayWrite a && keepsDuties (w.afterWrite a v) rest
  | w, .read a :: rest => w.mayRead a && keepsDuties w rest

end Sys2Proof
end

