-- ==== Sys2Proof/Decode.lean ====
section
/-! DEFINITION. The decoder (30_encoding.md R83), total on every word and rejecting by name (R84), the encoder
written from the formats and the opcode map (R80, R82), and the opcode map as data. -/

namespace Sys2Proof

/-- Why a command word is illegal: the three cases of R84. -/
inductive IllegalWord where
  /-- (a) a non-zero bit in [31:16] -/
  | reservedBits
  /-- (b) OP is 0x00 or 0x09 to 0xFF -/
  | unknownOp
  /-- (c) a format-N OP with SYM non-zero -/
  | symNotZero
deriving DecidableEq, Repr

/-- What a command word decodes to: a command, or ILLEGAL with the case of R84. -/
inductive Decoded where
  | legal (i : Instr)
  | illegal (why : IllegalWord)
deriving DecidableEq, Repr

/-- The fields of a command word (R80). -/
def fieldsOfWord (w : Word) : CmdFields :=
  { rsvd := w.extractLsb' 16 16, sym := w.extractLsb' 8 8, op := w.extractLsb' 0 8 }

/-- The command of a format-N OP (R82, R83). -/
def formatNCommand (op : BitVec 8) : Option Instr :=
  if op = 0x01#8 then some .freqClear
  else if op = 0x03#8 then some .build
  else if op = 0x05#8 then some .decode
  else if op = 0x06#8 then some .serialize
  else if op = 0x07#8 then some .deserialize
  else if op = 0x08#8 then some .softReset
  else none

/-- The fields' command, in R83's order of tests. -/
def decodeFields (f : CmdFields) : Decoded :=
  if f.rsvd ≠ 0#16 then .illegal .reservedBits
  else if f.op = 0x02#8 then .legal (.freqInc f.sym)
  else if f.op = 0x04#8 then .legal (.encode f.sym)
  else
    match formatNCommand f.op with
    | some i => if f.sym ≠ 0#8 then .illegal .symNotZero else .legal i
    | none => .illegal .unknownOp

/-- Decode(word) of R83. It reads no state. -/
def decode (w : Word) : Decoded := decodeFields (fieldsOfWord w)

/-- The OP column of the opcode map (R82). -/
def Instr.opcode : Instr → BitVec 8
  | .freqClear => 0x01#8
  | .freqInc _ => 0x02#8
  | .build => 0x03#8
  | .encode _ => 0x04#8
  | .decode => 0x05#8
  | .serialize => 0x06#8
  | .deserialize => 0x07#8
  | .softReset => 0x08#8

/-- The format column of the opcode map (R82). -/
def Instr.format : Instr → Format
  | .freqInc _ => .s
  | .encode _ => .s
  | .freqClear => .n
  | .build => .n
  | .decode => .n
  | .serialize => .n
  | .deserialize => .n
  | .softReset => .n

/-- The SYM field of a command: its operand in format S, 0 in format N (R80). -/
def Instr.symField : Instr → Symbol
  | .freqInc sym => sym
  | .encode sym => sym
  | .freqClear => 0#8
  | .build => 0#8
  | .decode => 0#8
  | .serialize => 0#8
  | .deserialize => 0#8
  | .softReset => 0#8

/-- The command word of a command: `{16'b0, SYM, OP}` (R80). -/
def encode (i : Instr) : Word := (0#16 ++ i.symField ++ i.opcode : BitVec (16 + 8 + 8))

/-- A row of the opcode map: a word selects it when `word & mask = match` (R82). -/
structure OpcodeRow where
  mnemonic : String
  format   : Format
  mask     : Word
  pattern  : Word
deriving DecidableEq, Repr

/-- The opcode map (R82), in its order. -/
def opcodeMap : List OpcodeRow :=
  [ ⟨"FREQ_CLEAR", .n, 0xFFFFFFFF#32, 0x00000001#32⟩,
    ⟨"FREQ_INC", .s, 0xFFFF00FF#32, 0x00000002#32⟩,
    ⟨"BUILD", .n, 0xFFFFFFFF#32, 0x00000003#32⟩,
    ⟨"ENCODE", .s, 0xFFFF00FF#32, 0x00000004#32⟩,
    ⟨"DECODE", .n, 0xFFFFFFFF#32, 0x00000005#32⟩,
    ⟨"SERIALIZE", .n, 0xFFFFFFFF#32, 0x00000006#32⟩,
    ⟨"DESERIALIZE", .n, 0xFFFFFFFF#32, 0x00000007#32⟩,
    ⟨"SOFT_RESET", .n, 0xFFFFFFFF#32, 0x00000008#32⟩ ]

/-- The word selects the row (R82). -/
def OpcodeRow.selects (r : OpcodeRow) (w : Word) : Bool := w &&& r.mask == r.pattern

/-- The decoder on an instruction of the opcode table, given as the number of its low `nbits` bits; every command
is one 32-bit word (R80, R85). -/
def decodeTableWord (nbits w : Nat) : Option Instr :=
  let bits := w % 2 ^ nbits
  if bits < 2 ^ 32 then
    match decode (BitVec.ofNat 32 bits) with
    | .legal i => some i
    | .illegal _ => none
  else none

end Sys2Proof
end

