-- ==== Sys2Proof/Machine/State.lean ====
section
/-! DEFINITION. The state of HUFCORE (10_state.md R20 to R41) as plain data, its reset value (R40), and the two
reasons a step can stop. -/

namespace Sys2Proof.Machine

open Sys2Proof

/-- A record of the node store, with the nine fields of R33. -/
structure NodeRec where
  valid     : Bool
  leaf      : Bool
  sym       : Symbol
  weight    : Weight
  child0    : NodeIdx
  child1    : NodeIdx
  hasParent : Bool
  parent    : NodeIdx
  side      : Bit
deriving DecidableEq, Repr

/-- The all-zero record: a node that is not VALID has every field 0 (R33). -/
def NodeRec.zero : NodeRec :=
  { valid := false, leaf := false, sym := 0#8, weight := 0#40, child0 := 0#9, child1 := 0#9,
    hasParent := false, parent := 0#9, side := false }

/-- The node store, `NODE_CAP` records (R33). -/
abbrev NodeStore := Table NodeRec 511

/-- The leaf map, one entry per symbol: invalid, or a node index (R32). -/
abbrev LeafMap := Table (Option NodeIdx) 256

/-- The frequency file, one count per symbol (R31). -/
abbrev FreqFile := Table Word 256

/-- The error codes of R200. The reserved codes 7 to 15 are never produced and cannot be written down (R207,
93_implementation_defined.md U16; assumption 11). -/
inductive ErrCode where
  | none
  | endOfStream
  | invalidSymbol
  | malformedTree
  | illegalCommand
  | noTree
  | countOverflow
deriving DecidableEq, Repr

/-- What PENDING holds when it is not `none`: a decoded command, or INIT after a reset (R22). -/
inductive Pending where
  | init
  | cmd (i : Instr)
deriving DecidableEq, Repr

/-- The machine: the block state of R41, the channel state of R37, and the model's own four fields (the host's
remaining operations and what it has read, the draw that says how long the completion step waits, the counter
of free draws; assumptions 1, 2 and 3). -/
structure State where
  -- block state (R41)
  freq      : FreqFile
  node      : NodeStore
  leafOf    : LeafMap
  root      : Option NodeIdx
  leafCount : BitVec 9
  pending   : Option Pending
  err       : Bool
  errCode   : ErrCode
  errEos    : Bool
  errOp     : BitVec 8
  overrun   : Bool
  result    : Word
  -- channel state (R37)
  sink      : List Bit
  src       : List Bit
  srcPos    : Nat
  -- the host and the model's own fields
  hostOps   : List HostOp
  reads     : List (PortAddr × Word)
  delay     : Nat
  draws     : Nat
deriving DecidableEq, Repr

/-- Why a step stops with a fault. -/
inductive Fault where
  /-- Raised by ENCODE, DECODE and SERIALIZE: the walk left the node store (index 511) or crossed more than
  `MAX_DEPTH` edges, which only a node store that violates R36 makes possible. Safe: the spec gives such a
  walk no end, and no run from reset reaches one (assumption 9). -/
  | brokenTree
deriving DecidableEq, Repr

/-- Why a step is refused. -/
inductive Refusal where
  /-- Raised by exec for an instruction without a meaning yet. Safe. No arm of this model uses it. -/
  | notModelled (mnemonic : String)
  /-- Raised by BUILD if its queue ever held two equal keys (93_implementation_defined.md U8). Safe; it is
  unreachable (R123; assumption 10). -/
  | equalKeys
deriving DecidableEq, Repr

/-- The machine right after a hardware reset (R40, R231): every block element at its reset value, INIT pending.
The channel and the host's operations have the values of assumptions 1 and 6. How many host operations come before
INIT's completion step is a free draw, the first one, as after every reset (R184; assumptions 2 and 3). -/
def State.reset : State :=
  { freq := Table.const 256 0#32
    node := Table.const 511 NodeRec.zero
    leafOf := Table.const 256 none
    root := none
    leafCount := 0#9
    pending := some .init
    err := false
    errCode := .none
    errEos := false
    errOp := 0#8
    overrun := false
    result := 0#32
    sink := []
    src := []
    srcPos := 0
    hostOps := []
    reads := []
    delay := Config.freeDelay 0
    draws := 1 }

end Sys2Proof.Machine
end

