-- ==== Sys2Proof/Machine/Operands.lean ====
section
/-! DEFINITION. The operand forms: the SYM operand as an index (30_encoding.md R81), a symbol's bits in stream
order (20_memory.md R63), and the host port's addresses (10_state.md R23). -/

namespace Sys2Proof.Machine

open Sys2Proof

/-- SYM as an index into FREQ or LEAF_OF: unsigned, no scaling (R81). -/
def symIndex (sym : Symbol) : Fin 256 := ⟨sym.toNat, sym.isLt⟩

/-- The symbols 0 to 255 in ascending order (R11). -/
def allSymbols : List Symbol := (List.range 256).map (BitVec.ofNat 8)

/-- A symbol's 8 bits in stream order: `sym[7]` first, `sym[0]` last (R63). -/
def symBits (sym : Symbol) : List Bit :=
  [sym.getLsbD 7, sym.getLsbD 6, sym.getLsbD 5, sym.getLsbD 4,
   sym.getLsbD 3, sym.getLsbD 2, sym.getLsbD 1, sym.getLsbD 0]

/-- What a host-port word address names (R23). -/
inductive PortReg where
  | id
  | caps
  | cmd
  | status
  | result
  | tree
  | freq (sym : Symbol)
  | leafOf (sym : Symbol)
  | nodeWord (i : NodeIdx) (f : BitVec 2)
  | reserved
deriving DecidableEq, Repr

/-- The register map (R23, R34): the NODE window has four words per node, for nodes 0 to 510. -/
def portReg (a : PortAddr) : PortReg :=
  if a = 0x000#12 then .id
  else if a = 0x001#12 then .caps
  else if a = Config.cmdAddr then .cmd
  else if a = Config.statusAddr then .status
  else if a = Config.resultAddr then .result
  else if a = Config.treeAddr then .tree
  else if a < Config.freqBase then .reserved
  else if a < Config.leafOfBase then .freq ((a - Config.freqBase).setWidth 8)
  else if a < 0x300#12 then .leafOf ((a - Config.leafOfBase).setWidth 8)
  else if a < Config.nodeBase then .reserved
  else if a < 0xBFC#12 then
    .nodeWord ((a - Config.nodeBase).extractLsb' 2 9) ((a - Config.nodeBase).extractLsb' 0 2)
  else .reserved

end Sys2Proof.Machine
end

