-- ==== Sys2Proof/Machine/Ops.lean ====
section
/-! DEFINITION. The shared operations: register files, the bit channel (20_memory.md R65, R66), the end of a
command, the error entry (60_exceptions.md R208) and its one way out, the reset (70_reset_and_hazards.md R231),
and the transfers of an aborted command (R242). -/

namespace Sys2Proof

/-- Entry `i` of a register file. -/
def Table.get {α : Type} {size : Nat} (t : Table α size) (i : Fin size) : α :=
  t.cells[i.val]'(by rw [t.length_cells]; exact i.isLt)

/-- The register file with entry `i` written. -/
def Table.set {α : Type} {size : Nat} (t : Table α size) (i : Fin size) (a : α) : Table α size :=
  ⟨t.cells.set i.val a, by rw [List.length_set, t.length_cells]⟩

namespace Machine

/-! ### Register files -/

/-- `FREQ[sym]` (R31). -/
def getFreq (s : State) (sym : Symbol) : Word := s.freq.get (symIndex sym)

/-- `FREQ[sym] <- v` (R31). -/
def setFreq (s : State) (sym : Symbol) (v : Word) : State :=
  { s with freq := s.freq.set (symIndex sym) v }

/-- `LEAF_OF[sym]` of a leaf map (R32). -/
def leafAt (m : LeafMap) (sym : Symbol) : Option NodeIdx := m.get (symIndex sym)

/-- `LEAF_OF[sym] <- valid(i)` (R32). -/
def setLeaf (m : LeafMap) (sym : Symbol) (i : NodeIdx) : LeafMap := m.set (symIndex sym) (some i)

/-- Node `i` of a node store: there is no node 511 (R33). -/
def nodeAt? (ns : NodeStore) (i : NodeIdx) : Option NodeRec :=
  if h : i.toNat < 511 then some (ns.get ⟨i.toNat, h⟩) else none

/-- Node `i` of a node store; the all-zero record where there is none. -/
def nodeAt (ns : NodeStore) (i : NodeIdx) : NodeRec := (nodeAt? ns i).getD NodeRec.zero

/-- `NODE[i] <- r`; no effect where there is no node `i`. -/
def setNode (ns : NodeStore) (i : NodeIdx) (r : NodeRec) : NodeStore :=
  if h : i.toNat < 511 then ns.set ⟨i.toNat, h⟩ r else ns

/-- A fresh leaf record (R120, R163). -/
def freshLeaf (sym : Symbol) (weight : Weight) : NodeRec :=
  { valid := true, leaf := true, sym := sym, weight := weight, child0 := 0#9, child1 := 0#9,
    hasParent := false, parent := 0#9, side := false }

/-- `NODE[child].HAS_PARENT <- 1; NODE[child].PARENT <- parent; NODE[child].SIDE <- side` (R124, R163). -/
def linkParent (ns : NodeStore) (child parent : NodeIdx) (side : Bit) : NodeStore :=
  setNode ns child { nodeAt ns child with hasParent := true, parent := parent, side := side }

/-- ClearTree(): every node all-zero, every LEAF_OF entry invalid, no root, no leaf (R120, R163, R166). -/
def clearTree (s : State) : State :=
  { s with node := Table.const 511 NodeRec.zero, leafOf := Table.const 256 none, root := none, leafCount := 0#9 }

/-! ### The bit channel -/

/-- EmitBit(b): appends one bit to SINK (R65). -/
def emitBit (s : State) (b : Bit) : State := { s with sink := s.sink ++ [b] }

/-- The bits of a list emitted one at a time, in order (R65, R69). -/
def emitBits (s : State) (bits : List Bit) : State := bits.foldl emitBit s

/-- ReadBit(): the bit at the cursor, which advances; or EOS (`none`), and the cursor stays (R66). -/
def readBit (s : State) : Option Bit × State :=
  match s.src[s.srcPos]? with
  | some b => (some b, { s with srcPos := s.srcPos + 1 })
  | none => (none, s)

/-! ### The end of a command -/

/-- The normal end of a completion step: RESULT written, PENDING cleared (R28, R184). -/
def finish (s : State) (result : Word) : State := { s with result := result, pending := none }

/-- ErrorEntry(code, eos, progress, w): THE one error entry (R208). `w` is the word of the failing command. -/
def errorEntry (s : State) (code : ErrCode) (eos : Bool) (progress : Word) (w : Word) : State :=
  { s with err := true, errCode := code, errEos := eos, errOp := w.extractLsb' 0 8, result := progress,
           pending := none }

/-! ### Free draws and resets -/

/-- One free draw has been made (assumption 3). -/
def drawn (s : State) : State := { s with draws := s.draws + 1 }

/-- PENDING <- p, with a fresh draw of how many host operations its completion step lets pass (R180, R184,
R187; assumption 2). -/
def setPending (s : State) (p : Pending) : State :=
  { s with pending := some p, delay := Config.freeDelay s.draws, draws := s.draws + 1 }

/-- ResetState() (R231): the only return from the error state (R210). The channel is not touched (R232). -/
def resetState (s : State) : State :=
  setPending
    { s with
      freq := Table.const 256 0#32
      node := Table.const 511 NodeRec.zero
      leafOf := Table.const 256 none
      root := none
      leafCount := 0#9
      err := false
      errCode := .none
      errEos := false
      errOp := 0#8
      overrun := false
      result := 0#32 } .init

/-- The channel after an abort: of the transfers that lead from `s` to the completed state `t`, a free prefix of
the emitted bits and a free number of the consumed ones have been made, and nothing else (R242; assumption 4). -/
def partialTransfers (s t : State) : State :=
  { s with
    sink := s.sink ++ (t.sink.drop s.sink.length).take (Config.freeEmitted s.draws)
    srcPos := s.srcPos + min (Config.freeConsumed s.draws) (t.srcPos - s.srcPos)
    draws := s.draws + 1 }

/-- The same with the outcome of the completion step that never came. A step that stops makes no transfer
(assumption 9). -/
def abortedTransfers (s : State) : Host.Outcome State Fault Refusal → State
  | .next t => partialTransfers s t
  | .fault _ => s
  | .refused _ => s

end Machine
end Sys2Proof
end

