-- ==== Sys2Proof/Machine/Flags.lean ====
section
/-! DEFINITION. The status flags and the host's view of the registers: STATUS (10_state.md R27), TREE (R29),
LEAF_OF (R32) and the NODE window (R34, R35). -/

namespace Sys2Proof.Machine

open Sys2Proof

/-- The number of an error code (R200). -/
def ErrCode.number : ErrCode → BitVec 4
  | .none => 0#4
  | .endOfStream => 1#4
  | .invalidSymbol => 2#4
  | .malformedTree => 3#4
  | .illegalCommand => 4#4
  | .noTree => 5#4
  | .countOverflow => 6#4

/-- STATUS.BUSY: 1 exactly when PENDING is not `none` (R22). -/
def busy (s : State) : Bool := s.pending.isSome

/-- STATUS.TREE_VALID and TREE.ROOT_VALID (R27, R29). -/
def treeValid (s : State) : Bool := s.root.isSome

/-- BUILD and DESERIALIZE are the commands that change the tree: while one is pending TREE_VALID is any value
(R27, R185). -/
def changesTree : Pending → Bool
  | .cmd .build => true
  | .cmd .deserialize => true
  | .cmd .freqClear => false
  | .cmd (.freqInc _) => false
  | .cmd (.encode _) => false
  | .cmd .decode => false
  | .cmd .serialize => false
  | .cmd .softReset => false
  | .init => false

/-- The STATUS word from its fields (R27). -/
def statusFields (errOp : BitVec 8) (errCode : BitVec 4) (errEos treeValid overrun err busy : Bool) : Word :=
  (0#8 ++ errOp ++ 0#4 ++ errCode ++ 0#3 ++ BitVec.ofBool errEos ++ BitVec.ofBool treeValid ++
    BitVec.ofBool overrun ++ BitVec.ofBool err ++ BitVec.ofBool busy :
    BitVec (8 + 8 + 4 + 4 + 3 + 1 + 1 + 1 + 1 + 1))

/-- STATUS with the TREE_VALID bit given: while BUSY = 1 the error fields read 0 and OVERRUN shows its current
value (R27, R185). -/
def statusWord (s : State) (valid : Bool) : Word :=
  if busy s then statusFields 0#8 0#4 false valid s.overrun false true
  else statusFields s.errOp s.errCode.number s.errEos valid s.overrun s.err false

/-- TREE: ROOT and LEAF_COUNT are 0 when ROOT_VALID = 0 (R29). -/
def treeWord (s : State) : Word :=
  match s.root with
  | some r => (0#7 ++ s.leafCount ++ 1#1 ++ 0#6 ++ r : BitVec (7 + 9 + 1 + 6 + 9))
  | none => 0#32

/-- A LEAF_OF word: VALID in bit 31, INDEX in bits [8:0]; an invalid entry reads 0 (R32, R35). -/
def leafWord : Option NodeIdx → Word
  | some i => (1#1 ++ 0#22 ++ i : BitVec (1 + 22 + 9))
  | none => 0#32

/-- Word `f` of a node in the NODE window (R34): WLO, INFO, CHILD, PARENT. -/
def nodeFieldWord (r : NodeRec) (f : BitVec 2) : Word :=
  if f = 0#2 then r.weight.extractLsb' 0 32
  else if f = 1#2 then
    (0#12 ++ BitVec.ofBool r.side ++ BitVec.ofBool r.hasParent ++ BitVec.ofBool r.valid ++ BitVec.ofBool r.leaf ++
      r.sym ++ r.weight.extractLsb' 32 8 : BitVec (12 + 1 + 1 + 1 + 1 + 8 + 8))
  else if f = 2#2 then (0#7 ++ r.child1 ++ 0#7 ++ r.child0 : BitVec (7 + 9 + 7 + 9))
  else (0#23 ++ r.parent : BitVec (23 + 9))

/-- A NODE window word: all four words of a node that is not VALID read 0 (R35). -/
def nodeWindowWord (r : NodeRec) (f : BitVec 2) : Word := if r.valid then nodeFieldWord r f else 0#32

end Sys2Proof.Machine
end

