-- ==== Sys2Proof/Machine/Frequency.lean ====
section
/-! DEFINITION. The frequency table commands (40_frequency.md R101, R102). -/

namespace Sys2Proof.Machine

open Sys2Proof

/-- FREQ_CLEAR (R101): every count 0, RESULT 0. -/
def execFreqClear (s : State) : Host.Outcome State Fault Refusal :=
  .next (finish { s with freq := Table.const 256 0#32 } 0#32)

/-- FREQ_INC sym (R102): COUNT_OVERFLOW at 2^32-1 with the count unchanged (R206); else the count plus 1, which
is also RESULT. -/
def execFreqInc (sym : Symbol) (s : State) : Host.Outcome State Fault Refusal :=
  if getFreq s sym = 0xFFFFFFFF#32 then
    .next (errorEntry s .countOverflow false 0#32 (encode (.freqInc sym)))
  else
    .next (finish (setFreq s sym (getFreq s sym + 1#32)) (getFreq s sym + 1#32))

end Sys2Proof.Machine
end

