-- ==== Sys2Proof/Machine/Build.lean ====
section
/-! DEFINITION. The tree builder (41_tree_build.md): the frequency comparator (R121), the priority-queue arbiter
(R123), the tree-node merger (R124) and BUILD (R120). -/

namespace Sys2Proof.Machine

open Sys2Proof

/-- The 48-bit key of a node: weight first, then representative symbol (R121). -/
def nodeKey (r : NodeRec) : BitVec 48 := (r.weight ++ r.sym : BitVec (40 + 8))

/-- Less(i, j): the unsigned order of the keys (R121). -/
def nodeLess (ns : NodeStore) (i j : NodeIdx) : Bool := (nodeKey (nodeAt ns i)).ult (nodeKey (nodeAt ns j))

/-- A least entry of the queue `m :: q`, and the other entries. -/
def selectMin (ns : NodeStore) (m : NodeIdx) : List NodeIdx → NodeIdx × List NodeIdx
  | [] => (m, [])
  | j :: q =>
    if nodeLess ns j m then ((selectMin ns j q).1, m :: (selectMin ns j q).2)
    else ((selectMin ns m q).1, j :: (selectMin ns m q).2)

/-- ExtractMin(): the entry whose key is less than every other entry's, and the queue without it (R123). `none`
when the queue is empty, or when no entry is strictly least (93_implementation_defined.md U8). -/
def extractMin (ns : NodeStore) : List NodeIdx → Option (NodeIdx × List NodeIdx)
  | [] => none
  | m :: q =>
    if (selectMin ns m q).2.all (nodeLess ns (selectMin ns m q).1) then some (selectMin ns m q) else none

/-- What BUILD holds while it runs (R38): the node store, the leaf map, the queue and the allocation counter. -/
structure BuildCtx where
  node   : NodeStore
  leafOf : LeafMap
  queue  : List NodeIdx
  n      : Nat
deriving DecidableEq, Repr

/-- The start of BUILD: the old tree is discarded and the queue is empty (R120). -/
def buildStart : BuildCtx :=
  { node := Table.const 511 NodeRec.zero, leafOf := Table.const 256 none, queue := [], n := 0 }

/-- Step 1 of BUILD for one symbol: a leaf for a non-zero count, at the next index (R120, R125). -/
def loadLeaf (freq : FreqFile) (c : BuildCtx) (sym : Symbol) : BuildCtx :=
  if freq.get (symIndex sym) = 0#32 then c
  else
    { node := setNode c.node (BitVec.ofNat 9 c.n) (freshLeaf sym ((freq.get (symIndex sym)).setWidth 40))
      leafOf := setLeaf c.leafOf sym (BitVec.ofNat 9 c.n)
      queue := c.queue ++ [BitVec.ofNat 9 c.n]
      n := c.n + 1 }

/-- The record Merge gives the new node (R122, R124). -/
def mergedNode (ns : NodeStore) (first second : NodeIdx) : NodeRec :=
  { valid := true, leaf := false, sym := (nodeAt ns first).sym,
    weight := (nodeAt ns first).weight + (nodeAt ns second).weight,
    child0 := first, child1 := second, hasParent := false, parent := 0#9, side := false }

/-- Merge(first, second, n) on the node store (R124). -/
def mergeNodes (ns : NodeStore) (first second n : NodeIdx) : NodeStore :=
  linkParent (linkParent (setNode ns n (mergedNode ns first second)) first n false) second n true

/-- Step 2 of BUILD: merge while the queue holds more than one node (R120). `fuel` is at least the queue's size,
which falls by one at each merge. `none` when a minimum is not unique (U8). -/
def mergeLoop : Nat → BuildCtx → Option BuildCtx
  | 0, c => some c
  | fuel + 1, c =>
    if c.queue.length ≤ 1 then some c
    else
      match extractMin c.node c.queue with
      | none => none
      | some (first, q1) =>
        match extractMin c.node q1 with
        | none => none
        | some (second, q2) =>
          mergeLoop fuel
            { c with
              node := mergeNodes c.node first second (BitVec.ofNat 9 c.n)
              queue := q2 ++ [BitVec.ofNat 9 c.n]
              n := c.n + 1 }

/-- The leaves of BUILD, loaded in ascending symbol order (R120 step 1). -/
def loadLeaves (freq : FreqFile) : BuildCtx := allSymbols.foldl (loadLeaf freq) buildStart

/-- BUILD (R120). The root is the one node left in the queue, none if nothing was inserted; RESULT is k. -/
def execBuild (s : State) : Host.Outcome State Fault Refusal :=
  match mergeLoop (loadLeaves s.freq).n (loadLeaves s.freq) with
  | none => .refused .equalKeys
  | some c =>
    .next (finish
      { s with
        node := c.node
        leafOf := c.leafOf
        root := c.queue.head?
        leafCount := BitVec.ofNat 9 (loadLeaves s.freq).n }
      (BitVec.ofNat 32 (loadLeaves s.freq).n))

end Sys2Proof.Machine
end

