-- ==== Sys2Proof/Machine/Codec.lean ====
section
/-! DEFINITION. The symbol encoder and the symbol decoder (42_encode_decode.md R140 to R146). -/

namespace Sys2Proof.Machine

open Sys2Proof

/-- The climb of ENCODE from node `c`: the SIDEs passed, leaf first, as the path shift register P collects them
(R140, R141). `fuel` is the register's length; `none` when the walk leaves the store or overruns the register,
which R36 excludes (assumption 9). -/
def climb (ns : NodeStore) : Nat → NodeIdx → Option (List Bit)
  | 0, c =>
    match nodeAt? ns c with
    | none => none
    | some r => if r.hasParent then none else some []
  | fuel + 1, c =>
    match nodeAt? ns c with
    | none => none
    | some r => if r.hasParent then (climb ns fuel r.parent).map (r.side :: ·) else some []

/-- ENCODE sym (R140): INVALID_SYMBOL before any emission when the symbol has no leaf (R202); else the path is
emitted root first (R62) and RESULT is its length. The single-leaf tree emits nothing (R146). -/
def execEncode (sym : Symbol) (s : State) : Host.Outcome State Fault Refusal :=
  match leafAt s.leafOf sym with
  | none => .next (errorEntry s .invalidSymbol false 0#32 (encode (.encode sym)))
  | some c =>
    match climb s.node Config.maxDepth c with
    | none => .fault .brokenTree
    | some p => .next (finish (emitBits s p.reverse) (BitVec.ofNat 32 p.length))

/-- How the walk of DECODE ends. -/
inductive WalkEnd where
  /-- at a leaf, after `bits` bits -/
  | leaf (bits : Nat) (sym : Symbol) (s : State)
  /-- the source signalled EOS after `bits` bits -/
  | eos (bits : Nat) (s : State)
  /-- the walk left the store or is too long -/
  | broken
deriving DecidableEq, Repr

/-- The descent of DECODE from node `c` with `bits` bits already read (R143, R144). -/
def descend : Nat → NodeIdx → Nat → State → WalkEnd
  | 0, c, bits, s =>
    match nodeAt? s.node c with
    | none => .broken
    | some r => if r.leaf then .leaf bits r.sym s else .broken
  | fuel + 1, c, bits, s =>
    match nodeAt? s.node c with
    | none => .broken
    | some r =>
      if r.leaf then .leaf bits r.sym s
      else
        match readBit s with
        | (none, s') => .eos bits s'
        | (some b, s') => descend fuel (if b then r.child1 else r.child0) (bits + 1) s'

/-- The RESULT of DECODE: `{16'b0, L[7:0], sym}` (R28, R143). -/
def decodeResult (bits : Nat) (sym : Symbol) : Word := (0#16 ++ BitVec.ofNat 8 bits ++ sym : BitVec (16 + 8 + 8))

/-- DECODE (R143): NO_TREE before any read (R205), END_OF_STREAM with the bits read staying consumed (R201), else
the symbol and the code length. The single-leaf tree reads nothing (R146). -/
def execDecode (s : State) : Host.Outcome State Fault Refusal :=
  match s.root with
  | none => .next (errorEntry s .noTree false 0#32 (encode .decode))
  | some r =>
    match descend Config.maxDepth r 0 s with
    | .leaf bits sym s' => .next (finish s' (decodeResult bits sym))
    | .eos bits s' => .next (errorEntry s' .endOfStream true (BitVec.ofNat 32 bits) (encode .decode))
    | .broken => .fault .brokenTree

end Sys2Proof.Machine
end

