-- ==== Sys2Proof/Machine/Serialize.lean ====
section
/-! DEFINITION. The canonical tree serializer and deserializer (43_serialize.md R160 to R168). -/

namespace Sys2Proof.Machine

open Sys2Proof

/-- Ser(c): the bits of the subtree at node `c`, pre-order (R160, R161). `fuel` bounds the nodes on a path;
`none` when the walk leaves the store or is deeper than a tree can be, which R36 excludes (assumption 9). -/
def serialBits (ns : NodeStore) : Nat → NodeIdx → Option (List Bit)
  | 0, _ => none
  | fuel + 1, c =>
    match nodeAt? ns c with
    | none => none
    | some r =>
      if r.leaf then some (true :: symBits r.sym)
      else
        match serialBits ns fuel r.child0, serialBits ns fuel r.child1 with
        | some b0, some b1 => some (false :: (b0 ++ b1))
        | _, _ => none

/-- SERIALIZE (R160): the form of the current tree to the sink, RESULT the number of bits; no tree, no bit
(R168). -/
def execSerialize (s : State) : Host.Outcome State Fault Refusal :=
  match s.root with
  | none => .next (finish s 0#32)
  | some r =>
    match serialBits s.node (Config.maxDepth + 1) r with
    | none => .fault .brokenTree
    | some bits => .next (finish (emitBits s bits) (BitVec.ofNat 32 bits.length))

/-- What DESERIALIZE holds while it runs: the allocation counter, the internal nodes allocated, the bits consumed,
and the machine (R163). -/
structure DesCtx where
  n         : Nat
  internals : Nat
  bits      : Nat
  st        : State
deriving DecidableEq, Repr

/-- How a part of DESERIALIZE ends: with a value, or in Fail(eos). -/
inductive DesEnd (α : Type) where
  | ok (a : α) (c : DesCtx)
  | fail (eos : Bool) (c : DesCtx)
deriving DecidableEq, Repr

/-- Read1() (R163): EOS is case (a) of R165. -/
def read1 (c : DesCtx) : DesEnd Bit :=
  match readBit c.st with
  | (none, s') => .fail true { c with st := s' }
  | (some b, s') => .ok b { c with bits := c.bits + 1, st := s' }

/-- `for j = k-1 downto 0: s[j] <- Read1()` (R163): a symbol's bits, most significant first (R63). -/
def readSymbol : Nat → Symbol → DesCtx → DesEnd Symbol
  | 0, sym, c => .ok sym c
  | j + 1, sym, c =>
    match read1 c with
    | .fail eos c' => .fail eos c'
    | .ok b c' => readSymbol j (if b then sym ||| BitVec.twoPow 8 j else sym) c'

/-- A leaf at the next index (R163, R164). -/
def allocLeaf (c : DesCtx) (sym : Symbol) : DesCtx :=
  { c with
    n := c.n + 1
    st := { c.st with
      node := setNode c.st.node (BitVec.ofNat 9 c.n) (freshLeaf sym 0#40)
      leafOf := setLeaf c.st.leafOf sym (BitVec.ofNat 9 c.n) } }

/-- An internal node at the next index, its children still unknown (R163, R164). -/
def allocInternal (c : DesCtx) : DesCtx :=
  { c with
    n := c.n + 1
    internals := c.internals + 1
    st := { c.st with
      node := setNode c.st.node (BitVec.ofNat 9 c.n) { NodeRec.zero with valid := true } } }

/-- The children of internal node `m` are known: its links, its SYM and theirs (R163, R128). -/
def closeInternal (c : DesCtx) (m a b : NodeIdx) : DesCtx :=
  { c with
    st := { c.st with
      node := linkParent (linkParent
        (setNode c.st.node m
          { nodeAt c.st.node m with child0 := a, child1 := b, sym := (nodeAt c.st.node a).sym })
        a m false) b m true } }

/-- Des() (R163): one subtree read from the source. `fuel` is 256 less the depth; the check of R165 (c) fails
before it runs out (assumption 12). -/
def des : Nat → DesCtx → DesEnd NodeIdx
  | 0, c => .fail false c
  | fuel + 1, c =>
    match read1 c with
    | .fail eos c => .fail eos c
    | .ok true c =>
      match readSymbol 8 0#8 c with
      | .fail eos c => .fail eos c
      | .ok sym c =>
        if (leafAt c.st.leafOf sym).isSome then .fail false c
        else .ok (BitVec.ofNat 9 c.n) (allocLeaf c sym)
    | .ok false c =>
      if c.internals = Config.maxInternal then .fail false c
      else
        match des fuel (allocInternal c) with
        | .fail eos c => .fail eos c
        | .ok a ca =>
          match des fuel ca with
          | .fail eos c => .fail eos c
          | .ok b cb => .ok (BitVec.ofNat 9 c.n) (closeInternal cb (BitVec.ofNat 9 c.n) a b)

/-- DESERIALIZE (R163): the old tree is discarded; then the new one with RESULT = B, or MALFORMED_TREE with the
tree cleared (R165, R166). -/
def execDeserialize (s : State) : Host.Outcome State Fault Refusal :=
  match des (Config.maxDepth + 1) { n := 0, internals := 0, bits := 0, st := clearTree s } with
  | .ok r c =>
    .next (finish { c.st with root := some r, leafCount := BitVec.ofNat 9 (c.n - c.internals) }
      (BitVec.ofNat 32 c.bits))
  | .fail eos c =>
    .next (errorEntry (clearTree c.st) .malformedTree eos (BitVec.ofNat 32 c.bits) (encode .deserialize))

end Sys2Proof.Machine
end

