-- ==== Sys2Proof/Machine/Control.lean ====
section
/-! DEFINITION. SOFT_RESET and INIT (44_control.md R181, R182), the abort of a command in flight
(70_reset_and_hazards.md R242) and the hardware reset (R230). -/

namespace Sys2Proof.Machine

open Sys2Proof

/-- The outcome a command's completion step would have had at `s` (R242). SOFT_RESET is never pending: it makes
no transfer. -/
def completionOutcome (i : Instr) (s : State) : Host.Outcome State Fault Refusal :=
  match i with
  | .freqClear => execFreqClear s
  | .freqInc sym => execFreqInc sym s
  | .build => execBuild s
  | .encode sym => execEncode sym s
  | .decode => execDecode s
  | .serialize => execSerialize s
  | .deserialize => execDeserialize s
  | .softReset => .next s

/-- Abort(PENDING) (R180, R242): some prefix of the pending command's transfers has happened. INIT makes none. -/
def abortPending (s : State) : State :=
  match s.pending with
  | some (.cmd i) => abortedTransfers s (completionOutcome i s)
  | some .init => s
  | none => s

/-- SOFT_RESET (R181): abort, then every block state element at its reset value and INIT pending. -/
def execSoftReset (s : State) : Host.Outcome State Fault Refusal := .next (resetState (abortPending s))

/-- The hardware reset input (R230): the same effect as SOFT_RESET (assumption 5). -/
def hardwareReset (s : State) : State := resetState (abortPending s)

/-- INIT's completion step (R182): only PENDING is cleared. -/
def completeInit (s : State) : State := { s with pending := none }

end Sys2Proof.Machine
end

