-- ==== Sys2Proof/Machine/Port.lean ====
section
/-! DEFINITION. The host port: reads (44_control.md R185), writes (R186, 40_frequency.md R103), the acceptance
procedure (R180), and one host operation. -/

namespace Sys2Proof.Machine

open Sys2Proof

/-- What a host read of a register returns when PENDING = none (R185, first column). CMD and the reserved
addresses read 0 (R26, R30). -/
def idleRead (r : PortReg) (s : State) : Word :=
  match r with
  | .id => Config.idWord
  | .caps => Config.capsWord
  | .cmd => 0#32
  | .status => statusWord s (treeValid s)
  | .result => s.result
  | .tree => treeWord s
  | .freq sym => getFreq s sym
  | .leafOf sym => leafWord (leafAt s.leafOf sym)
  | .nodeWord i f => nodeWindowWord (nodeAt s.node i) f
  | .reserved => 0#32

/-- What a host read returns while `p` is pending (R185, second column), and the machine with its draws counted:
a fresh free word for RESULT, TREE, FREQ, LEAF_OF and NODE, a free TREE_VALID while the tree is changing. -/
def busyRead (r : PortReg) (p : Pending) (s : State) : Word × State :=
  match r with
  | .id => (Config.idWord, s)
  | .caps => (Config.capsWord, s)
  | .cmd => (0#32, s)
  | .status =>
    if changesTree p then (statusWord s (Config.freeTreeValid s.draws), drawn s)
    else (statusWord s (treeValid s), s)
  | .result => (Config.freeWord s.draws, drawn s)
  | .tree => (Config.freeWord s.draws, drawn s)
  | .freq _ => (Config.freeWord s.draws, drawn s)
  | .leafOf _ => (Config.freeWord s.draws, drawn s)
  | .nodeWord _ _ => (Config.freeWord s.draws, drawn s)
  | .reserved => (0#32, s)

/-- HostRead(a): the word, and the machine, whose block state no read changes (R68, R185). -/
def hostRead (a : PortAddr) (s : State) : Word × State :=
  match s.pending with
  | none => (idleRead (portReg a) s, s)
  | some p => busyRead (portReg a) p s

/-- A read as the host sees it: the word joins what it has read (assumption 1). -/
def logRead (a : PortAddr) (s : State) : State :=
  { (hostRead a s).2 with reads := (hostRead a s).2.reads ++ [(a, (hostRead a s).1)] }

/-- The acceptance procedure of a CMD write (R180), its branches in R211 (1)'s order. -/
def acceptCommand (w : Word) (s : State) : Host.Outcome State Fault Refusal :=
  if decode w = .legal .softReset then execSoftReset s
  else if busy s then .next { s with overrun := true }
  else if s.err then .next s
  else
    match decode w with
    | .legal i => .next (setPending s (.cmd i))
    | .illegal _ => .next (errorEntry s .illegalCommand false 0#32 w)

/-- A host write to `FREQ[sym]` (R103): dropped with OVERRUN while busy, dropped in the error state. -/
def writeFreq (sym : Symbol) (v : Word) (s : State) : State :=
  if busy s then { s with overrun := true }
  else if s.err then s
  else setFreq s sym v

/-- HostWrite(a, v): only CMD and FREQ accept writes; every other write is ignored in every state (R186). -/
def hostWrite (a : PortAddr) (v : Word) (s : State) : Host.Outcome State Fault Refusal :=
  match portReg a with
  | .cmd => acceptCommand v s
  | .freq sym => .next (writeFreq sym v s)
  | .id => .next s
  | .caps => .next s
  | .status => .next s
  | .result => .next s
  | .tree => .next s
  | .leafOf _ => .next s
  | .nodeWord _ _ => .next s
  | .reserved => .next s

/-- One poll of WAIT (R89): a read of STATUS, repeated while it returns BUSY = 1. -/
def pollWait (s : State) : State :=
  if (hostRead Config.statusAddr s).1.getLsbD 0 then
    { logRead Config.statusAddr s with hostOps := .wait :: s.hostOps }
  else logRead Config.statusAddr s

/-- One operation of the host or the platform, already taken off `hostOps`. -/
def hostStep (op : HostOp) (s : State) : Host.Outcome State Fault Refusal :=
  match op with
  | .read a => .next (logRead a s)
  | .write a v => hostWrite a v s
  | .wait => .next (pollWait s)
  | .hardReset => .next (hardwareReset s)

end Sys2Proof.Machine
end

