-- ==== Sys2Proof/Machine/Turn.lean ====
section
/-! DEFINITION. Which of the host and the engine moves next (44_control.md R184, R187), and where the engine's next
instruction is fetched from: PENDING, which takes a program counter's place (10_state.md R22). -/

namespace Sys2Proof.Machine

open Sys2Proof

/-- Whose move it is. -/
inductive Turn where
  /-- no command is pending and the host has nothing left to do (R188, R220) -/
  | idle
  /-- the host's next operation, on the machine with it taken off the list -/
  | host (op : HostOp) (s : State)
  /-- the completion step of what is pending -/
  | engine (p : Pending)
deriving DecidableEq, Repr

/-- The next move. With something pending, `delay` host operations still come first, if the host has any; then
the completion step is taken (weak fairness, R187; assumption 2). -/
def turn (s : State) : Turn :=
  match s.pending, s.hostOps with
  | none, [] => .idle
  | none, op :: rest => .host op { s with hostOps := rest }
  | some p, [] => .engine p
  | some p, op :: rest =>
    if s.delay = 0 then .engine p else .host op { s with hostOps := rest, delay := s.delay - 1 }

/-- The command `i` accepted, its completion step the very next move. -/
def withPending (s : State) (i : Instr) : State := { s with pending := some (.cmd i), delay := 0 }

/-- The host about to write `w` to CMD, before everything else. -/
def withCmdWrite (s : State) (w : Word) : State :=
  { s with hostOps := .write Config.cmdAddr w :: s.hostOps, delay := s.delay + 1 }

end Sys2Proof.Machine
end

