-- ==== Sys2Proof/Machine/Dispatch.lean ====
section
/-! DEFINITION. One arm per command: the effect the command has when the engine runs it (44_control.md R184), and
for SOFT_RESET when its CMD write is accepted (R180, R181). -/

namespace Sys2Proof.Machine

open Sys2Proof

def exec (i : Instr) (s : State) : Host.Outcome State Fault Refusal :=
  match i with
  | .freqClear => Sys2Proof.Machine.execFreqClear s
  | .freqInc sym => Sys2Proof.Machine.execFreqInc sym s
  | .build => Sys2Proof.Machine.execBuild s
  | .encode sym => Sys2Proof.Machine.execEncode sym s
  | .decode => Sys2Proof.Machine.execDecode s
  | .serialize => Sys2Proof.Machine.execSerialize s
  | .deserialize => Sys2Proof.Machine.execDeserialize s
  | .softReset => Sys2Proof.Machine.execSoftReset s

end Sys2Proof.Machine
end

