-- ==== Sys2Proof/Machine/Step.lean ====
section
/-! DEFINITION. One step of HUFCORE and its host: a host operation, or the completion step of what is pending
(44_control.md R184). -/

namespace Sys2Proof.Machine

open Sys2Proof

/-- The engine's completion step (R182, R184). -/
def engineStep (p : Pending) (s : State) : Host.Outcome State Fault Refusal :=
  match p with
  | .init => .next (completeInit s)
  | .cmd i => exec i s

/-- One step. An idle machine whose host has nothing left to do stays as it is (R220; assumption 8). -/
def step (s : State) : Host.Outcome State Fault Refusal :=
  match turn s with
  | .idle => .next s
  | .host op s' => hostStep op s'
  | .engine p => engineStep p s

/-- The machine with the command word `w` placed where the next instruction is taken from: a legal command in
PENDING, where the engine takes it (R22); SOFT_RESET, which runs at its CMD write (R180), and an illegal word
as the host's next write to CMD (assumption 7). -/
def State.withFetchWord (s : State) (nbits w : Nat) : State :=
  match decodeTableWord nbits w with
  | some .softReset => withCmdWrite s (BitVec.ofNat 32 (w % 2 ^ nbits))
  | some i => withPending s i
  | none => withCmdWrite s (BitVec.ofNat 32 (w % 2 ^ nbits))

end Sys2Proof.Machine
end

