-- ==== Sys2Proof/Machine/Assembler.lean ====
section
/-! DEFINITION. The host's assembler: each mnemonic and pseudo-instruction as host-port operations (30_encoding.md
R86 to R89). -/

namespace Sys2Proof.Machine

open Sys2Proof

/-- A command mnemonic: one write to CMD (R87). -/
def asmCommand (i : Instr) : HostOp := .write Config.cmdAddr (encode i)

/-- `.word v`: any word written to CMD (R87). -/
def asmWord (v : Word) : HostOp := .write Config.cmdAddr v

/-- `SETF sym, v` (R88). -/
def asmSetf (sym : Symbol) (v : Word) : HostOp := .write (Config.freqBase + sym.setWidth 12) v

/-- `GETF sym` (R88). -/
def asmGetf (sym : Symbol) : HostOp := .read (Config.freqBase + sym.setWidth 12)

/-- `GETR` (R88). -/
def asmGetr : HostOp := .read Config.resultAddr

/-- `GETS` (R88). -/
def asmGets : HostOp := .read Config.statusAddr

/-- `GETT` (R88). -/
def asmGett : HostOp := .read Config.treeAddr

/-- `GETN i, f`: the address `0x400 + 4*i + f` (R34, R88). -/
def asmGetn (i : NodeIdx) (f : BitVec 2) : HostOp :=
  .read (Config.nodeBase + 4#12 * i.setWidth 12 + f.setWidth 12)

/-- `GETL sym` (R88). -/
def asmGetl (sym : Symbol) : HostOp := .read (Config.leafOfBase + sym.setWidth 12)

/-- `<command> !`: the command, then WAIT (R89). -/
def asmBang (i : Instr) : List HostOp := [asmCommand i, .wait]

end Sys2Proof.Machine
end

