-- ==== Sys2Proof/Safety.lean ====
section
/-! DEFINITION. What claims are stated in: Huffman trees as the spec's prose has them, apart from any node store
(43_serialize.md R161, 42_encode_decode.md R142, 41_tree_build.md R121 to R128), what it is for a node store to
hold one (10_state.md R36), and the invariants of the machine. -/

namespace Sys2Proof

open Sys2Proof.Machine

/-- A Huffman tree: a leaf with its symbol, or a "0" child and a "1" child (R161). -/
inductive HTree where
  | leaf (sym : Symbol)
  | node (zero one : HTree)
deriving DecidableEq, Repr

namespace HTree

/-- The leaves' symbols, left to right. -/
def leaves : HTree → List Symbol
  | leaf sym => [sym]
  | node t0 t1 => t0.leaves ++ t1.leaves

/-- The representative symbol: the leaf reached by "0" links (R128). -/
def rep : HTree → Symbol
  | leaf sym => sym
  | node t0 _ => t0.rep

/-- The serialized form S(T) (R161). -/
def form : HTree → List Bit
  | leaf sym => true :: symBits sym
  | node t0 t1 => false :: (t0.form ++ t1.form)

/-- Every leaf's symbol with its code, root first (R142). -/
def codes : HTree → List (Symbol × List Bit)
  | leaf sym => [(sym, [])]
  | node t0 t1 =>
    (t0.codes.map fun p => (p.1, false :: p.2)) ++ (t1.codes.map fun p => (p.1, true :: p.2))

/-- The weight under a frequency file, exact: the sum of the leaves' counts (R127). -/
def weight (freq : FreqFile) : HTree → Nat
  | leaf sym => (freq.get (symIndex sym)).toNat
  | node t0 t1 => t0.weight freq + t1.weight freq

/-- The order of the queue: weight, then representative symbol (R121). -/
def before (freq : FreqFile) (t u : HTree) : Bool :=
  t.weight freq < u.weight freq || (t.weight freq == u.weight freq && t.rep < u.rep)

/-- A tree put into a forest sorted by `before`. -/
def insertTree (freq : FreqFile) (t : HTree) : List HTree → List HTree
  | [] => [t]
  | u :: us => if before freq t u then t :: u :: us else u :: insertTree freq t us

/-- The two least trees of a sorted forest merged, until one is left (HUF §4.2, R120 step 2). -/
def mergeForest (freq : FreqFile) : Nat → List HTree → Option HTree
  | _, [] => none
  | _, [t] => some t
  | 0, _ => none
  | fuel + 1, t :: u :: us => mergeForest freq fuel (insertTree freq (node t u) us)

/-- The symbols with a non-zero count, ascending (R120 step 1). -/
def presentSymbols (freq : FreqFile) : List Symbol :=
  allSymbols.filter fun sym => freq.get (symIndex sym) ≠ 0#32

/-- The forest BUILD starts from: a leaf per present symbol, sorted by `before` (R120 step 1, R121). -/
def forest (freq : FreqFile) : List HTree :=
  (presentSymbols freq).foldr (fun sym us => insertTree freq (leaf sym) us) []

/-- The Huffman tree of a frequency file; none when every count is 0 (R120). -/
def huffman (freq : FreqFile) : Option HTree := mergeForest freq 256 (forest freq)

/-- The trees `mergeForest` makes, in the order of its merges. -/
def mergesOf (freq : FreqFile) : Nat → List HTree → List HTree
  | fuel + 1, t :: u :: us => node t u :: mergesOf freq fuel (insertTree freq (node t u) us)
  | _, _ => []

/-- The internal nodes of the Huffman tree as subtrees, in the order of the merges that make them (R120, R125). -/
def merges (freq : FreqFile) : List HTree := mergesOf freq 256 (forest freq)

/-- Every subtree of a tree, pre-order: the order of the tag bits in its form (R161, R164). -/
def preorder : HTree → List HTree
  | leaf sym => [leaf sym]
  | node t0 t1 => node t0 t1 :: (t0.preorder ++ t1.preorder)

end HTree

/-- What a serialized form lists, pre-order: the tag 0 of an internal node, or the tag 1 of a leaf and its symbol
(R161). -/
inductive FormItem where
  | internal
  | leaf (sym : Symbol)
deriving DecidableEq, Repr

/-- The bits of an item (R161). -/
def FormItem.bits : FormItem → List Bit
  | .internal => [false]
  | .leaf sym => true :: symBits sym

/-- The symbol of a leaf. -/
def FormItem.symbol? : FormItem → Option Symbol
  | .internal => none
  | .leaf sym => some sym

/-- The bits of a list of items. -/
def itemBits (items : List FormItem) : List Bit := items.flatMap FormItem.bits

/-- The symbols of the leaves of a list of items, in order. -/
def itemSymbols (items : List FormItem) : List Symbol := items.filterMap FormItem.symbol?

/-- The items of a tree's form, in order (R161). -/
def HTree.items : HTree → List FormItem
  | .leaf sym => [.leaf sym]
  | .node t0 t1 => .internal :: (t0.items ++ t1.items)

namespace Machine

/-- The node store holds the tree `t` at node `c`: every node valid, the tags and links as R36 (b), (c) say, SYM
by the law of R36 (f), a leaf's links 0 (R33). -/
def holds (ns : NodeStore) : HTree → NodeIdx → Bool
  | .leaf sym, c =>
    match nodeAt? ns c with
    | none => false
    | some r => r.valid && r.leaf && r.sym == sym && r.child0 == 0#9 && r.child1 == 0#9
  | .node t0 t1, c =>
    match nodeAt? ns c with
    | none => false
    | some r =>
      r.valid && !r.leaf && r.sym == t0.rep && r.child0 != r.child1 &&
      (nodeAt ns r.child0).hasParent && (nodeAt ns r.child0).parent == c && !(nodeAt ns r.child0).side &&
      (nodeAt ns r.child1).hasParent && (nodeAt ns r.child1).parent == c && (nodeAt ns r.child1).side &&
      holds ns t0 r.child0 && holds ns t1 r.child1

/-- The node at the end of a path from `c`, root first: CHILD0 for 0, CHILD1 for 1. -/
def follow (ns : NodeStore) (c : NodeIdx) : List Bit → NodeIdx
  | [] => c
  | b :: path => follow ns (if b then (nodeAt ns c).child1 else (nodeAt ns c).child0) path

/-- The machine's tree is `t`, with its root at node `r`: the invariants (a) to (f) of R36. -/
structure TreeAt (s : State) (r : NodeIdx) (t : HTree) : Prop where
  root_eq    : s.root = some r
  held       : holds s.node t r = true
  top        : (nodeAt s.node r).hasParent = false
  distinct   : t.leaves.Nodup
  leaf_count : s.leafCount = BitVec.ofNat 9 t.leaves.length
  node_count : s.node.cells.countP (fun n => n.valid) = 2 * t.leaves.length - 1
  mapped     : ∀ p ∈ t.codes, leafAt s.leafOf p.1 = some (follow s.node r p.2)
  unmapped   : ∀ sym : Symbol, sym ∉ t.leaves → leafAt s.leafOf sym = none

/-- There is no tree: no root, no leaf, no valid node, no valid LEAF_OF entry (R36, last sentence). -/
structure NoTree (s : State) : Prop where
  root_eq    : s.root = none
  leaf_count : s.leafCount = 0#9
  no_node    : ∀ n ∈ s.node.cells, n.valid = false
  no_leaf    : ∀ sym : Symbol, leafAt s.leafOf sym = none

/-- The tree invariant (R36): no tree, or one that the node store and the leaf map hold. -/
def TreeInv (s : State) : Prop := NoTree s ∨ ∃ r t, TreeAt s r t

/-- A record with nothing in the fields R33 says are 0: all of a node that is not VALID, a leaf's children, the
parent link where HAS_PARENT = 0. -/
def NodeRec.canonical (n : NodeRec) : Bool :=
  (n.valid || n == NodeRec.zero) && (!n.leaf || (n.child0 == 0#9 && n.child1 == 0#9)) &&
  (n.hasParent || (n.parent == 0#9 && !n.side))

/-- Every record of the node store is canonical (R33, R35). -/
def StoreInv (s : State) : Prop := ∀ n ∈ s.node.cells, n.canonical = true

/-- The status invariant: nothing is pending in the error state (R27, R209), SOFT_RESET is never pending (R180,
R181), the error fields agree (R27, R200), and the source cursor is inside the source (R37). -/
structure StatusInv (s : State) : Prop where
  idle_in_error  : s.err = true → s.pending = none
  never_reset    : s.pending ≠ some (.cmd .softReset)
  code_iff_err   : s.err = true ↔ s.errCode ≠ .none
  quiet_no_error : s.err = false → s.errEos = false ∧ s.errOp = 0#8
  eos_code       : s.errEos = true → s.errCode = .endOfStream ∨ s.errCode = .malformedTree
  cursor_inside  : s.srcPos ≤ s.src.length

/-- The invariant of the machine. -/
structure Inv (s : State) : Prop where
  status : StatusInv s
  store  : StoreInv s
  tree   : TreeInv s

/-- Every block state element but FREQ, RESULT, PENDING and the error fields: the tree (R36). -/
def sameTree (s t : State) : Prop :=
  t.node = s.node ∧ t.leafOf = s.leafOf ∧ t.root = s.root ∧ t.leafCount = s.leafCount

/-- The error fields of STATUS (R208). -/
def sameError (s t : State) : Prop :=
  t.err = s.err ∧ t.errCode = s.errCode ∧ t.errEos = s.errEos ∧ t.errOp = s.errOp

/-- The bit channel (R37). -/
def sameChannel (s t : State) : Prop := t.sink = s.sink ∧ t.src = s.src ∧ t.srcPos = s.srcPos

/-- What no command of the engine touches: the host's operations and reads, OVERRUN, and the model's draws. -/
def sameHost (s t : State) : Prop :=
  t.hostOps = s.hostOps ∧ t.reads = s.reads ∧ t.overrun = s.overrun ∧ t.delay = s.delay ∧ t.draws = s.draws

/-- Every block state element at its reset value, INIT pending (R40, R231). -/
structure BlockReset (t : State) : Prop where
  freq_zero : ∀ sym : Symbol, getFreq t sym = 0#32
  no_tree   : NoTree t
  node_zero : ∀ n ∈ t.node.cells, n = NodeRec.zero
  pending   : t.pending = some .init
  err       : t.err = false
  errCode   : t.errCode = .none
  errEos    : t.errEos = false
  errOp     : t.errOp = 0#8
  overrun   : t.overrun = false
  result    : t.result = 0#32

/-- The commands of a list run one after the other by the engine. -/
def execAll : List Instr → State → Host.Outcome State Fault Refusal
  | [], s => .next s
  | i :: is, s =>
    match exec i s with
    | .next t => execAll is t
    | .fault f => .fault f
    | .refused r => .refused r

/-- `n` DECODEs one after the other, with the symbols RESULT[7:0] gave (R28, R239); none if one stops or enters the
error state. -/
def decodeMany : Nat → State → Option (List Symbol × State)
  | 0, s => some ([], s)
  | n + 1, s =>
    match exec .decode s with
    | .next t =>
      if t.err then none
      else (decodeMany n t).map fun p => (t.result.extractLsb' 0 8 :: p.1, p.2)
    | .fault _ => none
    | .refused _ => none

/-- A run is safe when no step of it stops: no fault and no refusal. -/
def RunsSafely (s : State) : Prop := ∀ n, ∃ t, Sys2Proof.core.run n s = Host.Outcome.next t

/-- The operation is a reset: a legal SOFT_RESET written to CMD, or the hardware reset input (R210, R230). -/
def isReset : HostOp → Bool
  | .hardReset => true
  | .write a v => portReg a == .cmd && decode v == .legal .softReset
  | .read _ => false
  | .wait => false

/-- What a host that keeps its duties has yet to wait for, by what is pending (R189). -/
def waitFor : Option Pending → HostWait
  | none => .nothing
  | some .init => .reset
  | some (.cmd _) => .command

/-- The step to come is a reset. -/
def resetNext (s : State) : Prop :=
  match turn s with
  | .host op _ => isReset op = true
  | .engine p => p = .cmd .softReset
  | .idle => False

end Machine
end Sys2Proof
end

