-- ==== Sys2Proof/Certificates/Slice0/Obligations.lean ====
section
/-! DEFINITION. The statements for the provers. -/

open Sys2Proof Sys2Proof.Machine

/-! ### Encoding -/

/-- Decoding and encoding agree, both ways: a word decodes to a command exactly when it is that command's word
(30_encoding.md R80, R82, R83). -/
def Obligations.DecodeInvertsEncode : Prop :=
  ∀ (w : Word) (i : Instr), decode w = .legal i ↔ w = encode i

/-- The illegal words are those of R84, each with its case, in R83's order. -/
def Obligations.IllegalWordCases : Prop :=
  ∀ w : Word,
    (decode w = .illegal .reservedBits ↔ w.extractLsb' 16 16 ≠ 0#16) ∧
    (decode w = .illegal .unknownOp ↔
      w.extractLsb' 16 16 = 0#16 ∧ (w.extractLsb' 0 8 = 0#8 ∨ 9 ≤ (w.extractLsb' 0 8).toNat)) ∧
    (decode w = .illegal .symNotZero ↔
      w.extractLsb' 16 16 = 0#16 ∧ w.extractLsb' 8 8 ≠ 0#8 ∧
        (w.extractLsb' 0 8).toNat ∈ [0x01, 0x03, 0x05, 0x06, 0x07, 0x08])

/-- A word is legal exactly when a row of the opcode map selects it, and no two rows select one word (R82). -/
def Obligations.OpcodeMapSelectsLegalWords : Prop :=
  ∀ w : Word,
    ((∃ i, decode w = .legal i) ↔ ∃ r ∈ opcodeMap, r.selects w = true) ∧
    ∀ r1 ∈ opcodeMap, ∀ r2 ∈ opcodeMap, r1.selects w = true → r2.selects w = true → r1 = r2

/-- Words written out from R82 and R87 decode to what they stand for. -/
def Obligations.SpecWordsDecode : Prop :=
  decode 0x00000001#32 = .legal .freqClear ∧ decode 0x00006102#32 = .legal (.freqInc 0x61#8) ∧
  decode 0x00000003#32 = .legal .build ∧ decode 0x00006104#32 = .legal (.encode 0x61#8) ∧
  decode 0x00000006#32 = .legal .serialize ∧ decode 0x00000008#32 = .legal .softReset ∧
  decode 0x00000000#32 = .illegal .unknownOp

/-! ### The step -/

/-- Whose move it is, and what the step then does: the engine's completion step of the pending command is exec of it
(R184). The rest is the model's choice, not the spec's: the host's move is one operation of the list `hostOps`
(DESIGN CHOICE, assumption 1), the free choice of R184 is held in `delay` (DESIGN CHOICE, assumption 2), an idle
machine with nothing left to do stays (DEDUCED from R220, assumption 8). -/
def Obligations.StepTakesTurns : Prop :=
  ∀ s : State,
    (∀ i, s.pending = some (.cmd i) → (s.hostOps = [] ∨ s.delay = 0) → step s = exec i s) ∧
    (∀ op rest, s.pending ≠ none → s.hostOps = op :: rest → s.delay ≠ 0 →
      step s = hostStep op { s with hostOps := rest, delay := s.delay - 1 }) ∧
    (∀ op rest, s.pending = none → s.hostOps = op :: rest → step s = hostStep op { s with hostOps := rest }) ∧
    (s.pending = none → s.hostOps = [] → step s = .next s)

/-- INIT's completion step only clears PENDING (R182). -/
def Obligations.InitOnlyClearsPending : Prop :=
  ∀ s : State, s.pending = some .init → (s.hostOps = [] ∨ s.delay = 0) →
    step s = .next { s with pending := none }

/-- A command word placed where the next instruction is taken from is the instruction the very next step runs. -/
def Obligations.FetchedWordRuns : Prop :=
  ∀ (s : State) (nbits w : Nat) (i : Instr), decodeTableWord nbits w = some i →
    step (s.withFetchWord nbits w) =
      exec i (if i = .softReset then s else { s with pending := some (.cmd i), delay := 0 })

/-! ### Frequency table -/

/-- FREQ_CLEAR completes with every count and RESULT 0 and nothing else changed (R101). -/
def Obligations.FreqClearZeroesCounts : Prop :=
  ∀ s : State, ∃ t, exec .freqClear s = .next t ∧ (∀ sym, getFreq t sym = 0#32) ∧ t.result = 0#32 ∧
    t.pending = none ∧ sameTree s t ∧ sameError s t ∧ sameChannel s t ∧ sameHost s t

/-- FREQ_INC below the maximum completes: the count and RESULT are one more, without a wrap, nothing else changes
(R102). -/
def Obligations.FreqIncCountsOne : Prop :=
  ∀ (s : State) (sym : Symbol), getFreq s sym ≠ 0xFFFFFFFF#32 →
    ∃ t, exec (.freqInc sym) s = .next t ∧ (getFreq t sym).toNat = (getFreq s sym).toNat + 1 ∧
      t.result = getFreq t sym ∧ (∀ other, other ≠ sym → getFreq t other = getFreq s other) ∧
      t.pending = none ∧ sameTree s t ∧ sameError s t ∧ sameChannel s t ∧ sameHost s t

/-- FREQ_INC at 2^32-1 enters the error state with COUNT_OVERFLOW, code 6, and leaves the count (R206, R208, R212). -/
def Obligations.FreqIncOverflowTraps : Prop :=
  ErrCode.countOverflow.number = 6#4 ∧ ∀ (s : State) (sym : Symbol), getFreq s sym = 0xFFFFFFFF#32 →
    exec (.freqInc sym) s = .next
      { s with err := true, errCode := .countOverflow, errEos := false, errOp := 0x02#8, result := 0#32,
               pending := none }

/-- FREQ_CLEAR and one FREQ_INC per byte of a buffer of at most 2^32-1 bytes leave in FREQ how often each byte
occurs, in sum the buffer's length (R100). -/
def Obligations.FreqCountsBuffer : Prop :=
  ∀ (s : State) (buf : List Symbol), buf.length ≤ 2 ^ 32 - 1 →
    ∃ t, execAll (.freqClear :: buf.map .freqInc) s = .next t ∧
      (∀ sym, (getFreq t sym).toNat = buf.count sym) ∧
      (allSymbols.map fun sym => (getFreq t sym).toNat).sum = buf.length

/-! ### Tree builder -/

/-- BUILD completes on every frequency file, refuses nothing, and leaves in the node store the tree that repeated
merging of the two least trees of a sorted forest gives: one leaf per symbol with a non-zero count, none when every
count is 0; RESULT is the number of leaves and nothing else changes (R120 to R124). -/
def Obligations.BuildRefinesHuffman : Prop :=
  ∀ s : State, ∃ t, exec .build s = .next t ∧
    (match HTree.huffman s.freq with
      | none => NoTree t ∧ HTree.presentSymbols s.freq = []
      | some h => (∃ r, TreeAt t r h) ∧ h.leaves.Perm (HTree.presentSymbols s.freq)) ∧
    t.result = BitVec.ofNat 32 (HTree.presentSymbols s.freq).length ∧ t.pending = none ∧ t.freq = s.freq ∧
    sameError s t ∧ sameChannel s t ∧ sameHost s t

/-- BUILD's node indices (R125): the leaf of a symbol is at the number of lower symbols with a count, the leaves are
0..k-1, the node of the j-th merge (counted from 0 here) is at k+j and holds the tree that merge makes, with its
children at lower indices, the root is 2k-2. -/
def Obligations.BuildAllocatesInOrder : Prop :=
  ∀ s : State, ∃ t, exec .build s = .next t ∧
    (∀ sym ∈ HTree.presentSymbols s.freq, leafAt t.leafOf sym =
      some (BitVec.ofNat 9 ((HTree.presentSymbols s.freq).filter fun u => u < sym).length)) ∧
    (∀ i : NodeIdx, i.toNat < (HTree.presentSymbols s.freq).length → (nodeAt t.node i).leaf = true) ∧
    (∀ i : NodeIdx, (HTree.presentSymbols s.freq).length ≤ i.toNat →
      i.toNat < 2 * (HTree.presentSymbols s.freq).length - 1 →
      (nodeAt t.node i).valid = true ∧ (nodeAt t.node i).leaf = false ∧
      (nodeAt t.node i).child0 < i ∧ (nodeAt t.node i).child1 < i) ∧
    (HTree.merges s.freq).length = (HTree.presentSymbols s.freq).length - 1 ∧
    (∀ (j : Nat) (h : HTree), (HTree.merges s.freq)[j]? = some h →
      holds t.node h (BitVec.ofNat 9 ((HTree.presentSymbols s.freq).length + j)) = true) ∧
    (HTree.presentSymbols s.freq ≠ [] →
      t.root = some (BitVec.ofNat 9 (2 * (HTree.presentSymbols s.freq).length - 2)))

/-- After BUILD there are k valid leaves, one per symbol with a count, and k-1 valid internal nodes; every leaf's weight
is its symbol's count, every internal node's weight is the exact sum of its children's, and the root's is the sum of
all counts: no addition wraps (R126, R127). -/
def Obligations.BuildConservesWeight : Prop :=
  ∀ s : State, ∃ t, exec .build s = .next t ∧
    (∀ i : NodeIdx, (nodeAt t.node i).valid = true →
      (nodeAt t.node i).weight.toNat =
        if (nodeAt t.node i).leaf then (getFreq s (nodeAt t.node i).sym).toNat
        else (nodeAt t.node (nodeAt t.node i).child0).weight.toNat +
          (nodeAt t.node (nodeAt t.node i).child1).weight.toNat) ∧
    (∀ r, t.root = some r →
      (nodeAt t.node r).weight.toNat = (allSymbols.map fun sym => (getFreq s sym).toNat).sum) ∧
    ((t.node.cells.filter fun n => n.valid && n.leaf).map fun n => n.sym) = HTree.presentSymbols s.freq ∧
    (t.node.cells.countP fun n => n.valid && !n.leaf) = (HTree.presentSymbols s.freq).length - 1

/-- In a built tree a symbol with the higher count has a code no longer than one with the lower count (R129). -/
def Obligations.HigherCountShorterCode : Prop :=
  ∀ (s t : State) (a b : Symbol), exec .build s = .next t → getFreq s b ≠ 0#32 → getFreq s b < getFreq s a →
    ∃ u v, exec (.encode a) t = .next u ∧ exec (.encode b) t = .next v ∧ u.result.toNat ≤ v.result.toNat

/-! ### Symbol encoder and decoder -/

/-- ENCODE of a symbol of the tree completes: its code goes to the sink root first, RESULT is the code's length, at
most 255, and nothing else changes (R140, R141, R142). -/
def Obligations.EncodeEmitsCode : Prop :=
  ∀ (s : State) (r : NodeIdx) (h : HTree) (sym : Symbol) (code : List Bit), TreeAt s r h → (sym, code) ∈ h.codes →
    code.length ≤ 255 ∧
    exec (.encode sym) s = .next
      { s with sink := s.sink ++ code, result := BitVec.ofNat 32 code.length, pending := none }

/-- ENCODE of a symbol without a leaf enters the error state with INVALID_SYMBOL, code 2, and emits nothing (R202,
R208). -/
def Obligations.EncodeAbsentSymbolTraps : Prop :=
  ErrCode.invalidSymbol.number = 2#4 ∧ ∀ (s : State) (sym : Symbol), leafAt s.leafOf sym = none →
    exec (.encode sym) s = .next
      { s with err := true, errCode := .invalidSymbol, errEos := false, errOp := 0x04#8, result := 0#32,
               pending := none }

/-- The bits ENCODE emits for one symbol of a tree are no prefix of those for another (R142). -/
def Obligations.CodesArePrefixFree : Prop :=
  ∀ (s u v : State) (r : NodeIdx) (h : HTree) (a b : Symbol), TreeAt s r h → a ∈ h.leaves → b ∈ h.leaves →
    exec (.encode a) s = .next u → exec (.encode b) s = .next v →
    u.sink.drop s.sink.length <+: v.sink.drop s.sink.length → a = b

/-- A buffer whose bytes are all in the tree is encoded in full, and the bits emitted number the sum over the symbols
of count times code length (R129). -/
def Obligations.EncodedBufferLength : Prop :=
  ∀ (s : State) (r : NodeIdx) (h : HTree) (buf : List Symbol), TreeAt s r h → (∀ x ∈ buf, x ∈ h.leaves) →
    ∃ u, execAll (buf.map .encode) s = .next u ∧
      u.sink.length = s.sink.length + (h.codes.map fun p => buf.count p.1 * p.2.length).sum

/-- DECODE with a code of the tree at the cursor completes: the cursor passes exactly the code, RESULT is
{16'b0, L, sym}, and nothing else changes (R143, R144, R145). -/
def Obligations.DecodeReadsCode : Prop :=
  ∀ (s : State) (r : NodeIdx) (h : HTree) (sym : Symbol) (code rest : List Bit), TreeAt s r h →
    (sym, code) ∈ h.codes → s.src.drop s.srcPos = code ++ rest →
    exec .decode s = .next
      { s with srcPos := s.srcPos + code.length, result := BitVec.ofNat 32 (256 * code.length + sym.toNat),
               pending := none }

/-- DECODE whose source ends inside a code enters the error state with END_OF_STREAM, code 1: the bits left are
consumed and RESULT is their number (R201, R208, R212). -/
def Obligations.DecodeEndOfStreamTraps : Prop :=
  ErrCode.endOfStream.number = 1#4 ∧ ∀ (s : State) (r : NodeIdx) (h : HTree) (sym : Symbol) (code : List Bit), TreeAt s r h →
    (sym, code) ∈ h.codes → s.src.drop s.srcPos <+: code → s.src.drop s.srcPos ≠ code →
    exec .decode s = .next
      { s with srcPos := s.srcPos + (s.src.length - s.srcPos), err := true, errCode := .endOfStream, errEos := true,
               errOp := 0x05#8, result := BitVec.ofNat 32 (s.src.length - s.srcPos), pending := none }

/-- DECODE with no tree enters the error state with NO_TREE, code 5, and reads nothing (R205, R208). -/
def Obligations.DecodeWithoutTreeTraps : Prop :=
  ErrCode.noTree.number = 5#4 ∧ ∀ s : State, s.root = none →
    exec .decode s = .next
      { s with err := true, errCode := .noTree, errEos := false, errOp := 0x05#8, result := 0#32, pending := none }

/-- The single-leaf tree: ENCODE of its symbol emits nothing, DECODE returns the symbol and reads nothing, whatever
the source holds (R146). -/
def Obligations.SingleLeafTree : Prop :=
  ∀ (s : State) (r : NodeIdx) (sym : Symbol), TreeAt s r (.leaf sym) →
    exec (.encode sym) s = .next { s with result := 0#32, pending := none } ∧
    exec .decode s = .next { s with result := BitVec.ofNat 32 sym.toNat, pending := none }

/-- A buffer encoded on a tree and its bits presented to a source, followed by any bits, is decoded back in order by as
many DECODEs on any machine that holds the same tree, rebuilt or not; the rest stays unread (R145). -/
def Obligations.EncodeDecodeRoundTrip : Prop :=
  ∀ (s : State) (r : NodeIdx) (h : HTree) (buf : List Symbol), TreeAt s r h → (∀ x ∈ buf, x ∈ h.leaves) →
    ∃ u bits, execAll (buf.map .encode) s = .next u ∧ u.sink = s.sink ++ bits ∧
      ∀ (v : State) (q : NodeIdx) (rest : List Bit), TreeAt v q h → v.err = false →
        v.src.drop v.srcPos = bits ++ rest →
        ∃ w, decodeMany buf.length v = some (buf, w) ∧ w.srcPos = v.srcPos + bits.length

/-! ### Serializer and deserializer -/

/-- SERIALIZE of a tree with k leaves completes: S(T) goes to the sink, RESULT is its length 10k-1, nothing else
changes (R160, R161, R162). -/
def Obligations.SerializeEmitsForm : Prop :=
  ∀ (s : State) (r : NodeIdx) (h : HTree), TreeAt s r h →
    h.form.length = 10 * h.leaves.length - 1 ∧
    exec .serialize s = .next
      { s with sink := s.sink ++ h.form, result := BitVec.ofNat 32 (10 * h.leaves.length - 1), pending := none }

/-- SERIALIZE of the absent tree completes with no bit and RESULT 0 (R168). -/
def Obligations.SerializeWithoutTree : Prop :=
  ∀ s : State, s.root = none → exec .serialize s = .next { s with result := 0#32, pending := none }

/-- DESERIALIZE with a form of distinct symbols at the cursor completes: the tree is in the node store with root 0 and
weights 0, exactly the form's 10k-1 bits are consumed and counted in RESULT, nothing else changes (R163). Which node
is at which index is DeserializeAllocatesInTagOrder. -/
def Obligations.DeserializeReadsForm : Prop :=
  ∀ (s : State) (h : HTree) (rest : List Bit), h.leaves.Nodup → s.src.drop s.srcPos = h.form ++ rest →
    ∃ t, exec .deserialize s = .next t ∧ TreeAt t 0#9 h ∧ (∀ i : NodeIdx, (nodeAt t.node i).weight = 0#40) ∧
      t.srcPos = s.srcPos + (10 * h.leaves.length - 1) ∧
      t.result = BitVec.ofNat 32 (10 * h.leaves.length - 1) ∧ t.pending = none ∧ t.freq = s.freq ∧
      t.sink = s.sink ∧ t.src = s.src ∧ sameError s t ∧ sameHost s t

/-- DESERIALIZE ends from every state in one of two ways: a tree whose form is exactly what it consumed, or
MALFORMED_TREE with no tree, where ERR_EOS means that no bit is left; RESULT counts the bits consumed either way
(R163, R165, R166). -/
def Obligations.DeserializeOutcome : Prop :=
  ∀ s : State, ∃ t, exec .deserialize s = .next t ∧ t.pending = none ∧ t.freq = s.freq ∧ t.sink = s.sink ∧
    t.src = s.src ∧ sameHost s t ∧ s.srcPos ≤ t.srcPos ∧ t.result.toNat = t.srcPos - s.srcPos ∧
    ((sameError s t ∧ ∃ h, TreeAt t 0#9 h ∧ (s.src.drop s.srcPos).take (t.srcPos - s.srcPos) = h.form) ∨
     (NoTree t ∧ (∀ n ∈ t.node.cells, n = NodeRec.zero) ∧ t.err = true ∧ t.errCode = .malformedTree ∧ t.errOp = 0x07#8 ∧
        (t.errEos = true → s.src.length ≤ t.srcPos)))

/-- A tree built by BUILD, serialized and presented to a source followed by any bits, is rebuilt: DESERIALIZE consumes
exactly the emitted bits and both machines hold one and the same tree, with the weights of the rebuilt one 0 (R167). -/
def Obligations.SerializeRoundTrip : Prop :=
  ∀ (s t : State) (r : NodeIdx), exec .build s = .next t → t.root = some r →
    ∃ u bits, exec .serialize t = .next u ∧ u.sink = t.sink ++ bits ∧
      ∀ (v : State) (rest : List Bit), v.src.drop v.srcPos = bits ++ rest →
        ∃ w h, exec .deserialize v = .next w ∧ sameError v w ∧ w.srcPos = v.srcPos + bits.length ∧
          TreeAt t r h ∧ TreeAt w 0#9 h ∧ ∀ i : NodeIdx, (nodeAt w.node i).weight = 0#40

/-- DESERIALIZE whose source ends inside a form, of any tree, enters the error state with MALFORMED_TREE and ERR_EOS:
all bits left are consumed and counted, and the tree is cleared (R165 (a), R166, R208). The bits left are `items` of
the form in full and `part` of the item after them, less than all its bits: none (EOS at a tag bit), or a leaf's tag
and less than its eight symbol bits, whatever symbol they could still become. No symbol comes twice in `items` and its
internal nodes are at most 255, so that cases (b) and (c) have not come first. -/
def Obligations.DeserializeTruncatedTraps : Prop :=
  ∀ (s : State) (h : HTree) (items : List FormItem) (item : FormItem) (part : List Bit),
    items ++ [item] <+: h.items → items.count .internal ≤ 255 → (itemSymbols items).Nodup →
    part <+: item.bits → part ≠ item.bits → s.src.drop s.srcPos = itemBits items ++ part →
    exec .deserialize s = .next
      { s with node := Table.const 511 NodeRec.zero, leafOf := Table.const 256 none, root := none, leafCount := 0#9,
               srcPos := s.srcPos + (s.src.length - s.srcPos), err := true, errCode := .malformedTree, errEos := true,
               errOp := 0x07#8, result := BitVec.ofNat 32 (s.src.length - s.srcPos), pending := none }

/-- DESERIALIZE of a form, of any tree, in which a symbol comes a second time enters the error state with
MALFORMED_TREE, ERR_EOS = 0, after the eighth symbol bit of the first leaf that repeats one, and the tree is cleared
(R165 (b), R166, R208). `items` is what the form lists before that leaf; its internal nodes are at most 255, so
that case (c) has not come first. -/
def Obligations.DeserializeDuplicateTraps : Prop :=
  ∀ (s : State) (h : HTree) (items : List FormItem) (sym : Symbol) (rest : List Bit),
    items ++ [.leaf sym] <+: h.items → items.count .internal ≤ 255 → (itemSymbols items).Nodup →
    sym ∈ itemSymbols items → s.src.drop s.srcPos = itemBits (items ++ [.leaf sym]) ++ rest →
    exec .deserialize s = .next
      { s with node := Table.const 511 NodeRec.zero, leafOf := Table.const 256 none, root := none, leafCount := 0#9,
               srcPos := s.srcPos + (itemBits items).length + 9, err := true, errCode := .malformedTree,
               errEos := false, errOp := 0x07#8, result := BitVec.ofNat 32 ((itemBits items).length + 9),
               pending := none }

/-- DESERIALIZE of a form, of any tree, with a 256th internal tag enters the error state with MALFORMED_TREE,
ERR_EOS = 0, at that tag, and the tree is cleared (R165 (c), R166, R208). `items` is what the form lists before that
tag, leaves among it; no symbol comes twice in it, so that case (b) has not come first. -/
def Obligations.DeserializeTooManyInternalTraps : Prop :=
  ∀ (s : State) (h : HTree) (items : List FormItem) (rest : List Bit),
    items ++ [.internal] <+: h.items → items.count .internal = 255 → (itemSymbols items).Nodup →
    s.src.drop s.srcPos = itemBits (items ++ [.internal]) ++ rest →
    exec .deserialize s = .next
      { s with node := Table.const 511 NodeRec.zero, leafOf := Table.const 256 none, root := none, leafCount := 0#9,
               srcPos := s.srcPos + (itemBits items).length + 1, err := true, errCode := .malformedTree,
               errEos := false, errOp := 0x07#8, result := BitVec.ofNat 32 ((itemBits items).length + 1),
               pending := none }

/-! ### Reset -/

/-- SOFT_RESET completes from every state: every block state element at its reset value, INIT pending; the source and
the host are untouched, and with no command pending so are SINK and SRCPOS (R40, R181, R231, R232). That the hardware
reset input comes to the very same next state, a pending command aborted as SOFT_RESET aborts it, is the model's
reading of R230 "with the same effect" (DEDUCED, assumption 5). -/
def Obligations.SoftResetResetsBlock : Prop :=
  ∀ s : State, ∃ t, exec .softReset s = .next t ∧ hostStep .hardReset s = .next t ∧ BlockReset t ∧ t.src = s.src ∧ t.hostOps = s.hostOps ∧
    t.reads = s.reads ∧ ((∀ i, s.pending ≠ some (.cmd i)) → t.sink = s.sink ∧ t.srcPos = s.srcPos)

/-- A SOFT_RESET while a command is pending: of the bits the command would have emitted a prefix is in the sink, of
those it would have read a prefix is consumed, and everything else of it is gone (R242). -/
def Obligations.AbortLeavesPrefix : Prop :=
  ∀ (s t u : State) (i : Instr), s.pending = some (.cmd i) → i ≠ .softReset → exec i s = .next u →
    exec .softReset s = .next t →
    (∃ p, p <+: u.sink.drop s.sink.length ∧ t.sink = s.sink ++ p) ∧
    s.srcPos ≤ t.srcPos ∧ t.srcPos ≤ u.srcPos ∧ t.src = s.src ∧ BlockReset t

/-! ### Command control and the host port -/

/-- A legal command other than SOFT_RESET written to CMD while idle and not in error becomes pending and changes no
other block state; a legal SOFT_RESET runs at the write in every state (R180). -/
def Obligations.CommandAcceptance : Prop :=
  ∀ (s : State) (i : Instr),
    (i ≠ .softReset → s.pending = none → s.err = false →
      ∃ delay draws, hostStep (asmCommand i) s =
        .next { s with pending := some (.cmd i), delay := delay, draws := draws }) ∧
    hostStep (asmCommand .softReset) s = exec .softReset s

/-- An illegal word written to CMD while idle and not in error raises ILLEGAL_COMMAND, code 4, at the write: no busy
phase, and nothing but the error fields and RESULT changes (R204, R208). -/
def Obligations.IllegalCommandTraps : Prop :=
  ErrCode.illegalCommand.number = 4#4 ∧ ∀ (s : State) (w : Word) (why : IllegalWord), decode w = .illegal why → s.pending = none → s.err = false →
    hostStep (asmWord w) s = .next
      { s with err := true, errCode := .illegalCommand, errEos := false, errOp := w.extractLsb' 0 8,
               result := 0#32, pending := none }

/-- A CMD write of anything but a legal SOFT_RESET is dropped while busy and sets OVERRUN, and is dropped in the error
state without a trace: nothing else changes (R180, R183, R209). -/
def Obligations.DroppedCommandWrites : Prop :=
  ∀ (s : State) (w : Word), decode w ≠ .legal .softReset →
    (s.pending ≠ none → hostStep (asmWord w) s = .next { s with overrun := true }) ∧
    (s.pending = none → s.err = true → hostStep (asmWord w) s = .next s)

/-- A host write to `FREQ[sym]`: while busy it is dropped and sets OVERRUN, in the error state it is dropped, else that
count takes the value; nothing else changes (R103, R236). -/
def Obligations.FreqWrite : Prop :=
  ∀ (s : State) (sym : Symbol) (v : Word),
    (s.pending ≠ none → hostStep (asmSetf sym v) s = .next { s with overrun := true }) ∧
    (s.pending = none → s.err = true → hostStep (asmSetf sym v) s = .next s) ∧
    (s.pending = none → s.err = false →
      ∃ t, hostStep (asmSetf sym v) s = .next t ∧ getFreq t sym = v ∧
        (∀ other, other ≠ sym → getFreq t other = getFreq s other) ∧ t = { s with freq := t.freq })

/-- A write to any address but CMD and the FREQ window is ignored in every state (R186). -/
def Obligations.OtherWritesIgnored : Prop :=
  ∀ (s : State) (a : PortAddr) (v : Word), a ≠ 0x002#12 → ¬ (0x100 ≤ a.toNat ∧ a.toNat < 0x200) →
    hostStep (.write a v) s = .next s

/-- What each address reads while nothing is pending (R23, R185): the constants, CMD 0, the STATUS word with TREE_VALID
current and the TREE word (their fields are StatusAndTreeLayout), RESULT, every FREQ, LEAF_OF and NODE window word at
its address, the reserved addresses 0; the read leaves the machine as it is. -/
def Obligations.IdleReadsShowState : Prop :=
  ∀ s : State, s.pending = none →
    hostRead 0x000#12 s = (0x48460100#32, s) ∧ hostRead 0x001#12 s = (0x282001FF#32, s) ∧
    hostRead 0x002#12 s = (0#32, s) ∧ hostRead 0x003#12 s = (statusWord s (treeValid s), s) ∧
    hostRead 0x004#12 s = (s.result, s) ∧ hostRead 0x005#12 s = (treeWord s, s) ∧
    (∀ sym : Symbol, hostRead (0x100#12 + sym.setWidth 12) s = (getFreq s sym, s)) ∧
    (∀ sym : Symbol, hostRead (0x200#12 + sym.setWidth 12) s = (leafWord (leafAt s.leafOf sym), s)) ∧
    (∀ (i : NodeIdx) (f : BitVec 2), i.toNat < 511 →
      hostRead (0x400#12 + 4#12 * i.setWidth 12 + f.setWidth 12) s = (nodeWindowWord (nodeAt s.node i) f, s)) ∧
    (∀ a : PortAddr, (0x006 ≤ a.toNat ∧ a.toNat < 0x100) ∨ (0x300 ≤ a.toNat ∧ a.toNat < 0x400) ∨ 0xBFC ≤ a.toNat →
      hostRead a s = (0#32, s))

/-- The STATUS and TREE words while nothing is pending, field by field (R27, R29). -/
def Obligations.StatusAndTreeLayout : Prop :=
  ∀ s : State, s.pending = none →
    ((hostRead 0x003#12 s).1.getLsbD 0 = false ∧ (hostRead 0x003#12 s).1.getLsbD 1 = s.err ∧
      (hostRead 0x003#12 s).1.getLsbD 2 = s.overrun ∧ (hostRead 0x003#12 s).1.getLsbD 3 = s.root.isSome ∧
      (hostRead 0x003#12 s).1.getLsbD 4 = s.errEos ∧ (hostRead 0x003#12 s).1.extractLsb' 5 3 = 0#3 ∧
      (hostRead 0x003#12 s).1.extractLsb' 8 4 = s.errCode.number ∧ (hostRead 0x003#12 s).1.extractLsb' 12 4 = 0#4 ∧
      (hostRead 0x003#12 s).1.extractLsb' 16 8 = s.errOp ∧ (hostRead 0x003#12 s).1.extractLsb' 24 8 = 0#8) ∧
    (s.root = none → (hostRead 0x005#12 s).1 = 0#32) ∧
    (∀ r, s.root = some r →
      (hostRead 0x005#12 s).1.extractLsb' 0 9 = r ∧ (hostRead 0x005#12 s).1.extractLsb' 9 6 = 0#6 ∧
      (hostRead 0x005#12 s).1.getLsbD 15 = true ∧ (hostRead 0x005#12 s).1.extractLsb' 16 9 = s.leafCount ∧
      (hostRead 0x005#12 s).1.extractLsb' 25 7 = 0#7)

/-- The LEAF_OF and NODE window words, field by field, an invalid entry's words 0 (R32, R34, R35). -/
def Obligations.WindowLayout : Prop :=
  leafWord none = 0#32 ∧
  (∀ i : NodeIdx, (leafWord (some i)).getLsbD 31 = true ∧ (leafWord (some i)).extractLsb' 9 22 = 0#22 ∧
    (leafWord (some i)).extractLsb' 0 9 = i) ∧
  (∀ (n : NodeRec) (f : BitVec 2), n.valid = false → nodeWindowWord n f = 0#32) ∧
  (∀ n : NodeRec, n.valid = true →
    (nodeWindowWord n 1#2).extractLsb' 0 8 ++ nodeWindowWord n 0#2 = n.weight ∧
    (nodeWindowWord n 1#2).extractLsb' 8 8 = n.sym ∧ (nodeWindowWord n 1#2).getLsbD 16 = n.leaf ∧
    (nodeWindowWord n 1#2).getLsbD 17 = true ∧ (nodeWindowWord n 1#2).getLsbD 18 = n.hasParent ∧
    (nodeWindowWord n 1#2).getLsbD 19 = n.side ∧ (nodeWindowWord n 1#2).extractLsb' 20 12 = 0#12 ∧
    (nodeWindowWord n 2#2).extractLsb' 0 9 = n.child0 ∧ (nodeWindowWord n 2#2).extractLsb' 9 7 = 0#7 ∧
    (nodeWindowWord n 2#2).extractLsb' 16 9 = n.child1 ∧ (nodeWindowWord n 2#2).extractLsb' 25 7 = 0#7 ∧
    (nodeWindowWord n 3#2).extractLsb' 0 9 = n.parent ∧ (nodeWindowWord n 3#2).extractLsb' 9 23 = 0#23)

/-- What each address reads while something is pending (R185): ID and CAPS their constants, CMD 0, STATUS with BUSY
set, the error fields 0, OVERRUN current, and TREE_VALID current, or a fresh free draw if BUILD or DESERIALIZE is
pending; RESULT, TREE, FREQ, LEAF_OF and NODE a fresh free draw (R235); the reserved addresses 0. That a free draw is
an opaque constant of Config at the counter `draws`, which the read advances, is the model's choice (DESIGN CHOICE,
assumption 3). -/
def Obligations.BusyReads : Prop :=
  ∀ (s : State) (p : Pending), s.pending = some p →
    hostRead 0x000#12 s = (0x48460100#32, s) ∧ hostRead 0x001#12 s = (0x282001FF#32, s) ∧
    hostRead 0x002#12 s = (0#32, s) ∧
    ((hostRead 0x003#12 s).1 &&& 0xFFFFFFF7#32 = if s.overrun then 0x5#32 else 0x1#32) ∧
    (p ≠ .cmd .build → p ≠ .cmd .deserialize →
      (hostRead 0x003#12 s).1.getLsbD 3 = s.root.isSome ∧ (hostRead 0x003#12 s).2 = s) ∧
    (p = .cmd .build ∨ p = .cmd .deserialize →
      (hostRead 0x003#12 s).1.getLsbD 3 = Config.freeTreeValid s.draws ∧
      (hostRead 0x003#12 s).2 = { s with draws := s.draws + 1 }) ∧
    (∀ a, isOpenWhileBusy a = true →
      hostRead a s = (Config.freeWord s.draws, { s with draws := s.draws + 1 })) ∧
    (∀ a : PortAddr, (0x006 ≤ a.toNat ∧ a.toNat < 0x100) ∨ (0x300 ≤ a.toNat ∧ a.toNat < 0x400) ∨ 0xBFC ≤ a.toNat →
      hostRead a s = (0#32, s))

/-- A host read changes no block state and no channel state: the word that HostRead returns joins what the host has read
with its address, and at most the counter of free draws moves, and not while the block is idle (R68, R185). That the
host's words are a list in State is the model's choice (DESIGN CHOICE, assumption 1). -/
def Obligations.ReadsHaveNoSideEffect : Prop :=
  ∀ (s : State) (a : PortAddr), ∃ draws,
    hostStep (.read a) s =
      .next { s with reads := s.reads ++ [(a, (hostRead a s).1)], draws := draws } ∧
    (s.pending = none → draws = s.draws)

/-! ### Whole-machine rules -/

/-- The invariant holds right after reset. -/
def Obligations.ResetMeetsInvariant : Prop := Inv State.reset

/-- Every step keeps the status invariant: nothing is pending in the error state, the error fields agree, the source
cursor stays inside the source (R27, R200, R209). -/
def Obligations.StepKeepsStatus : Prop :=
  ∀ s t : State, StatusInv s → step s = .next t → StatusInv t

/-- From every state that meets the invariant a step neither faults nor refuses, and its state meets the invariant
again: the status, the records of the node store, and the tree invariants of R36. -/
def Obligations.StepKeepsInvariant : Prop :=
  ∀ s : State, Inv s → ∃ t, step s = .next t ∧ Inv t

/-- No run from a state that meets the invariant ever stops. -/
def Obligations.InvariantRunsAreSafe : Prop :=
  ∀ s : State, Inv s → RunsSafely s

/-- Only a reset leaves the error state or clears OVERRUN; in the error state everything else stays as the error left
it: the first error's fields, FREQ, the tree, RESULT and the channel (R209, R210). -/
def Obligations.OnlyResetLeavesError : Prop :=
  ∀ s t : State, step s = .next t → ¬ resetNext s →
    (s.overrun = true → t.overrun = true) ∧
    (StatusInv s → s.err = true →
      sameError s t ∧ t.freq = s.freq ∧ sameTree s t ∧ t.result = s.result ∧ sameChannel s t)

/-- No step takes a bit back: the sink only grows at its end, the source's bits never change, its cursor never moves
back (R37, R65, R66, R69). -/
def Obligations.ChannelMovesForward : Prop :=
  ∀ s t : State, step s = .next t → s.sink <+: t.sink ∧ t.src = s.src ∧ s.srcPos ≤ t.srcPos

/-- Only BUILD, DESERIALIZE and a reset change the tree (R36, R237). -/
def Obligations.TreeChangesOnlyByItsCommands : Prop :=
  ∀ s t : State, step s = .next t → ¬ resetNext s → turn s ≠ .engine (.cmd .build) →
    turn s ≠ .engine (.cmd .deserialize) → sameTree s t

/-- Only FREQ_CLEAR, FREQ_INC, a host write to the FREQ window and a reset change FREQ, and a FREQ_INC or a host write
changes its own entry only (R31). -/
def Obligations.FreqChangesOnlyByItsWriters : Prop :=
  ∀ (s t : State) (sym : Symbol), step s = .next t → getFreq t sym ≠ getFreq s sym →
    resetNext s ∨ turn s = .engine (.cmd .freqClear) ∨ turn s = .engine (.cmd (.freqInc sym)) ∨
    ∃ v u, turn s = .host (.write (0x100#12 + sym.setWidth 12) v) u

/-- What a command of the engine leaves unchanged when it gives a next state: FREQ but for FREQ_CLEAR and the entry of
FREQ_INC, the tree but for BUILD and DESERIALIZE, SINK but for ENCODE and SERIALIZE, SRCPOS but for DECODE and
DESERIALIZE, the error fields where the command has no error, and the host, OVERRUN and SRC always; PENDING is
cleared (R28, R31, R39, R184). -/
def Obligations.CommandFrame : Prop :=
  ∀ (s t : State) (i : Instr), i ≠ .softReset → exec i s = .next t →
    t.pending = none ∧ sameHost s t ∧ t.src = s.src ∧
    (i ≠ .freqClear → ∀ sym, i ≠ .freqInc sym → getFreq t sym = getFreq s sym) ∧
    (i ≠ .build → i ≠ .deserialize → sameTree s t) ∧
    (i ≠ .serialize → (∀ sym, i ≠ .encode sym) → t.sink = s.sink) ∧
    (i ≠ .decode → i ≠ .deserialize → t.srcPos = s.srcPos) ∧
    (i = .freqClear ∨ i = .build ∨ i = .serialize → sameError s t)

/-- A host that keeps its duties, those after a reset included, never loses a command: OVERRUN stays 0 at every step, and
what is left of its program keeps the duties still (R189, R233, R234). The premise StatusInv rules out a pending
SOFT_RESET, which no run reaches. That a CMD write which is not accepted calls for a WAIT too is the model's choice
(DESIGN CHOICE, assumption 15). -/
def Obligations.DutifulHostNeverOverruns : Prop :=
  ∀ s t : State, StatusInv s → s.overrun = false → keepsDuties (waitFor s.pending) s.hostOps = true → step s = .next t →
    t.overrun = false ∧ keepsDuties (waitFor t.pending) t.hostOps = true

/-- WAIT ends: within the pending delay and two more steps the block is idle and the WAIT is done, whatever was
pending (R89, R187). -/
def Obligations.WaitEnds : Prop :=
  ∀ (s : State) (rest : List HostOp), Inv s → s.hostOps = .wait :: rest →
    ∃ n ≤ s.delay + 2, ∃ t, core.run n s = Host.Outcome.next t ∧ t.hostOps = rest ∧ t.pending = none

/-- DESERIALIZE's node indices (R164): with a form of distinct symbols at the cursor, the subtree whose tag bit is the
i-th of the form (counted from 0) is at index i, for all 2k-1 of them, and LEAF_OF of a leaf's symbol is the index of
its tag; no other node is valid. -/
def Obligations.DeserializeAllocatesInTagOrder : Prop :=
  ∀ (s : State) (h : HTree) (rest : List Bit), h.leaves.Nodup → s.src.drop s.srcPos = h.form ++ rest →
    ∃ t, exec .deserialize s = .next t ∧ h.preorder.length = 2 * h.leaves.length - 1 ∧
      (∀ (i : Nat) (u : HTree), h.preorder[i]? = some u → holds t.node u (BitVec.ofNat 9 i) = true) ∧
      (∀ (i : Nat) (sym : Symbol), h.preorder[i]? = some (.leaf sym) →
        leafAt t.leafOf sym = some (BitVec.ofNat 9 i)) ∧
      (∀ i : NodeIdx, h.preorder.length ≤ i.toNat → nodeAt t.node i = NodeRec.zero)

/-- After a reset and before its WAIT a host that keeps its duties changes nothing and depends on nothing: while INIT is
pending its next operation is a WAIT, a reset from the platform, or a read of ID, CAPS or STATUS, and such a read
returns the constant or a STATUS word without a free draw (R185, R189, R231, R233). -/
def Obligations.DutifulHostAfterReset : Prop :=
  ∀ (s : State) (op : HostOp) (rest : List HostOp), s.pending = some .init → s.root = none → s.overrun = false →
    keepsDuties (waitFor s.pending) (op :: rest) = true →
    op = .wait ∨ op = .hardReset ∨
    ∃ a v, op = .read a ∧ ((a, v) = (0x000#12, 0x48460100#32) ∨ (a, v) = (0x001#12, 0x282001FF#32) ∨
        (a, v) = (0x003#12, 0x00000001#32)) ∧
      hostStep op s = .next { s with reads := s.reads ++ [(a, v)] }
end

