-- ==== Sys2Proof/Laws/State.lean ====
section
/-! SUPPORT. One lemma per field per update of State: a proof never unfolds a record update. -/

namespace Sys2Proof.Machine

open Sys2Proof

/-! ### finish -/

section
variable (s : State) (r : Word)

@[simp] theorem finish_freq : (finish s r).freq = s.freq := rfl
@[simp] theorem finish_node : (finish s r).node = s.node := rfl
@[simp] theorem finish_leafOf : (finish s r).leafOf = s.leafOf := rfl
@[simp] theorem finish_root : (finish s r).root = s.root := rfl
@[simp] theorem finish_leafCount : (finish s r).leafCount = s.leafCount := rfl
@[simp] theorem finish_pending : (finish s r).pending = none := rfl
@[simp] theorem finish_err : (finish s r).err = s.err := rfl
@[simp] theorem finish_errCode : (finish s r).errCode = s.errCode := rfl
@[simp] theorem finish_errEos : (finish s r).errEos = s.errEos := rfl
@[simp] theorem finish_errOp : (finish s r).errOp = s.errOp := rfl
@[simp] theorem finish_overrun : (finish s r).overrun = s.overrun := rfl
@[simp] theorem finish_result : (finish s r).result = r := rfl
@[simp] theorem finish_sink : (finish s r).sink = s.sink := rfl
@[simp] theorem finish_src : (finish s r).src = s.src := rfl
@[simp] theorem finish_srcPos : (finish s r).srcPos = s.srcPos := rfl
@[simp] theorem finish_hostOps : (finish s r).hostOps = s.hostOps := rfl
@[simp] theorem finish_reads : (finish s r).reads = s.reads := rfl
@[simp] theorem finish_delay : (finish s r).delay = s.delay := rfl
@[simp] theorem finish_draws : (finish s r).draws = s.draws := rfl

end

/-! ### errorEntry -/

section
variable (s : State) (code : ErrCode) (eos : Bool) (p w : Word)

@[simp] theorem errorEntry_freq : (errorEntry s code eos p w).freq = s.freq := rfl
@[simp] theorem errorEntry_node : (errorEntry s code eos p w).node = s.node := rfl
@[simp] theorem errorEntry_leafOf : (errorEntry s code eos p w).leafOf = s.leafOf := rfl
@[simp] theorem errorEntry_root : (errorEntry s code eos p w).root = s.root := rfl
@[simp] theorem errorEntry_leafCount : (errorEntry s code eos p w).leafCount = s.leafCount := rfl
@[simp] theorem errorEntry_pending : (errorEntry s code eos p w).pending = none := rfl
@[simp] theorem errorEntry_err : (errorEntry s code eos p w).err = true := rfl
@[simp] theorem errorEntry_errCode : (errorEntry s code eos p w).errCode = code := rfl
@[simp] theorem errorEntry_errEos : (errorEntry s code eos p w).errEos = eos := rfl
@[simp] theorem errorEntry_errOp : (errorEntry s code eos p w).errOp = w.extractLsb' 0 8 := rfl
@[simp] theorem errorEntry_overrun : (errorEntry s code eos p w).overrun = s.overrun := rfl
@[simp] theorem errorEntry_result : (errorEntry s code eos p w).result = p := rfl
@[simp] theorem errorEntry_sink : (errorEntry s code eos p w).sink = s.sink := rfl
@[simp] theorem errorEntry_src : (errorEntry s code eos p w).src = s.src := rfl
@[simp] theorem errorEntry_srcPos : (errorEntry s code eos p w).srcPos = s.srcPos := rfl
@[simp] theorem errorEntry_hostOps : (errorEntry s code eos p w).hostOps = s.hostOps := rfl
@[simp] theorem errorEntry_reads : (errorEntry s code eos p w).reads = s.reads := rfl
@[simp] theorem errorEntry_delay : (errorEntry s code eos p w).delay = s.delay := rfl
@[simp] theorem errorEntry_draws : (errorEntry s code eos p w).draws = s.draws := rfl

end

/-! ### emitBit -/

section
variable (s : State) (b : Bit)

@[simp] theorem emitBit_freq : (emitBit s b).freq = s.freq := rfl
@[simp] theorem emitBit_node : (emitBit s b).node = s.node := rfl
@[simp] theorem emitBit_leafOf : (emitBit s b).leafOf = s.leafOf := rfl
@[simp] theorem emitBit_root : (emitBit s b).root = s.root := rfl
@[simp] theorem emitBit_leafCount : (emitBit s b).leafCount = s.leafCount := rfl
@[simp] theorem emitBit_pending : (emitBit s b).pending = s.pending := rfl
@[simp] theorem emitBit_err : (emitBit s b).err = s.err := rfl
@[simp] theorem emitBit_errCode : (emitBit s b).errCode = s.errCode := rfl
@[simp] theorem emitBit_errEos : (emitBit s b).errEos = s.errEos := rfl
@[simp] theorem emitBit_errOp : (emitBit s b).errOp = s.errOp := rfl
@[simp] theorem emitBit_overrun : (emitBit s b).overrun = s.overrun := rfl
@[simp] theorem emitBit_result : (emitBit s b).result = s.result := rfl
@[simp] theorem emitBit_sink : (emitBit s b).sink = s.sink ++ [b] := rfl
@[simp] theorem emitBit_src : (emitBit s b).src = s.src := rfl
@[simp] theorem emitBit_srcPos : (emitBit s b).srcPos = s.srcPos := rfl
@[simp] theorem emitBit_hostOps : (emitBit s b).hostOps = s.hostOps := rfl
@[simp] theorem emitBit_reads : (emitBit s b).reads = s.reads := rfl
@[simp] theorem emitBit_delay : (emitBit s b).delay = s.delay := rfl
@[simp] theorem emitBit_draws : (emitBit s b).draws = s.draws := rfl

end

/-! ### clearTree -/

section
variable (s : State)

@[simp] theorem clearTree_freq : (clearTree s).freq = s.freq := rfl
@[simp] theorem clearTree_node : (clearTree s).node = Table.const 511 NodeRec.zero := rfl
@[simp] theorem clearTree_leafOf : (clearTree s).leafOf = Table.const 256 none := rfl
@[simp] theorem clearTree_root : (clearTree s).root = none := rfl
@[simp] theorem clearTree_leafCount : (clearTree s).leafCount = 0#9 := rfl
@[simp] theorem clearTree_pending : (clearTree s).pending = s.pending := rfl
@[simp] theorem clearTree_err : (clearTree s).err = s.err := rfl
@[simp] theorem clearTree_errCode : (clearTree s).errCode = s.errCode := rfl
@[simp] theorem clearTree_errEos : (clearTree s).errEos = s.errEos := rfl
@[simp] theorem clearTree_errOp : (clearTree s).errOp = s.errOp := rfl
@[simp] theorem clearTree_overrun : (clearTree s).overrun = s.overrun := rfl
@[simp] theorem clearTree_result : (clearTree s).result = s.result := rfl
@[simp] theorem clearTree_sink : (clearTree s).sink = s.sink := rfl
@[simp] theorem clearTree_src : (clearTree s).src = s.src := rfl
@[simp] theorem clearTree_srcPos : (clearTree s).srcPos = s.srcPos := rfl
@[simp] theorem clearTree_hostOps : (clearTree s).hostOps = s.hostOps := rfl
@[simp] theorem clearTree_reads : (clearTree s).reads = s.reads := rfl
@[simp] theorem clearTree_delay : (clearTree s).delay = s.delay := rfl
@[simp] theorem clearTree_draws : (clearTree s).draws = s.draws := rfl

end

/-! ### setFreq -/

section
variable (s : State) (sym : Symbol) (v : Word)

@[simp] theorem setFreq_freq : (setFreq s sym v).freq = s.freq.set (symIndex sym) v := rfl
@[simp] theorem setFreq_node : (setFreq s sym v).node = s.node := rfl
@[simp] theorem setFreq_leafOf : (setFreq s sym v).leafOf = s.leafOf := rfl
@[simp] theorem setFreq_root : (setFreq s sym v).root = s.root := rfl
@[simp] theorem setFreq_leafCount : (setFreq s sym v).leafCount = s.leafCount := rfl
@[simp] theorem setFreq_pending : (setFreq s sym v).pending = s.pending := rfl
@[simp] theorem setFreq_err : (setFreq s sym v).err = s.err := rfl
@[simp] theorem setFreq_errCode : (setFreq s sym v).errCode = s.errCode := rfl
@[simp] theorem setFreq_errEos : (setFreq s sym v).errEos = s.errEos := rfl
@[simp] theorem setFreq_errOp : (setFreq s sym v).errOp = s.errOp := rfl
@[simp] theorem setFreq_overrun : (setFreq s sym v).overrun = s.overrun := rfl
@[simp] theorem setFreq_result : (setFreq s sym v).result = s.result := rfl
@[simp] theorem setFreq_sink : (setFreq s sym v).sink = s.sink := rfl
@[simp] theorem setFreq_src : (setFreq s sym v).src = s.src := rfl
@[simp] theorem setFreq_srcPos : (setFreq s sym v).srcPos = s.srcPos := rfl
@[simp] theorem setFreq_hostOps : (setFreq s sym v).hostOps = s.hostOps := rfl
@[simp] theorem setFreq_reads : (setFreq s sym v).reads = s.reads := rfl
@[simp] theorem setFreq_delay : (setFreq s sym v).delay = s.delay := rfl
@[simp] theorem setFreq_draws : (setFreq s sym v).draws = s.draws := rfl

end

/-! ### drawn -/

section
variable (s : State)

@[simp] theorem drawn_freq : (drawn s).freq = s.freq := rfl
@[simp] theorem drawn_node : (drawn s).node = s.node := rfl
@[simp] theorem drawn_leafOf : (drawn s).leafOf = s.leafOf := rfl
@[simp] theorem drawn_root : (drawn s).root = s.root := rfl
@[simp] theorem drawn_leafCount : (drawn s).leafCount = s.leafCount := rfl
@[simp] theorem drawn_pending : (drawn s).pending = s.pending := rfl
@[simp] theorem drawn_err : (drawn s).err = s.err := rfl
@[simp] theorem drawn_errCode : (drawn s).errCode = s.errCode := rfl
@[simp] theorem drawn_errEos : (drawn s).errEos = s.errEos := rfl
@[simp] theorem drawn_errOp : (drawn s).errOp = s.errOp := rfl
@[simp] theorem drawn_overrun : (drawn s).overrun = s.overrun := rfl
@[simp] theorem drawn_result : (drawn s).result = s.result := rfl
@[simp] theorem drawn_sink : (drawn s).sink = s.sink := rfl
@[simp] theorem drawn_src : (drawn s).src = s.src := rfl
@[simp] theorem drawn_srcPos : (drawn s).srcPos = s.srcPos := rfl
@[simp] theorem drawn_hostOps : (drawn s).hostOps = s.hostOps := rfl
@[simp] theorem drawn_reads : (drawn s).reads = s.reads := rfl
@[simp] theorem drawn_delay : (drawn s).delay = s.delay := rfl
@[simp] theorem drawn_draws : (drawn s).draws = s.draws + 1 := rfl

end

/-! ### setPending -/

section
variable (s : State) (p : Pending)

@[simp] theorem setPending_freq : (setPending s p).freq = s.freq := rfl
@[simp] theorem setPending_node : (setPending s p).node = s.node := rfl
@[simp] theorem setPending_leafOf : (setPending s p).leafOf = s.leafOf := rfl
@[simp] theorem setPending_root : (setPending s p).root = s.root := rfl
@[simp] theorem setPending_leafCount : (setPending s p).leafCount = s.leafCount := rfl
@[simp] theorem setPending_pending : (setPending s p).pending = some p := rfl
@[simp] theorem setPending_err : (setPending s p).err = s.err := rfl
@[simp] theorem setPending_errCode : (setPending s p).errCode = s.errCode := rfl
@[simp] theorem setPending_errEos : (setPending s p).errEos = s.errEos := rfl
@[simp] theorem setPending_errOp : (setPending s p).errOp = s.errOp := rfl
@[simp] theorem setPending_overrun : (setPending s p).overrun = s.overrun := rfl
@[simp] theorem setPending_result : (setPending s p).result = s.result := rfl
@[simp] theorem setPending_sink : (setPending s p).sink = s.sink := rfl
@[simp] theorem setPending_src : (setPending s p).src = s.src := rfl
@[simp] theorem setPending_srcPos : (setPending s p).srcPos = s.srcPos := rfl
@[simp] theorem setPending_hostOps : (setPending s p).hostOps = s.hostOps := rfl
@[simp] theorem setPending_reads : (setPending s p).reads = s.reads := rfl
@[simp] theorem setPending_delay : (setPending s p).delay = Config.freeDelay s.draws := rfl
@[simp] theorem setPending_draws : (setPending s p).draws = s.draws + 1 := rfl

end

/-! ### resetState -/

section
variable (s : State)

@[simp] theorem resetState_freq : (resetState s).freq = Table.const 256 0#32 := rfl
@[simp] theorem resetState_node : (resetState s).node = Table.const 511 NodeRec.zero := rfl
@[simp] theorem resetState_leafOf : (resetState s).leafOf = Table.const 256 none := rfl
@[simp] theorem resetState_root : (resetState s).root = none := rfl
@[simp] theorem resetState_leafCount : (resetState s).leafCount = 0#9 := rfl
@[simp] theorem resetState_pending : (resetState s).pending = some .init := rfl
@[simp] theorem resetState_err : (resetState s).err = false := rfl
@[simp] theorem resetState_errCode : (resetState s).errCode = .none := rfl
@[simp] theorem resetState_errEos : (resetState s).errEos = false := rfl
@[simp] theorem resetState_errOp : (resetState s).errOp = 0#8 := rfl
@[simp] theorem resetState_overrun : (resetState s).overrun = false := rfl
@[simp] theorem resetState_result : (resetState s).result = 0#32 := rfl
@[simp] theorem resetState_sink : (resetState s).sink = s.sink := rfl
@[simp] theorem resetState_src : (resetState s).src = s.src := rfl
@[simp] theorem resetState_srcPos : (resetState s).srcPos = s.srcPos := rfl
@[simp] theorem resetState_hostOps : (resetState s).hostOps = s.hostOps := rfl
@[simp] theorem resetState_reads : (resetState s).reads = s.reads := rfl
@[simp] theorem resetState_delay : (resetState s).delay = Config.freeDelay s.draws := rfl
@[simp] theorem resetState_draws : (resetState s).draws = s.draws + 1 := rfl

end

/-! ### partialTransfers -/

section
variable (s : State) (t : State)

@[simp] theorem partialTransfers_freq : (partialTransfers s t).freq = s.freq := rfl
@[simp] theorem partialTransfers_node : (partialTransfers s t).node = s.node := rfl
@[simp] theorem partialTransfers_leafOf : (partialTransfers s t).leafOf = s.leafOf := rfl
@[simp] theorem partialTransfers_root : (partialTransfers s t).root = s.root := rfl
@[simp] theorem partialTransfers_leafCount : (partialTransfers s t).leafCount = s.leafCount := rfl
@[simp] theorem partialTransfers_pending : (partialTransfers s t).pending = s.pending := rfl
@[simp] theorem partialTransfers_err : (partialTransfers s t).err = s.err := rfl
@[simp] theorem partialTransfers_errCode : (partialTransfers s t).errCode = s.errCode := rfl
@[simp] theorem partialTransfers_errEos : (partialTransfers s t).errEos = s.errEos := rfl
@[simp] theorem partialTransfers_errOp : (partialTransfers s t).errOp = s.errOp := rfl
@[simp] theorem partialTransfers_overrun : (partialTransfers s t).overrun = s.overrun := rfl
@[simp] theorem partialTransfers_result : (partialTransfers s t).result = s.result := rfl
@[simp] theorem partialTransfers_sink : (partialTransfers s t).sink = s.sink ++ (t.sink.drop s.sink.length).take (Config.freeEmitted s.draws) := rfl
@[simp] theorem partialTransfers_src : (partialTransfers s t).src = s.src := rfl
@[simp] theorem partialTransfers_srcPos : (partialTransfers s t).srcPos = s.srcPos + min (Config.freeConsumed s.draws) (t.srcPos - s.srcPos) := rfl
@[simp] theorem partialTransfers_hostOps : (partialTransfers s t).hostOps = s.hostOps := rfl
@[simp] theorem partialTransfers_reads : (partialTransfers s t).reads = s.reads := rfl
@[simp] theorem partialTransfers_delay : (partialTransfers s t).delay = s.delay := rfl
@[simp] theorem partialTransfers_draws : (partialTransfers s t).draws = s.draws + 1 := rfl

end

/-! ### completeInit -/

section
variable (s : State)

@[simp] theorem completeInit_freq : (completeInit s).freq = s.freq := rfl
@[simp] theorem completeInit_node : (completeInit s).node = s.node := rfl
@[simp] theorem completeInit_leafOf : (completeInit s).leafOf = s.leafOf := rfl
@[simp] theorem completeInit_root : (completeInit s).root = s.root := rfl
@[simp] theorem completeInit_leafCount : (completeInit s).leafCount = s.leafCount := rfl
@[simp] theorem completeInit_pending : (completeInit s).pending = none := rfl
@[simp] theorem completeInit_err : (completeInit s).err = s.err := rfl
@[simp] theorem completeInit_errCode : (completeInit s).errCode = s.errCode := rfl
@[simp] theorem completeInit_errEos : (completeInit s).errEos = s.errEos := rfl
@[simp] theorem completeInit_errOp : (completeInit s).errOp = s.errOp := rfl
@[simp] theorem completeInit_overrun : (completeInit s).overrun = s.overrun := rfl
@[simp] theorem completeInit_result : (completeInit s).result = s.result := rfl
@[simp] theorem completeInit_sink : (completeInit s).sink = s.sink := rfl
@[simp] theorem completeInit_src : (completeInit s).src = s.src := rfl
@[simp] theorem completeInit_srcPos : (completeInit s).srcPos = s.srcPos := rfl
@[simp] theorem completeInit_hostOps : (completeInit s).hostOps = s.hostOps := rfl
@[simp] theorem completeInit_reads : (completeInit s).reads = s.reads := rfl
@[simp] theorem completeInit_delay : (completeInit s).delay = s.delay := rfl
@[simp] theorem completeInit_draws : (completeInit s).draws = s.draws := rfl

end

/-! ### withPending -/

section
variable (s : State) (i : Instr)

@[simp] theorem withPending_freq : (withPending s i).freq = s.freq := rfl
@[simp] theorem withPending_node : (withPending s i).node = s.node := rfl
@[simp] theorem withPending_leafOf : (withPending s i).leafOf = s.leafOf := rfl
@[simp] theorem withPending_root : (withPending s i).root = s.root := rfl
@[simp] theorem withPending_leafCount : (withPending s i).leafCount = s.leafCount := rfl
@[simp] theorem withPending_pending : (withPending s i).pending = some (.cmd i) := rfl
@[simp] theorem withPending_err : (withPending s i).err = s.err := rfl
@[simp] theorem withPending_errCode : (withPending s i).errCode = s.errCode := rfl
@[simp] theorem withPending_errEos : (withPending s i).errEos = s.errEos := rfl
@[simp] theorem withPending_errOp : (withPending s i).errOp = s.errOp := rfl
@[simp] theorem withPending_overrun : (withPending s i).overrun = s.overrun := rfl
@[simp] theorem withPending_result : (withPending s i).result = s.result := rfl
@[simp] theorem withPending_sink : (withPending s i).sink = s.sink := rfl
@[simp] theorem withPending_src : (withPending s i).src = s.src := rfl
@[simp] theorem withPending_srcPos : (withPending s i).srcPos = s.srcPos := rfl
@[simp] theorem withPending_hostOps : (withPending s i).hostOps = s.hostOps := rfl
@[simp] theorem withPending_reads : (withPending s i).reads = s.reads := rfl
@[simp] theorem withPending_delay : (withPending s i).delay = 0 := rfl
@[simp] theorem withPending_draws : (withPending s i).draws = s.draws := rfl

end

/-! ### withCmdWrite -/

section
variable (s : State) (w : Word)

@[simp] theorem withCmdWrite_freq : (withCmdWrite s w).freq = s.freq := rfl
@[simp] theorem withCmdWrite_node : (withCmdWrite s w).node = s.node := rfl
@[simp] theorem withCmdWrite_leafOf : (withCmdWrite s w).leafOf = s.leafOf := rfl
@[simp] theorem withCmdWrite_root : (withCmdWrite s w).root = s.root := rfl
@[simp] theorem withCmdWrite_leafCount : (withCmdWrite s w).leafCount = s.leafCount := rfl
@[simp] theorem withCmdWrite_pending : (withCmdWrite s w).pending = s.pending := rfl
@[simp] theorem withCmdWrite_err : (withCmdWrite s w).err = s.err := rfl
@[simp] theorem withCmdWrite_errCode : (withCmdWrite s w).errCode = s.errCode := rfl
@[simp] theorem withCmdWrite_errEos : (withCmdWrite s w).errEos = s.errEos := rfl
@[simp] theorem withCmdWrite_errOp : (withCmdWrite s w).errOp = s.errOp := rfl
@[simp] theorem withCmdWrite_overrun : (withCmdWrite s w).overrun = s.overrun := rfl
@[simp] theorem withCmdWrite_result : (withCmdWrite s w).result = s.result := rfl
@[simp] theorem withCmdWrite_sink : (withCmdWrite s w).sink = s.sink := rfl
@[simp] theorem withCmdWrite_src : (withCmdWrite s w).src = s.src := rfl
@[simp] theorem withCmdWrite_srcPos : (withCmdWrite s w).srcPos = s.srcPos := rfl
@[simp] theorem withCmdWrite_hostOps : (withCmdWrite s w).hostOps = .write Config.cmdAddr w :: s.hostOps := rfl
@[simp] theorem withCmdWrite_reads : (withCmdWrite s w).reads = s.reads := rfl
@[simp] theorem withCmdWrite_delay : (withCmdWrite s w).delay = s.delay + 1 := rfl
@[simp] theorem withCmdWrite_draws : (withCmdWrite s w).draws = s.draws := rfl

end

end Sys2Proof.Machine
end

