-- ==== Sys2Proof/Laws/Ops.lean ====
section
/-! SUPPORT. What each shared operation does, said once: register files, the bit channel, the host's port. -/

namespace Sys2Proof

/-! ### Register files -/

section
variable {α : Type} {size : Nat}

theorem Table.ext_get {t u : Table α size} (h : ∀ i, t.get i = u.get i) : t = u := by
  obtain ⟨tc, ht⟩ := t
  obtain ⟨uc, hu⟩ := u
  have : tc = uc := by
    apply List.ext_getElem (by omega)
    intro i h1 _
    exact h ⟨i, by omega⟩
  subst this
  rfl

@[simp] theorem Table.get_const (a : α) (i : Fin size) : (Table.const size a).get i = a := by
  simp [Table.get, Table.const]

@[simp] theorem Table.get_set_same (t : Table α size) (i : Fin size) (a : α) : (t.set i a).get i = a := by
  simp [Table.get, Table.set]

theorem Table.get_set_ne (t : Table α size) {i j : Fin size} (a : α) (h : j ≠ i) :
    (t.set i a).get j = t.get j := by
  have : i.val ≠ j.val := fun e => h (Fin.ext e.symm)
  simp [Table.get, Table.set, this]

theorem Table.get_mem (t : Table α size) (i : Fin size) : t.get i ∈ t.cells := List.getElem_mem _

theorem Table.exists_get_of_mem {t : Table α size} {a : α} (h : a ∈ t.cells) : ∃ i, t.get i = a := by
  obtain ⟨i, hi, rfl⟩ := List.getElem_of_mem h
  exact ⟨⟨i, by rw [← t.length_cells]; exact hi⟩, rfl⟩

theorem Table.mem_set {t : Table α size} {i : Fin size} {a b : α} (h : b ∈ (t.set i a).cells) :
    b = a ∨ b ∈ t.cells := by
  rcases List.mem_or_eq_of_mem_set h with h | h
  · exact .inr h
  · exact .inl h

theorem Table.mem_const {a b : α} (h : b ∈ (Table.const size a).cells) : b = a :=
  List.eq_of_mem_replicate h

end

namespace Machine

theorem symIndex_injective : Function.Injective symIndex := by
  intro a b h
  exact BitVec.eq_of_toNat_eq (congrArg Fin.val h)

theorem mem_allSymbols (sym : Symbol) : sym ∈ allSymbols :=
  List.mem_map.mpr ⟨sym.toNat, List.mem_range.mpr sym.isLt, by simp⟩

@[simp] theorem getFreq_setFreq_same (s : State) (sym : Symbol) (v : Word) :
    getFreq (setFreq s sym v) sym = v := by
  simp [getFreq]

theorem getFreq_setFreq_ne (s : State) {sym other : Symbol} (v : Word) (h : other ≠ sym) :
    getFreq (setFreq s sym v) other = getFreq s other := by
  simp only [getFreq, setFreq_freq]
  exact Table.get_set_ne _ _ fun e => h (symIndex_injective e)

@[simp] theorem leafAt_const (sym : Symbol) : leafAt (Table.const 256 none) sym = none :=
  Table.get_const _ _

@[simp] theorem leafAt_setLeaf_same (m : LeafMap) (sym : Symbol) (i : NodeIdx) :
    leafAt (setLeaf m sym i) sym = some i :=
  Table.get_set_same _ _ _

theorem leafAt_setLeaf_ne (m : LeafMap) {sym other : Symbol} (i : NodeIdx) (h : other ≠ sym) :
    leafAt (setLeaf m sym i) other = leafAt m other :=
  Table.get_set_ne _ _ fun e => h (symIndex_injective e)

theorem nodeAt?_of_lt (ns : NodeStore) {i : NodeIdx} (h : i.toNat < 511) :
    nodeAt? ns i = some (nodeAt ns i) := by
  simp [nodeAt, nodeAt?, h]

@[simp] theorem nodeAt_const_zero (i : NodeIdx) : nodeAt (Table.const 511 NodeRec.zero) i = NodeRec.zero := by
  unfold nodeAt nodeAt?
  split <;> simp

theorem nodeAt_setNode_same (ns : NodeStore) {i : NodeIdx} (r : NodeRec) (h : i.toNat < 511) :
    nodeAt (setNode ns i r) i = r := by
  simp [nodeAt, nodeAt?, setNode, h]

theorem nodeAt?_setNode_ne (ns : NodeStore) {i j : NodeIdx} (r : NodeRec) (h : j ≠ i) :
    nodeAt? (setNode ns i r) j = nodeAt? ns j := by
  unfold nodeAt? setNode
  by_cases hi : i.toNat < 511 <;> by_cases hj : j.toNat < 511 <;> simp only [hi, hj, dite_true, dite_false]
  rw [Table.get_set_ne]
  simp only [ne_eq, Fin.mk.injEq]
  exact fun e => h (BitVec.eq_of_toNat_eq e)

theorem nodeAt_setNode_ne (ns : NodeStore) {i j : NodeIdx} (r : NodeRec) (h : j ≠ i) :
    nodeAt (setNode ns i r) j = nodeAt ns j := by
  simp only [nodeAt, nodeAt?_setNode_ne ns r h]

theorem nodeAt_linkParent_ne (ns : NodeStore) {c j : NodeIdx} (p : NodeIdx) (side : Bit) (h : j ≠ c) :
    nodeAt (linkParent ns c p side) j = nodeAt ns j :=
  nodeAt_setNode_ne _ _ h

theorem nodeAt_linkParent_same (ns : NodeStore) {c : NodeIdx} (p : NodeIdx) (side : Bit) (h : c.toNat < 511) :
    nodeAt (linkParent ns c p side) c = { nodeAt ns c with hasParent := true, parent := p, side := side } :=
  nodeAt_setNode_same _ _ h

/-! ### The bit channel -/

@[simp] theorem emitBits_nil (s : State) : emitBits s [] = s := rfl

@[simp] theorem emitBits_cons (s : State) (b : Bit) (bits : List Bit) :
    emitBits s (b :: bits) = emitBits (emitBit s b) bits := rfl

/-- Emitting bits one at a time appends them in order and does nothing else (R65). -/
theorem emitBits_eq (s : State) (bits : List Bit) : emitBits s bits = { s with sink := s.sink ++ bits } := by
  induction bits generalizing s with
  | nil => simp
  | cons b bits ih => rw [emitBits_cons, ih]; simp [emitBit]

/-- ReadBit when a bit is left (R66). -/
theorem readBit_of_drop {s : State} {b : Bit} {rest : List Bit} (h : s.src.drop s.srcPos = b :: rest) :
    readBit s = (some b, { s with srcPos := s.srcPos + 1 }) ∧ s.src.drop (s.srcPos + 1) = rest := by
  have hb : s.src[s.srcPos]? = some b := by
    have := congrArg List.head? h
    simpa [List.head?_drop] using this
  refine ⟨by simp [readBit, hb], ?_⟩
  have := congrArg List.tail h
  simpa [List.tail_drop] using this

/-- ReadBit when the source is exhausted (R66). -/
theorem readBit_of_drop_nil {s : State} (h : s.src.drop s.srcPos = []) : readBit s = (none, s) := by
  have hb : s.src[s.srcPos]? = none := by
    have := congrArg List.head? h
    simpa [List.head?_drop] using this
  simp [readBit, hb]

/-- All that ReadBit can do: nothing at EOS, or one more bit consumed (R66). -/
theorem readBit_cases (s : State) :
    (readBit s = (none, s) ∧ s.src.length ≤ s.srcPos) ∨
    (∃ b, readBit s = (some b, { s with srcPos := s.srcPos + 1 }) ∧ s.srcPos < s.src.length ∧
      s.src[s.srcPos]? = some b) := by
  unfold readBit
  cases h : s.src[s.srcPos]? with
  | none => exact .inl ⟨rfl, by simpa using h⟩
  | some b =>
    obtain ⟨hlt, -⟩ := List.getElem?_eq_some_iff.mp h
    exact .inr ⟨b, rfl, hlt, rfl⟩

/-! ### Aborts -/

/-- All that an abort can change: the channel and the draw counter (R242). -/
theorem abortPending_frame (s : State) :
    ∃ sink srcPos draws, abortPending s = { s with sink := sink, srcPos := srcPos, draws := draws } := by
  unfold abortPending
  split
  · unfold abortedTransfers
    split
    · exact ⟨_, _, _, rfl⟩
    · exact ⟨s.sink, s.srcPos, s.draws, rfl⟩
    · exact ⟨s.sink, s.srcPos, s.draws, rfl⟩
  · exact ⟨s.sink, s.srcPos, s.draws, rfl⟩
  · exact ⟨s.sink, s.srcPos, s.draws, rfl⟩

/-! ### The host port -/

/-- A host read changes nothing but the draw counter (R68, R185). -/
theorem hostRead_frame (a : PortAddr) (s : State) :
    (hostRead a s).2 = s ∨ (hostRead a s).2 = drawn s := by
  unfold hostRead
  split
  · exact .inl rfl
  · unfold busyRead
    split <;> (try split) <;> first | exact .inl rfl | exact .inr rfl

end Machine
end Sys2Proof
end

