-- ==== Sys2Proof/Laws/Build.lean ====
section
/-! SUPPORT. What the priority-queue arbiter does (41_tree_build.md R123), and the resets as one fact (R231). -/

namespace Sys2Proof.Machine

open Sys2Proof

/-- The selection keeps the queue's entries. -/
theorem selectMin_perm (ns : NodeStore) (m : NodeIdx) (q : List NodeIdx) :
    ((selectMin ns m q).1 :: (selectMin ns m q).2).Perm (m :: q) := by
  induction q generalizing m with
  | nil => exact List.Perm.refl _
  | cons j q ih =>
    unfold selectMin
    by_cases h : nodeLess ns j m = true
    · rw [if_pos h]
      exact (List.Perm.swap _ _ _).trans ((ih j).cons m)
    · rw [if_neg h]
      exact (List.Perm.swap _ _ _).trans (((ih m).cons j).trans (List.Perm.swap _ _ _))

theorem nodeLess_iff (ns : NodeStore) (i j : NodeIdx) :
    nodeLess ns i j = true ↔ (nodeKey (nodeAt ns i)).toNat < (nodeKey (nodeAt ns j)).toNat := by
  simp [nodeLess, BitVec.ult]

/-- No entry left is less than the selected one, nor is the starting entry. -/
theorem selectMin_le (ns : NodeStore) (m : NodeIdx) (q : List NodeIdx) :
    (nodeKey (nodeAt ns (selectMin ns m q).1)).toNat ≤ (nodeKey (nodeAt ns m)).toNat ∧
    ∀ j ∈ (selectMin ns m q).2,
      (nodeKey (nodeAt ns (selectMin ns m q).1)).toNat ≤ (nodeKey (nodeAt ns j)).toNat := by
  induction q generalizing m with
  | nil => exact ⟨Nat.le_refl _, by simp [selectMin]⟩
  | cons j q ih =>
    unfold selectMin
    by_cases h : nodeLess ns j m = true
    · rw [if_pos h]
      have hlt := (nodeLess_iff ns j m).mp h
      refine ⟨by have := (ih j).1; simp only; omega, fun x hx => ?_⟩
      rcases List.mem_cons.mp hx with rfl | hx
      · have := (ih j).1
        simp only
        omega
      · exact (ih j).2 x hx
    · rw [if_neg h]
      have hge : (nodeKey (nodeAt ns m)).toNat ≤ (nodeKey (nodeAt ns j)).toNat := by
        have := mt (nodeLess_iff ns j m).mpr h
        omega
      refine ⟨(ih m).1, fun x hx => ?_⟩
      rcases List.mem_cons.mp hx with rfl | hx
      · have := (ih m).1
        simp only
        omega
      · exact (ih m).2 x hx

/-- All that ExtractMin can answer: the strictly least entry and the others (R123). -/
theorem extractMin_spec {ns : NodeStore} {q rest : List NodeIdx} {x : NodeIdx}
    (h : extractMin ns q = some (x, rest)) :
    (x :: rest).Perm q ∧ ∀ j ∈ rest, nodeLess ns x j = true := by
  cases q with
  | nil => simp [extractMin] at h
  | cons m q =>
    simp only [extractMin] at h
    split at h
    · rename_i hall
      have hx := Option.some.inj h
      have hp := selectMin_perm ns m q
      rw [hx] at hp hall
      exact ⟨hp, fun j hj => List.all_eq_true.mp hall j hj⟩
    · simp at h

/-- ExtractMin answers when the queue is not empty and its keys are distinct (R123). -/
theorem extractMin_of_distinct {ns : NodeStore} {m : NodeIdx} {q : List NodeIdx}
    (h : ((m :: q).map fun i => nodeKey (nodeAt ns i)).Nodup) :
    extractMin ns (m :: q) = some (selectMin ns m q) := by
  simp only [extractMin]
  rw [if_pos]
  rw [List.all_eq_true]
  intro j hj
  have hp := ((selectMin_perm ns m q).map fun i => nodeKey (nodeAt ns i)).nodup_iff.mpr h
  have hne : nodeKey (nodeAt ns j) ≠ nodeKey (nodeAt ns (selectMin ns m q).1) := by
    intro e
    rw [List.map_cons, List.nodup_cons] at hp
    exact hp.1 (List.mem_map.mpr ⟨j, hj, e⟩)
  rw [nodeLess_iff]
  have := (selectMin_le ns m q).2 j hj
  have : (nodeKey (nodeAt ns (selectMin ns m q).1)).toNat ≠ (nodeKey (nodeAt ns j)).toNat :=
    fun e => hne (BitVec.eq_of_toNat_eq e.symm)
  omega

/-- ClearTree leaves no tree (R166). -/
theorem noTree_clearTree (s : State) : NoTree (clearTree s) :=
  ⟨rfl, rfl, fun _ hn => by rw [Table.mem_const hn]; rfl, fun sym => leafAt_const sym⟩

/-- ResetState leaves every block state element at its reset value (R40, R231). -/
theorem blockReset_resetState (s : State) : BlockReset (resetState s) where
  freq_zero sym := Table.get_const _ _
  no_tree := ⟨rfl, rfl, fun _ hn => by rw [Table.mem_const hn]; rfl, fun sym => leafAt_const sym⟩
  node_zero _ hn := Table.mem_const hn
  pending := rfl
  err := rfl
  errCode := rfl
  errEos := rfl
  errOp := rfl
  overrun := rfl
  result := rfl

end Sys2Proof.Machine
end

