-- ==== Sys2Proof/Laws/Forms.lean ====
section
/-! SUPPORT. What the vocabulary of the statements satisfies: forms, their items and pre-order (43_serialize.md R161,
R162), and the host's duties (44_control.md R189). -/

namespace Sys2Proof

open Sys2Proof.Machine

/-! ### Forms -/

@[simp] theorem itemBits_nil : itemBits [] = [] := rfl

@[simp] theorem itemBits_internal (items : List FormItem) :
    itemBits (.internal :: items) = false :: itemBits items := rfl

@[simp] theorem itemBits_leaf (sym : Symbol) (items : List FormItem) :
    itemBits (.leaf sym :: items) = true :: (symBits sym ++ itemBits items) := rfl

@[simp] theorem itemBits_append (xs ys : List FormItem) : itemBits (xs ++ ys) = itemBits xs ++ itemBits ys := by
  simp [itemBits]

@[simp] theorem itemSymbols_append (xs ys : List FormItem) :
    itemSymbols (xs ++ ys) = itemSymbols xs ++ itemSymbols ys := by simp [itemSymbols]

namespace HTree

/-- The form is the bits of its items. -/
theorem itemBits_items (h : HTree) : itemBits h.items = h.form := by
  induction h with
  | leaf sym => simp [items, form, itemBits, FormItem.bits]
  | node t0 t1 ih0 ih1 => simp [items, form, ih0, ih1]

/-- The symbols a form lists are the leaves'. -/
theorem itemSymbols_items (h : HTree) : itemSymbols h.items = h.leaves := by
  induction h with
  | leaf sym => rfl
  | node t0 t1 ih0 ih1 =>
    rw [items, leaves, ← ih0, ← ih1, ← itemSymbols_append]
    rfl

theorem leaves_ne_nil (h : HTree) : h.leaves ≠ [] := by
  induction h with
  | leaf sym => simp [leaves]
  | node t0 t1 ih0 _ => simp [leaves, ih0]

theorem length_items (h : HTree) : h.items.length = h.preorder.length := by
  induction h with
  | leaf sym => rfl
  | node t0 t1 ih0 ih1 => simp [items, preorder, ih0, ih1]

/-- A tree of k leaves has 2k-1 nodes (R126). -/
theorem length_preorder (h : HTree) : h.preorder.length + 1 = 2 * h.leaves.length := by
  induction h with
  | leaf sym => rfl
  | node t0 t1 ih0 ih1 => simp [preorder, leaves]; omega

/-- |S(T)| = 10k-1 (R162). -/
theorem length_form (h : HTree) : h.form.length + 1 = 10 * h.leaves.length := by
  induction h with
  | leaf sym => rfl
  | node t0 t1 ih0 ih1 => simp [form, leaves]; omega

end HTree

/-! ### The host's duties -/

theorem isOpenWhileBusy_of_mayRead {a : PortAddr} (h : HostWait.reset.mayRead a = true) :
    isOpenWhileBusy a = false := by
  simp only [HostWait.mayRead, Bool.or_eq_true, beq_iff_eq] at h
  rcases h with (rfl | rfl) | rfl <;> decide

/-- A host that keeps its duties although it waits for a reset keeps them when it waits for nothing. -/
theorem keepsDuties_reset {w : HostWait} {ops : List HostOp} (h : keepsDuties .reset ops = true) :
    keepsDuties w ops = true := by
  induction ops with
  | nil => rfl
  | cons op ops ih =>
    cases op with
    | wait => exact h
    | hardReset => exact h
    | write a v => simp [keepsDuties, HostWait.mayWrite] at h
    | read a =>
      simp only [keepsDuties, Bool.and_eq_true] at h ⊢
      refine ⟨?_, ih h.2⟩
      cases w with
      | nothing => rfl
      | command => simp [HostWait.mayRead, isOpenWhileBusy_of_mayRead h.1]
      | reset => exact h.1

/-- What a host may do while a command is in flight it may do when none is. -/
theorem keepsDuties_command {ops : List HostOp} (h : keepsDuties .command ops = true) :
    keepsDuties .nothing ops = true := by
  induction ops with
  | nil => rfl
  | cons op ops ih =>
    cases op with
    | wait => exact h
    | hardReset => exact h
    | write a v =>
      simp only [keepsDuties, HostWait.mayWrite, Bool.and_eq_true] at h ⊢
      refine ⟨trivial, ?_⟩
      by_cases ha : a = Config.cmdAddr
      · simpa [HostWait.afterWrite, ha] using h.2
      · simp only [HostWait.afterWrite, if_neg ha] at h ⊢
        exact ih h.2
    | read a =>
      simp only [keepsDuties, HostWait.mayRead, Bool.and_eq_true] at h ⊢
      exact ⟨trivial, ih h.2⟩

/-- The completion of what is pending keeps the host within its duties. -/
theorem keepsDuties_nothing {w : HostWait} {ops : List HostOp} (h : keepsDuties w ops = true) :
    keepsDuties .nothing ops = true := by
  cases w with
  | nothing => exact h
  | command => exact keepsDuties_command h
  | reset => exact keepsDuties_reset h

/-- While a command or a reset may be in flight, a host that keeps its duties writes neither CMD nor FREQ. -/
theorem not_isCommandOrFreq_of_keepsDuties {w : HostWait} {a : PortAddr} {v : Word} {ops : List HostOp}
    (hw : w ≠ .nothing) (h : keepsDuties w (.write a v :: ops) = true) : isCommandOrFreq a = false := by
  cases w with
  | nothing => exact absurd rfl hw
  | command =>
    simp only [keepsDuties, HostWait.mayWrite, Bool.and_eq_true, Bool.not_eq_true'] at h
    exact h.1
  | reset => simp [keepsDuties, HostWait.mayWrite] at h

end Sys2Proof
end

