-- ==== Sys2Proof/Laws/PerInstr.lean ====
section
/-! SUPPORT. The per-instruction family RowOf: every command's word is legal in form and selects exactly its own
row of the opcode map (30_encoding.md R80, R82). -/

namespace Sys2Proof.Laws

open Sys2Proof

/-- The mnemonic of a command, as the opcode map spells it (R82). -/
def RowOf.mnemonicOf : Instr → String
  | .freqClear => "FREQ_CLEAR"
  | .freqInc _ => "FREQ_INC"
  | .build => "BUILD"
  | .encode _ => "ENCODE"
  | .decode => "DECODE"
  | .serialize => "SERIALIZE"
  | .deserialize => "DESERIALIZE"
  | .softReset => "SOFT_RESET"

/-- The command is well formed, and the rows its word selects are its own, of its format. -/
def RowOf.Statement (i : Instr) : Prop :=
  i.wellFormed = true ∧
  (opcodeMap.filter fun r => r.selects (encode i)).map (fun r => (r.mnemonic, r.format)) =
    [(RowOf.mnemonicOf i, i.format)]

theorem RowOf.freqClear : RowOf.Statement .freqClear := by
  unfold RowOf.Statement; decide
theorem RowOf.freqInc (sym : Symbol) : RowOf.Statement (.freqInc sym) := by
  revert sym; unfold RowOf.Statement; decide +kernel
theorem RowOf.build : RowOf.Statement .build := by
  unfold RowOf.Statement; decide
theorem RowOf.encode (sym : Symbol) : RowOf.Statement (.encode sym) := by
  revert sym; unfold RowOf.Statement; decide +kernel
theorem RowOf.decode : RowOf.Statement .decode := by
  unfold RowOf.Statement; decide
theorem RowOf.serialize : RowOf.Statement .serialize := by
  unfold RowOf.Statement; decide
theorem RowOf.deserialize : RowOf.Statement .deserialize := by
  unfold RowOf.Statement; decide
theorem RowOf.softReset : RowOf.Statement .softReset := by
  unfold RowOf.Statement; decide

end Sys2Proof.Laws
end

