-- ==== Sys2Proof/Laws/Serialize.lean ====
section
/-! SUPPORT. What DESERIALIZE's readers do (43_serialize.md R163). -/

namespace Sys2Proof.Machine

open Sys2Proof

/-- The bits still in the source. -/
def DesCtx.left (c : DesCtx) : List Bit := c.st.src.drop c.st.srcPos

/-- The machine after `k` more bits read. -/
def DesCtx.past (c : DesCtx) (k : Nat) : DesCtx :=
  { c with bits := c.bits + k, st := { c.st with srcPos := c.st.srcPos + k } }

@[simp] theorem DesCtx.past_zero (c : DesCtx) : c.past 0 = c := rfl

@[simp] theorem DesCtx.past_past (c : DesCtx) (j k : Nat) : (c.past j).past k = c.past (j + k) := by
  simp [DesCtx.past, Nat.add_assoc]

/-- Read1 with a bit left. -/
theorem read1_of_left {c : DesCtx} {b : Bit} {rest : List Bit} (h : c.left = b :: rest) :
    read1 c = .ok b (c.past 1) ∧ (c.past 1).left = rest := by
  obtain ⟨hr, hd⟩ := readBit_of_drop h
  exact ⟨by simp only [read1, hr, DesCtx.past], hd⟩

/-- Read1 at EOS (R165 (a)). -/
theorem read1_of_left_nil {c : DesCtx} (h : c.left = []) : read1 c = .fail true c := by
  simp only [read1, readBit_of_drop_nil h]

/-- All that Read1 can do. -/
theorem read1_cases (c : DesCtx) :
    (c.left = [] ∧ read1 c = .fail true c) ∨
    (∃ b rest, c.left = b :: rest ∧ read1 c = .ok b (c.past 1) ∧ (c.past 1).left = rest) := by
  cases h : c.left with
  | nil => exact .inl ⟨rfl, read1_of_left_nil h⟩
  | cons b rest => exact .inr ⟨b, rest, rfl, (read1_of_left h).1, (read1_of_left h).2⟩

/-- Reading a list of bits one at a time: the symbol they add, and exactly those bits gone. -/
theorem readSymbol_of_left {k : Nat} {sym : Symbol} {c : DesCtx} {bits rest : List Bit} (hk : bits.length = k)
    (h : c.left = bits ++ rest) :
    ∃ sym', readSymbol k sym c = .ok sym' (c.past k) ∧ (c.past k).left = rest ∧
      sym' = (bits.zip (List.range k).reverse).foldl
        (fun acc p => if p.1 then acc ||| BitVec.twoPow 8 p.2 else acc) sym := by
  induction k generalizing sym c bits with
  | zero =>
    obtain rfl := List.length_eq_zero_iff.mp hk
    exact ⟨sym, rfl, h, rfl⟩
  | succ k ih =>
    cases bits with
    | nil => simp at hk
    | cons b bits =>
      obtain ⟨h1, h2⟩ := read1_of_left (b := b) (rest := bits ++ rest) h
      obtain ⟨sym', e1, e2, e3⟩ := ih (sym := if b then sym ||| BitVec.twoPow 8 k else sym) (by simpa using hk) h2
      refine ⟨sym', ?_, ?_, ?_⟩
      · simp only [readSymbol, h1, e1, DesCtx.past_past, Nat.add_comm 1 k]
      · simpa [Nat.add_comm 1 k] using e2
      · simpa [List.range_succ] using e3

/-- The eight bits of a symbol, most significant first, are read back as the symbol (R63). -/
theorem readSymbol_symBits {c : DesCtx} {sym : Symbol} {rest : List Bit} (h : c.left = symBits sym ++ rest) :
    readSymbol 8 0#8 c = .ok sym (c.past 8) ∧ (c.past 8).left = rest := by
  obtain ⟨sym', e1, e2, e3⟩ := readSymbol_of_left (sym := 0#8) (k := 8) rfl h
  have : sym' = sym := by
    rw [e3]
    clear e1 e2 e3 h
    revert sym
    decide +kernel
  exact ⟨by rw [e1, this], e2⟩

end Sys2Proof.Machine
end

