-- ==== Sys2Proof/Laws/Step.lean ====
section
/-! SUPPORT. What a step can do, said once: the step by whose move it is, the acceptance procedure by branch, and
exec by command. -/

namespace Sys2Proof.Machine

open Sys2Proof

/-- The move of a machine with something pending: its completion step, unless host operations come first. -/
theorem turn_pending {s : State} {p : Pending} (h : s.pending = some p) :
    (turn s = .engine p ∧ (s.hostOps = [] ∨ s.delay = 0)) ∨
    (∃ op rest, s.hostOps = op :: rest ∧ s.delay ≠ 0 ∧
      turn s = .host op { s with hostOps := rest, delay := s.delay - 1 }) := by
  unfold turn
  rw [h]
  cases hops : s.hostOps with
  | nil => exact .inl ⟨rfl, .inl rfl⟩
  | cons op rest =>
    by_cases hd : s.delay = 0
    · exact .inl ⟨by simp [hd], .inr hd⟩
    · exact .inr ⟨op, rest, rfl, hd, by simp [hd]⟩

/-- The move of a machine with nothing pending: the host's, if it has an operation left. -/
theorem turn_idle {s : State} (h : s.pending = none) :
    (turn s = .idle ∧ s.hostOps = []) ∨
    (∃ op rest, s.hostOps = op :: rest ∧ turn s = .host op { s with hostOps := rest }) := by
  unfold turn
  rw [h]
  cases hops : s.hostOps with
  | nil => exact .inl ⟨rfl, rfl⟩
  | cons op rest => exact .inr ⟨op, rest, rfl, rfl⟩

/-- Every step: nothing at all, one host operation on the machine that differs only in `hostOps` and `delay`, or
the completion step of what is pending. -/
theorem step_cases (s : State) :
    (step s = .next s ∧ s.pending = none ∧ s.hostOps = []) ∨
    (∃ op rest delay, s.hostOps = op :: rest ∧ turn s = .host op { s with hostOps := rest, delay := delay } ∧
      step s = hostStep op { s with hostOps := rest, delay := delay }) ∨
    (∃ p, s.pending = some p ∧ turn s = .engine p ∧ step s = engineStep p s) := by
  rcases Option.eq_none_or_eq_some s.pending with hp | ⟨p, hp⟩
  · rcases turn_idle hp with ⟨ht, hops⟩ | ⟨op, rest, hops, ht⟩
    · exact .inl ⟨by simp [step, ht], hp, hops⟩
    · exact .inr (.inl ⟨op, rest, s.delay, hops, ht, by simp [step, ht]⟩)
  · rcases turn_pending hp with ⟨ht, -⟩ | ⟨op, rest, hops, -, ht⟩
    · exact .inr (.inr ⟨p, hp, ht, by simp [step, ht]⟩)
    · exact .inr (.inl ⟨op, rest, _, hops, ht, by simp [step, ht]⟩)

/-- The acceptance procedure by branch (R180): what it answers, under exactly the conditions of the branch. -/
theorem acceptCommand_cases (w : Word) (s : State) :
    (decode w = .legal .softReset ∧ acceptCommand w s = execSoftReset s) ∨
    (decode w ≠ .legal .softReset ∧
      ((s.pending ≠ none ∧ acceptCommand w s = .next { s with overrun := true }) ∨
       (s.pending = none ∧ s.err = true ∧ acceptCommand w s = .next s) ∨
       (s.pending = none ∧ s.err = false ∧ ∃ i, decode w = .legal i ∧ i ≠ .softReset ∧
          acceptCommand w s = .next (setPending s (.cmd i))) ∨
       (s.pending = none ∧ s.err = false ∧ ∃ why, decode w = .illegal why ∧
          acceptCommand w s = .next (errorEntry s .illegalCommand false 0#32 w)))) := by
  by_cases hr : decode w = .legal .softReset
  · exact .inl ⟨hr, by simp [acceptCommand, hr]⟩
  · refine .inr ⟨hr, ?_⟩
    cases hp : s.pending with
    | some p => exact .inl ⟨by simp, by simp [acceptCommand, hr, busy, hp]⟩
    | none =>
      cases he : s.err with
      | true => exact .inr (.inl ⟨rfl, rfl, by simp [acceptCommand, hr, busy, hp, he]⟩)
      | false =>
        cases hd : decode w with
        | legal i =>
          refine .inr (.inr (.inl ⟨rfl, rfl, i, rfl, ?_, ?_⟩))
          · rintro rfl; exact hr hd
          · have hi : i ≠ .softReset := by rintro rfl; exact hr hd
            simp [acceptCommand, busy, hp, he, hd, hi]
        | illegal why =>
          exact .inr (.inr (.inr ⟨rfl, rfl, why, rfl, by simp [acceptCommand, busy, hp, he, hd]⟩))

/-- DECODE's walk changes nothing but the source cursor, which moves forward inside the source (R144). -/
theorem descend_frame (fuel : Nat) (c : NodeIdx) (bits : Nat) (s : State) :
    match descend fuel c bits s with
    | .leaf bits' _ t => bits ≤ bits' ∧ t = { s with srcPos := s.srcPos + (bits' - bits) } ∧
        (s.srcPos ≤ s.src.length → t.srcPos ≤ s.src.length)
    | .eos bits' t => bits ≤ bits' ∧ t = { s with srcPos := s.srcPos + (bits' - bits) } ∧
        (s.srcPos ≤ s.src.length → t.srcPos ≤ s.src.length)
    | .broken => True := by
  induction fuel generalizing c bits s with
  | zero =>
    unfold descend
    cases nodeAt? s.node c with
    | none => trivial
    | some r => by_cases hl : r.leaf = true <;> simp [hl]
  | succ fuel ih =>
    unfold descend
    cases nodeAt? s.node c with
    | none => trivial
    | some r =>
      by_cases hl : r.leaf = true
      · simp [hl]
      · rcases readBit_cases s with ⟨hb, -⟩ | ⟨b, hb, hlt, -⟩
        · simp [hl, hb]
        · simp only [hl, hb, Bool.false_eq_true, if_false]
          have := ih (if b = true then r.child1 else r.child0) (bits + 1) { s with srcPos := s.srcPos + 1 }
          revert this
          cases descend fuel (if b = true then r.child1 else r.child0) (bits + 1)
            { s with srcPos := s.srcPos + 1 } with
          | leaf bits' sym t =>
            rintro ⟨h1, h2, h3⟩
            refine ⟨by omega, ?_, fun _ => h3 (by simpa using hlt)⟩
            rw [h2]
            simp only [State.mk.injEq, true_and, and_true]
            omega
          | eos bits' t =>
            rintro ⟨h1, h2, h3⟩
            refine ⟨by omega, ?_, fun _ => h3 (by simpa using hlt)⟩
            rw [h2]
            simp only [State.mk.injEq, true_and, and_true]
            omega
          | broken => exact fun _ => trivial

end Sys2Proof.Machine
end

