-- ==== Sys2Proof/Tests/Slice0.lean ====
section
/-! SUPPORT. The model's own tests, their expected results from the spec's encodings (30_encoding.md) and vectors
(95_test_vectors.md), and a witness for every statement with hypotheses. -/

namespace Sys2Proof.Tests

-- One kernel check at a time: the checks of these theorems, run at once, take twice the memory.
set_option Elab.async false

open Sys2Proof Sys2Proof.Machine

/-! ### Helpers -/

/-- The state of an outcome, the reset state where it has none. -/
def stateOf : Host.Outcome State Fault Refusal → State
  | .next t => t
  | .fault _ => State.reset
  | .refused _ => State.reset

def isNext : Host.Outcome State Fault Refusal → Bool
  | .next _ => true
  | .fault _ => false
  | .refused _ => false

theorem next_of_isNext {o : Host.Outcome State Fault Refusal} (h : isNext o = true) : o = .next (stateOf o) := by
  cases o <;> simp_all [isNext, stateOf]

/-- The reset state with INIT done, its free draws put to 0. -/
def idle : State := { State.reset with pending := none, delay := 0, draws := 0 }

/-- The idle state in the error state of vector V-C2. -/
def inError : State := { idle with err := true, errCode := .illegalCommand }

/-- Vector V-B3's counts: 'A' 3, 'B' 3. -/
def freqAB : State := setFreq (setFreq idle 0x41#8 3#32) 0x42#8 3#32

/-- Vector V-B3's tree, written out from the vector. -/
def treeAB : State :=
  { freqAB with
    node := setNode (setNode (setNode (Table.const 511 NodeRec.zero)
      0#9 { freshLeaf 0x41#8 3#40 with hasParent := true, parent := 2#9 })
      1#9 { freshLeaf 0x42#8 3#40 with hasParent := true, parent := 2#9, side := true })
      2#9 { freshLeaf 0x41#8 6#40 with leaf := false, child1 := 1#9 }
    leafOf := setLeaf (setLeaf (Table.const 256 none) 0x41#8 0#9) 0x42#8 1#9
    root := some 2#9
    leafCount := 2#9
    result := 2#32 }

/-- The tree of vector V-B3, apart from its node store. -/
def hAB : HTree := .node (.leaf 0x41#8) (.leaf 0x42#8)

/-- Vector V-S2's tree: the single leaf 'a'. -/
def treeA : State :=
  { idle with
    node := setNode (Table.const 511 NodeRec.zero) 0#9 (freshLeaf 0x61#8 5#40)
    leafOf := setLeaf (Table.const 256 none) 0x61#8 0#9
    root := some 0#9
    leafCount := 1#9 }

/-- "abracadabra": vector V-B7's counts. -/
def freqAbra : State :=
  setFreq (setFreq (setFreq (setFreq (setFreq idle 0x61#8 5#32) 0x62#8 2#32) 0x63#8 1#32) 0x64#8 1#32) 0x72#8 2#32

/-- What BUILD makes of them. -/
def abra : State := stateOf (exec .build freqAbra)

/-- `n` bits in stream order, written as a number with the first bit the most significant. -/
def bitsOf (n v : Nat) : List Bit := (List.range n).map fun j => v.testBit (n - 1 - j)

/-- The 49 bits of vector V-D1. -/
def abraForm : List Bit := bitsOf 49 0b0101100001010111001001011000100101100011101100100

/-! ### Well-formedness: one ill-formed term per check -/

theorem test_wellFormed_operand : Instr.wellFormed (.encode 0xFF#8) = true := by decide
/-- R189 row 1. -/
theorem test_duties_command_while_busy :
    keepsDuties .nothing [.write 0x002#12 3#32, .write 0x002#12 6#32] = false ∧
    keepsDuties .command [.write 0x161#12 17#32] = false := by decide
/-- R189 row 3. -/
theorem test_duties_read_while_busy : keepsDuties .command [.read 0x004#12] = false := by decide
/-- R189 row 2: after a reset and before WAIT only ID, CAPS and STATUS, and no write, not even an ignored one. -/
theorem test_duties_after_reset :
    [HostOp.read 0x002#12, .read 0x006#12, .read 0x004#12, .write 0x002#12 3#32, .write 0x000#12 0#32].all (fun op =>
      !keepsDuties .nothing [.hardReset, op] && !keepsDuties .nothing [asmCommand .softReset, op]) = true ∧
    keepsDuties .reset [.read 0x000#12, .read 0x001#12, .read 0x003#12, .wait, .read 0x002#12] = true := by decide
theorem test_duties_kept :
    keepsDuties .command [.read 0x002#12, .write 0x000#12 0#32, .wait, .write 0x161#12 17#32, .write 0x002#12 3#32,
      .wait, .read 0x004#12] = true ∧ softResetWord = encode .softReset := by decide

/-! ### Decoding: words written out bit by bit from R80 and R82 -/

theorem test_decode_freqClear : decode 0b00000000000000000000000000000001#32 = .legal .freqClear := by decide
theorem test_decode_freqInc : decode 0b00000000000000000110000100000010#32 = .legal (.freqInc 0x61#8) := by decide
theorem test_decode_build : decode 0b00000000000000000000000000000011#32 = .legal .build := by decide
theorem test_decode_encode : decode 0b00000000000000001111111100000100#32 = .legal (.encode 0xFF#8) := by decide
theorem test_decode_decode : decode 0b00000000000000000000000000000101#32 = .legal .decode := by decide
theorem test_decode_serialize : decode 0b00000000000000000000000000000110#32 = .legal .serialize := by decide
theorem test_decode_deserialize : decode 0b00000000000000000000000000000111#32 = .legal .deserialize := by decide
theorem test_decode_softReset : decode 0b00000000000000000000000000001000#32 = .legal .softReset := by decide
/-- V-C3, V-C4, V-C6: the three cases of R84. -/
theorem test_decode_illegal :
    decode 0x00010003#32 = .illegal .reservedBits ∧ decode 0x00000009#32 = .illegal .unknownOp ∧
    decode 0x00000108#32 = .illegal .symNotZero := by decide
/-- R87's examples. -/
theorem test_encode : encode (.freqInc 0x61#8) = 0x00006102#32 ∧ encode (.encode 0x61#8) = 0x00006104#32 := by decide
theorem test_opcode_rows_disjoint :
    opcodeMap.Pairwise fun r q => (r.pattern ^^^ q.pattern) &&& r.mask &&& q.mask ≠ 0#32 := by decide
theorem test_decodeTableWord : decodeTableWord 32 0x6104 = some (.encode 0x61#8) ∧ decodeTableWord 32 0 = none := by
  decide

/-! ### The host port -/

/-- R24's "HF" 1.0 and R25's fields. -/
theorem test_id_caps :
    Config.idWord = (0x4846#16 ++ 0x01#8 ++ 0x00#8 : BitVec (16 + 8 + 8)) ∧
    Config.capsWord = (40#8 ++ 32#8 ++ 0#6 ++ BitVec.ofNat 10 Config.nodeCap : BitVec (8 + 8 + 6 + 10)) := by decide
/-- V-B7's node 7, `0x00000006 / 0x000E7200 / 0x00060004 / 0x00000008`. -/
theorem test_node_words :
    [0#2, 1#2, 2#2, 3#2].map (nodeWindowWord
      { freshLeaf 0x72#8 6#40 with
        leaf := false, child0 := 4#9, child1 := 6#9, hasParent := true, parent := 8#9, side := true }) =
      [0x00000006#32, 0x000E7200#32, 0x00060004#32, 0x00000008#32] := by decide
/-- The words of V-E8 and of a write dropped under INIT (R231). -/
theorem test_status_words :
    statusFields 0x05#8 1#4 true true false true false = 0x0005011A#32 ∧
    statusWord { State.reset with overrun := true } false = 0x00000005#32 := by decide
/-- P5's addresses: GETN 12, 1 is 0x431 and GETL 'f' is 0x266; SETF 'a' is 0x161. -/
theorem test_assembler :
    asmGetn 12#9 1#2 = .read 0x431#12 ∧ asmGetl 0x66#8 = .read 0x266#12 ∧
    asmSetf 0x61#8 17#32 = .write 0x161#12 17#32 ∧ portReg 0x431#12 = .nodeWord 12#9 1#2 := by decide
/-- V-C13: the edges of the reserved ranges read 0, and the last NODE word is node 510's PARENT. -/
theorem test_port_edges :
    [0x006#12, 0x0FF#12, 0x300#12, 0x3FF#12, 0xBFC#12, 0xFFF#12].all (fun a => portReg a == .reserved) = true ∧
    portReg 0xBFB#12 = .nodeWord 510#9 3#2 ∧ portReg 0x2FF#12 = .leafOf 0xFF#8 := by decide
/-- V-C2: the illegal word 0 written while idle. -/
theorem test_illegal_write :
    statusWord (stateOf (hostStep (asmWord 0#32) idle)) false = 0x00000402#32 := by decide
/-- V-C17: a FREQ write under INIT is dropped and sets OVERRUN. -/
theorem test_write_under_init :
    (stateOf (hostStep (asmSetf 0x61#8 3#32) State.reset)).overrun = true ∧
    getFreq (stateOf (hostStep (asmSetf 0x61#8 3#32) State.reset)) 0x61#8 = 0#32 := by decide +kernel
/-- R184 at the reset state: both orders of INIT's completion step and the host's first write (V-C17, or none lost). -/
theorem test_reset_interleavings :
    (stateOf (step { State.reset with delay := 1, hostOps := [asmSetf 0x61#8 3#32] })).overrun = true ∧
    (stateOf (step { State.reset with delay := 0, hostOps := [asmSetf 0x61#8 3#32] })).pending = none := by decide

/-! ### The commands -/

/-- V-F2: 0xFF is symbol 255. -/
theorem test_freqInc : getFreq (stateOf (exec (.freqInc 0xFF#8) idle)) 0xFF#8 = 1#32 := by decide +kernel
/-- V-F4: COUNT_OVERFLOW. -/
theorem test_freqInc_overflow :
    statusWord (stateOf (exec (.freqInc 0x61#8) (setFreq idle 0x61#8 0xFFFFFFFF#32))) false = 0x00020602#32 := by
  decide +kernel
/-- V-F5. -/
theorem test_freqClear : getFreq (stateOf (exec .freqClear freqAbra)) 0x61#8 = 0#32 := by decide +kernel
/-- V-B3: the equal-weight tie goes to the lower symbol; the tree of the vector. -/
theorem test_build_tie : isNext (exec .build freqAB) = true ∧ stateOf (exec .build freqAB) = treeAB := by
  decide +kernel

theorem exec_build_freqAB : exec .build freqAB = .next treeAB := by
  rw [next_of_isNext test_build_tie.1, test_build_tie.2]

/-- V-B7: TREE and the node (r, 6); V-E1: the code of 'c' is 1110; V-E6: DECODE of 1110 gives L = 4 and 'c'; V-E8:
END_OF_STREAM after two bits; V-D1: the 49 bits. -/
theorem test_abracadabra :
    isNext (exec .build freqAbra) = true ∧
    (treeWord abra = 0x00058008#32 ∧ nodeWindowWord (nodeAt abra.node 7#9) 2#2 = 0x00060004#32) ∧
    (stateOf (exec (.encode 0x63#8) abra)).sink = [true, true, true, false] ∧
    (stateOf (exec .decode { abra with src := [true, true, true, false] })).result = 0x00000463#32 ∧
    statusWord (stateOf (exec .decode { abra with src := [true, true] })) true = 0x0005011A#32 ∧
    (stateOf (exec .serialize abra)).sink = abraForm := by decide +kernel
/-- V-E4: INVALID_SYMBOL. -/
theorem test_encode_absent : statusWord (stateOf (exec (.encode 0x7A#8) treeA)) true = 0x0004020A#32 := by
  decide +kernel
/-- V-D5: TREE and node 2. -/
theorem test_deserialize :
    treeWord (stateOf (exec .deserialize { idle with src := abraForm })) = 0x00058000#32 ∧
    nodeWindowWord (nodeAt (stateOf (exec .deserialize { idle with src := abraForm })).node 2#9) 1#2 =
      0x000E7200#32 := by decide +kernel
/-- V-D8: MALFORMED_TREE with ERR_EOS. -/
theorem test_deserialize_truncated :
    statusWord (stateOf (exec .deserialize { idle with src := [false, true, false, true] })) false =
      0x00070312#32 := by decide +kernel
/-- V-C8: SOFT_RESET leaves the error state, with INIT pending. -/
theorem test_softReset :
    statusWord (stateOf (exec .softReset inError)) false = 0x00000001#32 := by decide

/-! ### Witnesses -/

theorem treeAB_TreeAt : TreeAt treeAB 2#9 hAB := by
  constructor <;> decide +kernel

/-- The source is no part of the tree. -/
theorem treeAB_TreeAt_src (bits : List Bit) : TreeAt { treeAB with src := bits } 2#9 hAB :=
  ⟨treeAB_TreeAt.1, treeAB_TreeAt.2, treeAB_TreeAt.3, treeAB_TreeAt.4, treeAB_TreeAt.5, treeAB_TreeAt.6,
    treeAB_TreeAt.7, treeAB_TreeAt.8⟩

theorem treeA_TreeAt : TreeAt treeA 0#9 (.leaf 0x61#8) := by
  constructor <;> decide +kernel

theorem treeAB_Inv : Inv treeAB :=
  ⟨by constructor <;> decide +kernel, by unfold StoreInv; decide +kernel, .inr ⟨_, _, treeAB_TreeAt⟩⟩

/-- `treeAB` with a host that waits. -/
def waiting : State := { treeAB with hostOps := [.wait] }

theorem waiting_Inv : Inv waiting :=
  ⟨by constructor <;> decide +kernel, treeAB_Inv.2,
    .inr ⟨2#9, hAB, treeAB_TreeAt.1, treeAB_TreeAt.2, treeAB_TreeAt.3, treeAB_TreeAt.4, treeAB_TreeAt.5,
      treeAB_TreeAt.6, treeAB_TreeAt.7, treeAB_TreeAt.8⟩⟩

theorem witness_StepTakesTurns :
    { idle with pending := some (.cmd .build) }.pending = some (.cmd .build) ∧ idle.hostOps = [] ∧
    { State.reset with delay := 1, hostOps := [HostOp.wait] }.pending ≠ none ∧
    { State.reset with delay := 1, hostOps := [HostOp.wait] }.delay ≠ 0 ∧
    waiting.pending = none ∧ waiting.hostOps = .wait :: [] := by decide +kernel

theorem witness_InitOnlyClearsPending :
    State.reset.pending = some .init ∧ (State.reset.hostOps = [] ∨ State.reset.delay = 0) := by decide

theorem witness_FetchedWordRuns :
    decodeTableWord 32 3 = some .build ∧ decodeTableWord 32 8 = some .softReset := by decide

theorem witness_FreqIncCountsOne : getFreq idle 0xFF#8 ≠ 0xFFFFFFFF#32 ∧ (0x00#8 : Symbol) ≠ 0xFF#8 := by
  decide +kernel

theorem witness_FreqIncOverflowTraps : getFreq (setFreq idle 0x61#8 0xFFFFFFFF#32) 0x61#8 = 0xFFFFFFFF#32 := by
  decide +kernel

theorem witness_FreqCountsBuffer : ([0x61#8, 0x62#8, 0x61#8] : List Symbol).length ≤ 2 ^ 32 - 1 := by decide

/-- Both cases of the Huffman tree: the empty table and V-B3's. -/
theorem witness_BuildRefinesHuffman :
    HTree.huffman idle.freq = none ∧ HTree.huffman freqAB.freq = some hAB := by decide +kernel

theorem witness_BuildAllocatesInOrder :
    HTree.presentSymbols freqAB.freq = [0x41#8, 0x42#8] ∧ exec .build freqAB = .next treeAB ∧ (1#9).toNat < 2 ∧ 2 ≤ (2#9).toNat ∧
    (2#9).toNat < 2 * 2 - 1 ∧ (HTree.merges freqAB.freq)[0]? = some hAB :=
  ⟨by decide +kernel, exec_build_freqAB, by decide, by decide, by decide, by decide +kernel⟩

theorem witness_BuildConservesWeight :
    exec .build freqAB = .next treeAB ∧ (nodeAt treeAB.node 2#9).valid = true ∧ treeAB.root = some 2#9 :=
  ⟨exec_build_freqAB, by decide +kernel, rfl⟩

theorem witness_HigherCountShorterCode :
    exec .build freqAbra = .next abra ∧ getFreq freqAbra 0x62#8 ≠ 0#32 ∧
    getFreq freqAbra 0x62#8 < getFreq freqAbra 0x61#8 :=
  ⟨next_of_isNext test_abracadabra.1, by decide +kernel, by decide +kernel⟩

theorem witness_EncodeEmitsCode : TreeAt treeAB 2#9 hAB ∧ (0x42#8, [true]) ∈ hAB.codes :=
  ⟨treeAB_TreeAt, by decide⟩

theorem witness_EncodeAbsentSymbolTraps : leafAt treeA.leafOf 0x7A#8 = none := by decide +kernel

theorem witness_CodesArePrefixFree :
    ∃ u, TreeAt treeAB 2#9 hAB ∧ 0x42#8 ∈ hAB.leaves ∧ exec (.encode 0x42#8) treeAB = .next u ∧
      u.sink.drop treeAB.sink.length <+: u.sink.drop treeAB.sink.length :=
  ⟨stateOf (exec (.encode 0x42#8) treeAB), treeAB_TreeAt, by decide, next_of_isNext (by decide +kernel),
    List.prefix_rfl⟩

theorem witness_EncodedBufferLength : TreeAt treeAB 2#9 hAB ∧ ∀ x ∈ [0x42#8, 0x41#8, 0x42#8], x ∈ hAB.leaves :=
  ⟨treeAB_TreeAt, by decide⟩

theorem witness_DecodeReadsCode :
    TreeAt { treeAB with src := [true, false] } 2#9 hAB ∧ (0x42#8, [true]) ∈ hAB.codes ∧
    ([true, false] : List Bit).drop 0 = [true] ++ [false] :=
  ⟨treeAB_TreeAt_src _, by decide, by decide⟩

theorem witness_DecodeEndOfStreamTraps :
    TreeAt treeAB 2#9 hAB ∧ (0x42#8, [true]) ∈ hAB.codes ∧ treeAB.src.drop treeAB.srcPos <+: [true] ∧
    treeAB.src.drop treeAB.srcPos ≠ [true] :=
  ⟨treeAB_TreeAt, by decide, by decide, by decide⟩

theorem witness_DecodeWithoutTreeTraps : idle.root = none := by decide

theorem witness_SingleLeafTree : TreeAt treeA 0#9 (.leaf 0x61#8) := treeA_TreeAt

theorem witness_EncodeDecodeRoundTrip :
    TreeAt treeAB 2#9 hAB ∧ (∀ x ∈ [0x42#8, 0x41#8], x ∈ hAB.leaves) ∧
    TreeAt { treeAB with src := [true, false, true] } 2#9 hAB ∧ treeAB.err = false ∧
    ([true, false, true] : List Bit).drop 0 = [true, false] ++ [true] :=
  ⟨treeAB_TreeAt, by decide, treeAB_TreeAt_src _, by decide, by decide⟩

theorem witness_SerializeEmitsForm : TreeAt treeAB 2#9 hAB := treeAB_TreeAt

theorem witness_SerializeWithoutTree : idle.root = none := by decide

theorem witness_DeserializeReadsForm :
    hAB.leaves.Nodup ∧ ({ idle with src := hAB.form ++ [true] } : State).src.drop 0 = hAB.form ++ [true] := by decide

theorem witness_SerializeRoundTrip :
    exec .build freqAB = .next treeAB ∧ treeAB.root = some 2#9 ∧
    (stateOf (exec .serialize treeAB)).sink = treeAB.sink ++ hAB.form ∧
    ({ idle with src := hAB.form ++ [true] } : State).src.drop 0 = hAB.form ++ [true] :=
  ⟨exec_build_freqAB, rfl, by decide +kernel, by decide⟩

/-- A source that ends in a symbol both of whose ends have been read: 0 1a 0 1a' 1 and seven bits. -/
theorem witness_DeserializeTruncatedTraps :
    [FormItem.internal, .leaf 0x61#8, .internal, .leaf 0x60#8] ++ [.leaf 0x61#8] <+:
      (HTree.node (.leaf 0x61#8) (.node (.leaf 0x60#8) (.leaf 0x61#8))).items ∧
    [FormItem.internal, .leaf 0x61#8, .internal, .leaf 0x60#8].count FormItem.internal ≤ 255 ∧
    (itemSymbols [.internal, .leaf 0x61#8, .internal, .leaf 0x60#8]).Nodup ∧
    bitsOf 8 0b10110000 <+: (FormItem.leaf 0x61#8).bits ∧ bitsOf 8 0b10110000 ≠ (FormItem.leaf 0x61#8).bits := by
  decide

/-- The same source in DESERIALIZE: MALFORMED_TREE with ERR_EOS after 28 bits. -/
theorem test_deserialize_eos_in_symbol :
    statusWord (stateOf (exec .deserialize { idle with src := bitsOf 28 0b0101100001010110000010110000 })) false =
      0x00070312#32 := by decide +kernel

/-- Both outcomes: V-B3's form, and a source that ends inside it. -/
theorem witness_DeserializeOutcome :
    sameError idle (stateOf (exec .deserialize { idle with src := hAB.form })) ∧
    (stateOf (exec .deserialize { idle with src := hAB.form })).srcPos = hAB.form.length ∧
    (stateOf (exec .deserialize { idle with src := hAB.form.take 5 })).errCode = .malformedTree := by
  unfold sameError
  decide +kernel

/-- A repeat two levels down: 0 1a 0 1b 1a. -/
theorem witness_DeserializeDuplicateTraps :
    [FormItem.internal, .leaf 0x61#8, .internal, .leaf 0x62#8] ++ [.leaf 0x61#8] <+:
      (HTree.node (.leaf 0x61#8) (.node (.leaf 0x62#8) (.leaf 0x61#8))).items ∧
    [FormItem.internal, .leaf 0x61#8, .internal, .leaf 0x62#8].count FormItem.internal ≤ 255 ∧
    (itemSymbols [.internal, .leaf 0x61#8, .internal, .leaf 0x62#8]).Nodup ∧
    0x61#8 ∈ itemSymbols [.internal, .leaf 0x61#8, .internal, .leaf 0x62#8] := by decide

/-- A tree with a leaf before its 255 nested internal nodes. -/
def deepTree : HTree :=
  .node (.leaf 0#8) ((List.replicate 255 ()).foldr (fun _ t => .node t (.leaf 0#8)) (.leaf 0#8))

def deepItems : List FormItem := .internal :: .leaf 0#8 :: List.replicate 254 .internal

theorem witness_DeserializeTooManyInternalTraps :
    deepItems ++ [.internal] <+: deepTree.items ∧ deepItems.count FormItem.internal = 255 ∧
    (itemSymbols deepItems).Nodup := by decide +kernel

theorem witness_SoftResetResetsBlock : ∀ i, State.reset.pending ≠ some (.cmd i) := by
  intro i h
  exact absurd (Option.some.inj h) (by simp)

theorem witness_AbortLeavesPrefix :
    ∃ t u, ({ treeAB with pending := some (.cmd (.encode 0x42#8)) } : State).pending =
        some (.cmd (.encode 0x42#8)) ∧ Instr.encode 0x42#8 ≠ .softReset ∧
      exec (.encode 0x42#8) { treeAB with pending := some (.cmd (.encode 0x42#8)) } = .next u ∧
      u.sink = [true] ∧
      exec .softReset { treeAB with pending := some (.cmd (.encode 0x42#8)) } = .next t :=
  ⟨_, stateOf (exec (.encode 0x42#8) { treeAB with pending := some (.cmd (.encode 0x42#8)) }), rfl, by decide,
    next_of_isNext (by decide +kernel), by decide +kernel, rfl⟩

theorem witness_CommandAcceptance : Instr.build ≠ .softReset ∧ idle.pending = none ∧ idle.err = false := by decide

theorem witness_IllegalCommandTraps :
    decode 0x00000108#32 = .illegal .symNotZero ∧ idle.pending = none ∧ idle.err = false := by decide

theorem witness_DroppedCommandWrites :
    decode 0x00000108#32 ≠ .legal .softReset ∧ State.reset.pending ≠ none ∧ inError.pending = none ∧
    inError.err = true := by decide

theorem witness_FreqWrite :
    State.reset.pending ≠ none ∧ inError.pending = none ∧ inError.err = true ∧ idle.pending = none ∧
    idle.err = false ∧ (0xFF#8 : Symbol) ≠ 0x00#8 := by decide

/-- The edges of the FREQ window. -/
theorem witness_OtherWritesIgnored :
    (0x0FF#12 : PortAddr) ≠ 0x002#12 ∧ ¬ (0x100 ≤ (0x0FF#12 : PortAddr).toNat ∧ (0x0FF#12 : PortAddr).toNat < 0x200) ∧
    ¬ (0x100 ≤ (0x200#12 : PortAddr).toNat ∧ (0x200#12 : PortAddr).toNat < 0x200) := by decide

/-- The edges of each clause: node 510, and the first and last reserved addresses. -/
theorem witness_IdleReadsShowState :
    idle.pending = none ∧ (510#9 : NodeIdx).toNat < 511 ∧ 0x006 ≤ (0x006#12 : PortAddr).toNat ∧
    (0x0FF#12 : PortAddr).toNat < 0x100 ∧ 0x300 ≤ (0x300#12 : PortAddr).toNat ∧
    (0x3FF#12 : PortAddr).toNat < 0x400 ∧ 0xBFC ≤ (0xBFC#12 : PortAddr).toNat := by decide

theorem witness_StatusAndTreeLayout :
    idle.pending = none ∧ idle.root = none ∧ treeA.pending = none ∧ treeA.root = some 0#9 := by decide

theorem witness_WindowLayout : NodeRec.zero.valid = false ∧ (freshLeaf 0x61#8 5#40).valid = true := by decide

/-- Both kinds of pending command, and the edges of the open addresses. -/
theorem witness_BusyReads :
    State.reset.pending = some .init ∧ Pending.init ≠ .cmd .build ∧ Pending.init ≠ .cmd .deserialize ∧
    (withPending idle .build).pending = some (.cmd .build) ∧
    [0x004#12, 0x005#12, 0x100#12, 0x2FF#12, 0x400#12, 0xBFB#12].all isOpenWhileBusy = true ∧
    isOpenWhileBusy 0xBFC#12 = false := by decide

theorem witness_StepKeepsStatus : StatusInv treeAB ∧ step treeAB = .next treeAB := ⟨treeAB_Inv.status, rfl⟩

theorem witness_StepKeepsInvariant : Inv treeAB := treeAB_Inv

theorem witness_InvariantRunsAreSafe : Inv waiting := waiting_Inv

theorem witness_OnlyResetLeavesError :
    step { inError with overrun := true } = .next { inError with overrun := true } ∧
    ¬ resetNext { inError with overrun := true } ∧ StatusInv inError ∧ inError.err = true :=
  ⟨rfl, fun h => h, by constructor <;> decide, rfl⟩

theorem witness_ChannelMovesForward : step treeAB = .next treeAB := rfl

theorem witness_TreeChangesOnlyByItsCommands :
    ∃ t, step waiting = .next t ∧ ¬ resetNext waiting ∧ turn waiting ≠ .engine (.cmd .build) ∧
      turn waiting ≠ .engine (.cmd .deserialize) :=
  ⟨stateOf (step waiting), next_of_isNext (by decide +kernel), fun h => Bool.noConfusion h,
    fun h => Turn.noConfusion h, fun h => Turn.noConfusion h⟩

theorem witness_FreqChangesOnlyByItsWriters :
    ∃ t, step { idle with hostOps := [asmSetf 0x61#8 17#32] } = .next t ∧
      getFreq t 0x61#8 ≠ getFreq { idle with hostOps := [asmSetf 0x61#8 17#32] } 0x61#8 :=
  ⟨stateOf (step { idle with hostOps := [asmSetf 0x61#8 17#32] }), next_of_isNext (by decide +kernel),
    by decide +kernel⟩

theorem witness_CommandFrame :
    ∃ t, Instr.encode 0x42#8 ≠ .softReset ∧ exec (.encode 0x42#8) treeAB = .next t :=
  ⟨stateOf (exec (.encode 0x42#8) treeAB), by decide, next_of_isNext (by decide +kernel)⟩

theorem witness_DutifulHostNeverOverruns :
    ∃ t, StatusInv { State.reset with delay := 1, hostOps := HostOp.wait :: asmBang .build } ∧
      { State.reset with delay := 1, hostOps := HostOp.wait :: asmBang .build }.overrun = false ∧
      keepsDuties (waitFor State.reset.pending) (HostOp.wait :: asmBang .build) = true ∧
      step { State.reset with delay := 1, hostOps := HostOp.wait :: asmBang .build } = .next t :=
  ⟨stateOf (step { State.reset with delay := 1, hostOps := HostOp.wait :: asmBang .build }), by constructor <;> decide,
    by decide, by decide, next_of_isNext (by decide +kernel)⟩

/-- The form of V-B3's tree, its root's and its last leaf's place. -/
theorem witness_DeserializeAllocatesInTagOrder :
    hAB.leaves.Nodup ∧ ({ idle with src := hAB.form ++ [true] } : State).src.drop 0 = hAB.form ++ [true] ∧
    hAB.preorder[0]? = some hAB ∧ hAB.preorder[2]? = some (.leaf 0x42#8) := by decide

theorem witness_DutifulHostAfterReset :
    State.reset.pending = some .init ∧ State.reset.root = none ∧ State.reset.overrun = false ∧
    keepsDuties (waitFor State.reset.pending) [.read 0x003#12] = true := by decide

theorem witness_WaitEnds : Inv waiting ∧ waiting.hostOps = .wait :: [] := ⟨waiting_Inv, rfl⟩

end Sys2Proof.Tests
end

section
/-! ### The STATUS, TREE, LEAF_OF and NODE words, field by field (10_state.md R27, R29, R32, R34, R35) -/

namespace Sys2Proof.Machine

open Sys2Proof

theorem hostRead_status_of_idle {s : State} (h : s.pending = none) :
    (hostRead 0x003#12 s).1 =
      statusFields s.errOp s.errCode.number s.errEos s.root.isSome s.overrun s.err false := by
  simp [hostRead, h, idleRead, portReg, Config.cmdAddr, Config.statusAddr, statusWord, busy, treeValid]

theorem hostRead_tree_of_idle {s : State} (h : s.pending = none) : (hostRead 0x005#12 s).1 = treeWord s := by
  simp [hostRead, h, idleRead, portReg, Config.cmdAddr, Config.statusAddr, Config.resultAddr, Config.treeAddr]

/-- Settles O41: both words are concatenations. The fields of several bits are cut out of them first, then the single
bits. -/
theorem statusAndTreeLayout : Obligations.StatusAndTreeLayout := by
  intro s hp
  rw [hostRead_status_of_idle hp, hostRead_tree_of_idle hp]
  refine ⟨?_, fun h => by simp [treeWord, h], fun r h => ?_⟩
  · simp (disch := decide) only [statusFields, BitVec.extractLsb'_append_eq_of_le,
      BitVec.extractLsb'_append_eq_of_add_le]
    simp only [BitVec.getLsbD_append]
    simp
  · simp (disch := decide) only [treeWord, h, BitVec.extractLsb'_append_eq_of_le,
      BitVec.extractLsb'_append_eq_of_add_le]
    simp only [BitVec.getLsbD_append]
    simp

theorem nodeWindowWord_of_valid {n : NodeRec} (h : n.valid = true) (f : BitVec 2) :
    nodeWindowWord n f = nodeFieldWord n f := if_pos h

theorem nodeFieldWord_wlo (n : NodeRec) : nodeFieldWord n 0#2 = n.weight.extractLsb' 0 32 := rfl

theorem nodeFieldWord_info (n : NodeRec) :
    nodeFieldWord n 1#2 =
      (0#12 ++ BitVec.ofBool n.side ++ BitVec.ofBool n.hasParent ++ BitVec.ofBool n.valid ++ BitVec.ofBool n.leaf ++
        n.sym ++ n.weight.extractLsb' 32 8 : BitVec (12 + 1 + 1 + 1 + 1 + 8 + 8)) := rfl

theorem nodeFieldWord_child (n : NodeRec) :
    nodeFieldWord n 2#2 = (0#7 ++ n.child1 ++ 0#7 ++ n.child0 : BitVec (7 + 9 + 7 + 9)) := rfl

theorem nodeFieldWord_parent (n : NodeRec) : nodeFieldWord n 3#2 = (0#23 ++ n.parent : BitVec (23 + 9)) := rfl

/-- Settles O42: the fields are read off as those of STATUS; the weight is put together again from its two words. -/
theorem windowLayout : Obligations.WindowLayout := by
  refine ⟨rfl, fun i => ?_, fun n f h => by simp [nodeWindowWord, h], fun n h => ?_⟩
  · simp (disch := decide) only [leafWord, BitVec.extractLsb'_append_eq_of_le,
      BitVec.extractLsb'_append_eq_of_add_le]
    simp only [BitVec.getLsbD_append]
    simp
  · have hweight : n.weight.extractLsb' 32 8 ++ n.weight.extractLsb' 0 32 = n.weight := by
      rw [BitVec.extractLsb'_append_extractLsb'_eq_extractLsb' (by rfl)]
      exact BitVec.extractLsb'_eq_self
    simp (disch := decide) only [nodeWindowWord_of_valid h, nodeFieldWord_wlo, nodeFieldWord_info, nodeFieldWord_child,
      nodeFieldWord_parent, BitVec.extractLsb'_append_eq_of_le, BitVec.extractLsb'_append_eq_of_add_le]
    simp only [BitVec.getLsbD_append]
    simpa [h] using hweight

end Sys2Proof.Machine
end

section
/-! ### Resets and the fetch (10_state.md R22, R40, 70_reset_and_hazards.md R231, R232) -/

namespace Sys2Proof.Machine

open Sys2Proof

/-- Without a pending command there is nothing to abort (R242). -/
theorem abortPending_of_no_command {s : State} (h : ∀ i, s.pending ≠ some (.cmd i)) : abortPending s = s := by
  unfold abortPending
  split
  · exact absurd ‹_› (h _)
  · rfl
  · rfl

/-- Settles O33: ResetState touches neither the channel nor the host, and an abort changes the channel alone. -/
theorem softResetResetsBlock : Obligations.SoftResetResetsBlock := by
  intro s
  refine ⟨_, rfl, rfl, blockReset_resetState _, ?_⟩
  obtain ⟨sink, srcPos, draws, hframe⟩ := abortPending_frame s
  refine ⟨by simp [hframe], by simp [hframe], by simp [hframe], fun h => ?_⟩
  simp [abortPending_of_no_command h]

/-- The reset state is a block at its reset values (R40). -/
theorem noTree_reset : NoTree State.reset :=
  ⟨rfl, rfl, fun _ hn => by rw [Table.mem_const hn]; rfl, fun sym => leafAt_const sym⟩

theorem canonical_zero : NodeRec.zero.canonical = true := rfl

/-- Settles O45. -/
theorem resetMeetsInvariant : Obligations.ResetMeetsInvariant where
  status := by constructor <;> simp [State.reset]
  store n hn := by rw [Table.mem_const hn]; exact canonical_zero
  tree := .inl noTree_reset

/-- A command word in the table's reading is a legal 32-bit word. -/
theorem decode_of_decodeTableWord {nbits w : Nat} {i : Instr} (h : decodeTableWord nbits w = some i) :
    decode (BitVec.ofNat 32 (w % 2 ^ nbits)) = .legal i := by
  simp only [decodeTableWord] at h
  split at h
  · split at h
    · rw [‹decode _ = _›, Option.some.inj h]
    · contradiction
  · contradiction

/-- A command placed in PENDING is what the next step runs (R22). -/
theorem step_withPending (s : State) (i : Instr) : step (withPending s i) = exec i (withPending s i) := by
  rcases turn_pending (s := withPending s i) rfl with ⟨hturn, -⟩ | ⟨_, _, -, hdelay, -⟩
  · simp [step, hturn, engineStep]
  · exact absurd rfl hdelay

/-- A word placed as the host's next CMD write is what the next step writes. Nothing else of the machine can differ
from where it was placed but `delay`, and that only while nothing is pending. -/
theorem step_withCmdWrite (s : State) (w : Word) :
    (s.pending = none ∧ step (withCmdWrite s w) = acceptCommand w { s with delay := s.delay + 1 }) ∨
    (s.pending ≠ none ∧ step (withCmdWrite s w) = acceptCommand w s) := by
  rcases Option.eq_none_or_eq_some s.pending with hp | ⟨p, hp⟩
  · rcases turn_idle (s := withCmdWrite s w) hp with ⟨-, hnil⟩ | ⟨op, rest, hops, hturn⟩
    · simp at hnil
    · obtain ⟨rfl, rfl⟩ := List.cons.inj hops
      exact .inl ⟨hp, by rw [step, hturn]; rfl⟩
  · rcases turn_pending (s := withCmdWrite s w) hp with ⟨-, hnil | hzero⟩ | ⟨op, rest, hops, -, hturn⟩
    · simp at hnil
    · simp at hzero
    · obtain ⟨rfl, rfl⟩ := List.cons.inj hops
      exact .inr ⟨by simp [hp], by rw [step, hturn]; rfl⟩

/-- A SOFT_RESET placed as the host's next CMD write runs on the machine it was placed in (R180): the reset draws a
new `delay`. -/
theorem step_withCmdWrite_softReset {s : State} {w : Word} (h : decode w = .legal .softReset) :
    step (withCmdWrite s w) = exec .softReset s := by
  have haccept (u : State) : acceptCommand w u = execSoftReset u := if_pos h
  rcases step_withCmdWrite s w with ⟨hp, hstep⟩ | ⟨-, hstep⟩
  · have hcmd (i : Instr) : s.pending ≠ some (.cmd i) := by simp [hp]
    rw [hstep, haccept]
    simp only [exec, execSoftReset, abortPending_of_no_command hcmd,
      abortPending_of_no_command (s := { s with delay := s.delay + 1 }) hcmd]
    rfl
  · rw [hstep, haccept]
    rfl

/-- Settles O7: a legal command is fetched from PENDING, SOFT_RESET from the host's next CMD write. -/
theorem fetchedWordRuns : Obligations.FetchedWordRuns := by
  intro s nbits w i h
  have hdecode := decode_of_decodeTableWord h
  by_cases hi : i = .softReset
  · subst hi
    simp only [State.withFetchWord, h, if_true]
    exact step_withCmdWrite_softReset hdecode
  · have hfetch : s.withFetchWord nbits w = withPending s i := by
      unfold State.withFetchWord
      rw [h]
      cases i with
      | softReset => exact absurd rfl hi
      | _ => rfl
    rw [hfetch, if_neg hi]
    exact step_withPending s i

end Sys2Proof.Machine
end

section
/-! ### What reading a tree off the source changes (43_serialize.md R163) -/

namespace Sys2Proof.Machine

open Sys2Proof

/-- Where a part of DESERIALIZE ends, in success and in failure. -/
@[simp] def DesEnd.ctx {α : Type} : DesEnd α → DesCtx
  | .ok _ c => c
  | .fail _ c => c

/-- All that a part of DESERIALIZE changes on its way from `c` to `d`: the counters, the node store, LEAF_OF, and the
cursor, which moves by the bits counted and stays inside the source. -/
structure DesCtx.Consumes (c d : DesCtx) : Prop where
  bits_le : c.bits ≤ d.bits
  frame   : ∃ node leafOf, d.st =
    { c.st with node := node, leafOf := leafOf, srcPos := c.st.srcPos + (d.bits - c.bits) }
  inside  : c.st.srcPos ≤ c.st.src.length → d.st.srcPos ≤ d.st.src.length

theorem DesCtx.Consumes.refl (c : DesCtx) : c.Consumes c :=
  ⟨le_refl _, ⟨c.st.node, c.st.leafOf, by simp⟩, id⟩

theorem DesCtx.Consumes.trans {c d e : DesCtx} (h : c.Consumes d) (h' : d.Consumes e) : c.Consumes e := by
  obtain ⟨hle, ⟨_, _, hst⟩, hin⟩ := h
  obtain ⟨hle', ⟨node, leafOf, hst'⟩, hin'⟩ := h'
  refine ⟨hle.trans hle', ⟨node, leafOf, ?_⟩, fun h => hin' (hin h)⟩
  rw [hst', hst]
  simp only [State.mk.injEq, true_and, and_true]
  omega

theorem DesCtx.consumes_past {c : DesCtx} {k : Nat} (h : k ≤ c.left.length) : c.Consumes (c.past k) := by
  refine ⟨Nat.le_add_right _ _, ⟨c.st.node, c.st.leafOf, by simp [DesCtx.past]⟩, fun hin => ?_⟩
  simp only [DesCtx.left, List.length_drop] at h
  simp only [DesCtx.past]
  omega

/-- Allocating and linking nodes reads nothing. -/
theorem DesCtx.consumes_write (c : DesCtx) (n internals : Nat) (node : NodeStore) (leafOf : LeafMap) :
    c.Consumes { c with n := n, internals := internals, st := { c.st with node := node, leafOf := leafOf } } :=
  ⟨le_refl _, ⟨node, leafOf, by simp⟩, id⟩

theorem read1_consumes (c : DesCtx) : c.Consumes (read1 c).ctx := by
  rcases read1_cases c with ⟨-, h⟩ | ⟨b, rest, hleft, h, -⟩
  · rw [h]
    exact .refl c
  · rw [h]
    exact DesCtx.consumes_past (by simp [hleft])

theorem readSymbol_consumes (k : Nat) (sym : Symbol) (c : DesCtx) : c.Consumes (readSymbol k sym c).ctx := by
  induction k generalizing sym c with
  | zero => exact .refl c
  | succ k ih =>
    have hread := read1_consumes c
    unfold readSymbol
    cases h : read1 c with
    | fail eos d => simpa [h] using hread
    | ok b d =>
      rw [h] at hread
      exact hread.trans (ih _ d)

/-- A leaf's symbol is read and the leaf allocated, unless the source ends or the symbol is a repeat. -/
theorem des_leaf_consumes {fuel : Nat} {c d : DesCtx} (h : read1 c = .ok true d) :
    d.Consumes (des (fuel + 1) c).ctx := by
  have hsym := readSymbol_consumes 8 0#8 d
  simp only [des, h]
  cases h8 : readSymbol 8 0#8 d with
  | fail eos e => simpa [h8] using hsym
  | ok sym e =>
    rw [h8] at hsym
    dsimp only
    split
    · exact hsym
    · exact hsym.trans (e.consumes_write _ _ _ _)

/-- An internal node is allocated, its two subtrees read and the node closed, unless it is one too many or a subtree
fails. -/
theorem des_internal_consumes {fuel : Nat} {c d : DesCtx} (h : read1 c = .ok false d)
    (ih : ∀ c : DesCtx, c.Consumes (des fuel c).ctx) : d.Consumes (des (fuel + 1) c).ctx := by
  simp only [des, h]
  split
  · exact .refl d
  · have h0 := (d.consumes_write _ _ _ _).trans (ih (allocInternal d))
    cases e0 : des fuel (allocInternal d) with
    | fail eos e => simpa [e0] using h0
    | ok a ca =>
      rw [e0] at h0
      have h1 := h0.trans (ih ca)
      dsimp only
      cases e1 : des fuel ca with
      | fail eos e => simpa [e1] using h1
      | ok b cb =>
        rw [e1] at h1
        exact h1.trans (cb.consumes_write _ _ _ _)

theorem des_consumes (fuel : Nat) (c : DesCtx) : c.Consumes (des fuel c).ctx := by
  induction fuel generalizing c with
  | zero => exact .refl c
  | succ fuel ih =>
    have htag := read1_consumes c
    cases h : read1 c with
    | fail eos d => simpa [des, h] using htag
    | ok b d =>
      rw [h] at htag
      cases b with
      | true => exact htag.trans (des_leaf_consumes h)
      | false => exact htag.trans (des_internal_consumes h ih)

end Sys2Proof.Machine
end

section
/-! ### How a command ends (44_control.md R184, 60_exceptions.md R208) -/

namespace Sys2Proof.Machine

open Sys2Proof

/-- What the command `i` has changed when it comes to its end, on its way from `s` to `u`: the registers it writes
and the channel it uses (R28, R31, R36, R39). -/
structure Work (i : Instr) (s u : State) : Prop where
  host   : sameHost s u
  error  : sameError s u
  src    : u.src = s.src
  freq   : i ≠ .freqClear → ∀ sym, i ≠ .freqInc sym → getFreq u sym = getFreq s sym
  tree   : i ≠ .build → i ≠ .deserialize → sameTree s u
  sink   : i ≠ .serialize → (∀ sym, i ≠ .encode sym) → u.sink = s.sink
  srcPos : i ≠ .decode → i ≠ .deserialize → u.srcPos = s.srcPos
  inside : s.srcPos ≤ s.src.length → u.srcPos ≤ u.src.length

/-- A command of the engine comes to one of two ends: the normal one, or the error entry, with an error of its own and
ERR_EOS only for the two errors that have it (R184, R200, R208). -/
inductive Ends (i : Instr) (s : State) : State → Prop
  | done {u : State} (r : Word) : Work i s u → Ends i s (finish u r)
  | failed {u : State} {code : ErrCode} {eos : Bool} (r : Word) : Work i s u → code ≠ .none →
      (eos = true → code = .endOfStream ∨ code = .malformedTree) →
      i ≠ .freqClear → i ≠ .build → i ≠ .serialize → Ends i s (errorEntry u code eos r (encode i))

theorem Work.refl (i : Instr) (s : State) : Work i s s := by
  constructor <;> simp [sameHost, sameError, sameTree]

theorem work_freqClear (s : State) : Work .freqClear s { s with freq := Table.const 256 0#32 } := by
  constructor <;> simp [sameHost, sameError, sameTree]

theorem work_freqInc (s : State) (sym : Symbol) (v : Word) : Work (.freqInc sym) s (setFreq s sym v) := by
  have hfreq (other : Symbol) (h : Instr.freqInc sym ≠ .freqInc other) :
      getFreq (setFreq s sym v) other = getFreq s other :=
    getFreq_setFreq_ne s v fun e => h (by rw [e])
  refine ⟨?_, ?_, rfl, fun _ => hfreq, ?_, ?_, ?_, id⟩ <;> simp [sameHost, sameError, sameTree]

theorem work_build (s : State) (node : NodeStore) (leafOf : LeafMap) (root : Option NodeIdx) (count : BitVec 9) :
    Work .build s { s with node := node, leafOf := leafOf, root := root, leafCount := count } := by
  constructor <;> simp [sameHost, sameError, getFreq]

theorem work_encode (s : State) (sym : Symbol) (bits : List Bit) : Work (.encode sym) s (emitBits s bits) := by
  rw [emitBits_eq]
  constructor <;> simp [sameHost, sameError, sameTree, getFreq]

theorem work_serialize (s : State) (bits : List Bit) : Work .serialize s (emitBits s bits) := by
  rw [emitBits_eq]
  constructor <;> simp [sameHost, sameError, sameTree, getFreq]

theorem work_decode {s : State} {k : Nat} (h : s.srcPos ≤ s.src.length → s.srcPos + k ≤ s.src.length) :
    Work .decode s { s with srcPos := s.srcPos + k } := by
  refine ⟨?_, ?_, rfl, ?_, ?_, ?_, ?_, h⟩ <;> simp [sameHost, sameError, sameTree, getFreq]

theorem work_deserialize {s : State} {k : Nat} (node : NodeStore) (leafOf : LeafMap) (root : Option NodeIdx)
    (count : BitVec 9) (h : s.srcPos ≤ s.src.length → s.srcPos + k ≤ s.src.length) :
    Work .deserialize s
      { s with node := node, leafOf := leafOf, root := root, leafCount := count, srcPos := s.srcPos + k } := by
  refine ⟨?_, ?_, rfl, ?_, ?_, ?_, ?_, h⟩ <;> simp [sameHost, sameError, getFreq]

theorem execFreqInc_ends {sym : Symbol} {s t : State} (h : execFreqInc sym s = .next t) : Ends (.freqInc sym) s t := by
  unfold execFreqInc at h
  split at h <;> obtain rfl := Host.Outcome.next.inj h
  · exact .failed _ (.refl _ s) (by simp) (by simp) (by simp) (by simp) (by simp)
  · exact .done _ (work_freqInc s sym _)

theorem execBuild_ends {s t : State} (h : execBuild s = .next t) : Ends .build s t := by
  unfold execBuild at h
  split at h
  · contradiction
  · obtain rfl := Host.Outcome.next.inj h
    exact .done _ (work_build s _ _ _ _)

theorem execEncode_ends {sym : Symbol} {s t : State} (h : execEncode sym s = .next t) : Ends (.encode sym) s t := by
  unfold execEncode at h
  split at h
  · obtain rfl := Host.Outcome.next.inj h
    exact .failed _ (.refl _ s) (by simp) (by simp) (by simp) (by simp) (by simp)
  · split at h
    · contradiction
    · obtain rfl := Host.Outcome.next.inj h
      exact .done _ (work_encode s sym _)

theorem execSerialize_ends {s t : State} (h : execSerialize s = .next t) : Ends .serialize s t := by
  unfold execSerialize at h
  split at h
  · obtain rfl := Host.Outcome.next.inj h
    exact .done _ (.refl _ s)
  · split at h
    · contradiction
    · obtain rfl := Host.Outcome.next.inj h
      exact .done _ (work_serialize s _)

theorem execDecode_ends {s t : State} (h : execDecode s = .next t) : Ends .decode s t := by
  unfold execDecode at h
  split at h
  · obtain rfl := Host.Outcome.next.inj h
    exact .failed _ (.refl _ s) (by simp) (by simp) (by simp) (by simp) (by simp)
  · rename_i r _
    have hwalk := descend_frame Config.maxDepth r 0 s
    split at h
    · rename_i hd
      simp only [hd] at hwalk
      obtain ⟨-, rfl, hin⟩ := hwalk
      obtain rfl := Host.Outcome.next.inj h
      exact .done _ (work_decode hin)
    · rename_i hd
      simp only [hd] at hwalk
      obtain ⟨-, rfl, hin⟩ := hwalk
      obtain rfl := Host.Outcome.next.inj h
      exact .failed _ (work_decode hin) (by simp) (by simp) (by simp) (by simp) (by simp)
    · contradiction

theorem execDeserialize_ends {s t : State} (h : execDeserialize s = .next t) : Ends .deserialize s t := by
  have hread := des_consumes (Config.maxDepth + 1) { n := 0, internals := 0, bits := 0, st := clearTree s }
  unfold execDeserialize at h
  split at h
  · rename_i r c hd
    simp only [hd, DesEnd.ctx] at hread
    obtain ⟨-, ⟨node, leafOf, hst⟩, hin⟩ := hread
    obtain rfl := Host.Outcome.next.inj h
    rw [hst] at hin ⊢
    exact .done _ (work_deserialize node leafOf _ _ hin)
  · rename_i eos c hd
    simp only [hd, DesEnd.ctx] at hread
    obtain ⟨-, ⟨node, leafOf, hst⟩, hin⟩ := hread
    obtain rfl := Host.Outcome.next.inj h
    rw [hst] at hin ⊢
    exact .failed _ (work_deserialize _ _ _ _ hin) (by simp) (by simp) (by simp) (by simp) (by simp)

/-- Every command of the engine that gives a next state gives one of its two ends. -/
theorem exec_ends {i : Instr} {s t : State} (hi : i ≠ .softReset) (h : exec i s = .next t) : Ends i s t := by
  cases i with
  | freqClear =>
    obtain rfl := Host.Outcome.next.inj h
    exact .done _ (work_freqClear s)
  | freqInc sym => exact execFreqInc_ends h
  | build => exact execBuild_ends h
  | encode sym => exact execEncode_ends h
  | decode => exact execDecode_ends h
  | serialize => exact execSerialize_ends h
  | deserialize => exact execDeserialize_ends h
  | softReset => exact absurd rfl hi

/-- Settles O53: neither end of a command touches what its work has left alone, and the commands without an error
reach the normal end only. -/
theorem commandFrame : Obligations.CommandFrame := by
  intro s t i hi h
  cases exec_ends hi h with
  | done r w =>
    exact ⟨rfl, w.host, w.src, w.freq, w.tree, w.sink, w.srcPos, fun _ => w.error⟩
  | failed r w _ _ hclear hbuild hserialize =>
    refine ⟨rfl, w.host, w.src, w.freq, w.tree, w.sink, w.srcPos, ?_⟩
    rintro (rfl | rfl | rfl) <;> contradiction

end Sys2Proof.Machine
end

section
/-! ### What a host operation can do (44_control.md R180, R185, R186, 70_reset_and_hazards.md R230) -/

namespace Sys2Proof.Machine

open Sys2Proof

/-- All that the host's or the platform's operation `op` can lead to from `s`: a reset, a read logged or nothing at
all, a command or a count lost to OVERRUN, a command accepted, an illegal word trapped, or a count written. -/
inductive HostMove (op : HostOp) (s : State) : State → Prop
  | reset : isReset op = true → HostMove op s (resetState (abortPending s))
  | log (hostOps : List HostOp) (reads : List (PortAddr × Word)) (draws : Nat) :
      HostMove op s { s with hostOps := hostOps, reads := reads, draws := draws }
  | lost : s.pending ≠ none → HostMove op s { s with overrun := true }
  | accept {i : Instr} : s.err = false → i ≠ .softReset → HostMove op s (setPending s (.cmd i))
  | illegal (w : Word) : HostMove op s (errorEntry s .illegalCommand false 0#32 w)
  | writeFreq {a : PortAddr} {v : Word} {sym : Symbol} : op = .write a v → portReg a = .freq sym →
      HostMove op s (setFreq s sym v)

theorem HostMove.unchanged (op : HostOp) (s : State) : HostMove op s s := .log s.hostOps s.reads s.draws

theorem logRead_eq (a : PortAddr) (s : State) :
    ∃ reads draws, logRead a s = { s with reads := reads, draws := draws } := by
  unfold logRead
  rcases hostRead_frame a s with h | h
  · exact ⟨_, s.draws, by rw [h]⟩
  · exact ⟨_, s.draws + 1, by rw [h]; rfl⟩

theorem logRead_move (op : HostOp) (a : PortAddr) (s : State) : HostMove op s (logRead a s) := by
  obtain ⟨reads, draws, h⟩ := logRead_eq a s
  rw [h]
  exact .log s.hostOps reads draws

theorem pollWait_move (op : HostOp) (s : State) : HostMove op s (pollWait s) := by
  obtain ⟨reads, draws, h⟩ := logRead_eq Config.statusAddr s
  unfold pollWait
  rw [h]
  split
  · exact .log _ reads draws
  · exact .log s.hostOps reads draws

theorem writeFreq_move {a : PortAddr} {sym : Symbol} (v : Word) (s : State) (ha : portReg a = .freq sym) :
    HostMove (.write a v) s (writeFreq sym v s) := by
  unfold Machine.writeFreq
  split
  · rename_i hbusy
    exact .lost fun hp => by simp [busy, hp] at hbusy
  · split
    · exact .unchanged _ s
    · exact .writeFreq rfl ha

theorem acceptCommand_move {a : PortAddr} (w : Word) (s : State) (ha : portReg a = .cmd) :
    ∃ t, acceptCommand w s = .next t ∧ HostMove (.write a w) s t := by
  rcases acceptCommand_cases w s with ⟨hw, h⟩ | ⟨-, ⟨hp, h⟩ | ⟨-, -, h⟩ | ⟨-, he, i, -, hi, h⟩ | ⟨-, -, why, -, h⟩⟩
  · exact ⟨_, h, .reset (by simp [isReset, ha, hw])⟩
  · exact ⟨_, h, .lost hp⟩
  · exact ⟨_, h, .unchanged _ s⟩
  · exact ⟨_, h, .accept he hi⟩
  · exact ⟨_, h, .illegal w⟩

theorem hostWrite_move (a : PortAddr) (v : Word) (s : State) :
    ∃ t, hostWrite a v s = .next t ∧ HostMove (.write a v) s t := by
  unfold hostWrite
  split
  · exact acceptCommand_move v s ‹_›
  · exact ⟨_, rfl, writeFreq_move v s ‹_›⟩
  all_goals exact ⟨s, rfl, .unchanged _ s⟩

/-- Every host operation completes, with one of the moves. -/
theorem hostStep_move (op : HostOp) (s : State) : ∃ t, hostStep op s = .next t ∧ HostMove op s t := by
  cases op with
  | read a => exact ⟨_, rfl, logRead_move _ a s⟩
  | write a v => exact hostWrite_move a v s
  | wait => exact ⟨_, rfl, pollWait_move _ s⟩
  | hardReset => exact ⟨_, rfl, .reset rfl⟩

/-- No operation of the host touches the tree but a reset. -/
theorem HostMove.sameTree {op : HostOp} {s t : State} (h : HostMove op s t) (hr : isReset op ≠ true) :
    sameTree s t := by
  cases h with
  | reset hreset => exact absurd hreset hr
  | log | lost | accept | illegal | writeFreq => exact ⟨rfl, rfl, rfl, rfl⟩

/-- The FREQ window's addresses name their symbol (R23). -/
theorem eq_of_portReg_freq {a : PortAddr} {sym : Symbol} (h : portReg a = .freq sym) :
    a = 0x100#12 + sym.setWidth 12 := by
  simp only [portReg, ite_eq_iff, reduceCtorEq, PortReg.freq.injEq, and_false, false_or, or_false] at h
  obtain ⟨-, -, -, -, -, -, hlo, hhi, rfl⟩ := h
  simp only [Config.freqBase, Config.leafOfBase] at hlo hhi ⊢
  bv_omega

/-- No operation of the host touches a count but a reset and a write to that count's address (R31, R103). -/
theorem HostMove.getFreq {op : HostOp} {s t : State} {sym : Symbol} (h : HostMove op s t) (hr : isReset op ≠ true)
    (hne : getFreq t sym ≠ getFreq s sym) : ∃ v, op = .write (0x100#12 + sym.setWidth 12) v := by
  cases h with
  | reset hreset => exact absurd hreset hr
  | log | lost | accept | illegal => exact absurd rfl hne
  | @writeFreq a v other hop ha =>
    have heq : sym = other := by
      by_contra hother
      exact hne (getFreq_setFreq_ne s v hother)
    rw [heq, ← eq_of_portReg_freq ha]
    exact ⟨v, hop⟩

end Sys2Proof.Machine
end

section
/-! ### What a step changes: the tree, FREQ and the status (10_state.md R27, R31, R36, R37) -/

namespace Sys2Proof.Machine

open Sys2Proof

theorem isReset_ne_of_turn {s u : State} {op : HostOp} (hturn : turn s = .host op u) (h : ¬ resetNext s) :
    isReset op ≠ true := by
  intro hop
  apply h
  unfold resetNext
  rw [hturn]
  exact hop

theorem ne_softReset_of_turn {s : State} {i : Instr} (hturn : turn s = .engine (.cmd i)) (h : ¬ resetNext s) :
    i ≠ .softReset := by
  rintro rfl
  apply h
  unfold resetNext
  rw [hturn]

/-- A step by whose move it is, with what the move can do: nothing, a host operation, INIT's completion, or the pending
command. -/
theorem step_move {s t : State} (h : step s = .next t) :
    t = s ∨
    (∃ op rest delay, turn s = .host op { s with hostOps := rest, delay := delay } ∧
      HostMove op { s with hostOps := rest, delay := delay } t) ∨
    (turn s = .engine .init ∧ s.pending = some .init ∧ t = completeInit s) ∨
    (∃ i, turn s = .engine (.cmd i) ∧ s.pending = some (.cmd i) ∧ exec i s = .next t) := by
  rcases step_cases s with ⟨hstep, -, -⟩ | ⟨op, rest, delay, -, hturn, hstep⟩ | ⟨p, hp, hturn, hstep⟩
  · exact .inl (Host.Outcome.next.inj (h.symm.trans hstep))
  · obtain ⟨u, hu, hmove⟩ := hostStep_move op { s with hostOps := rest, delay := delay }
    obtain rfl := Host.Outcome.next.inj (h.symm.trans (hstep.trans hu))
    exact .inr (.inl ⟨op, rest, delay, hturn, hmove⟩)
  · rw [h] at hstep
    cases p with
    | init => exact .inr (.inr (.inl ⟨hturn, hp, Host.Outcome.next.inj hstep⟩))
    | cmd i => exact .inr (.inr (.inr ⟨i, hturn, hp, hstep.symm⟩))

/-- Settles O51: the host's moves leave the tree, and so do the commands by their frame. -/
theorem treeChangesOnlyByItsCommands : Obligations.TreeChangesOnlyByItsCommands := by
  intro s t h hreset hbuild hdeserialize
  rcases step_move h with rfl | ⟨op, rest, delay, hturn, hmove⟩ | ⟨-, -, rfl⟩ | ⟨i, hturn, -, hexec⟩
  · exact ⟨rfl, rfl, rfl, rfl⟩
  · exact hmove.sameTree (isReset_ne_of_turn hturn hreset)
  · exact ⟨rfl, rfl, rfl, rfl⟩
  · obtain ⟨-, -, -, -, htree, -⟩ := commandFrame s t i (ne_softReset_of_turn hturn hreset) hexec
    exact htree (fun hi => hbuild (hi ▸ hturn)) (fun hi => hdeserialize (hi ▸ hturn))

/-- Settles O52: a count that has changed was written by the one move, or the one command, that can write it. -/
theorem freqChangesOnlyByItsWriters : Obligations.FreqChangesOnlyByItsWriters := by
  intro s t sym h hne
  by_cases hreset : resetNext s
  · exact .inl hreset
  rcases step_move h with rfl | ⟨op, rest, delay, hturn, hmove⟩ | ⟨-, -, rfl⟩ | ⟨i, hturn, -, hexec⟩
  · exact absurd rfl hne
  · obtain ⟨v, rfl⟩ := hmove.getFreq (isReset_ne_of_turn hturn hreset) hne
    exact .inr (.inr (.inr ⟨v, _, hturn⟩))
  · exact absurd rfl hne
  · obtain ⟨-, -, -, hfreq, -⟩ := commandFrame s t i (ne_softReset_of_turn hturn hreset) hexec
    by_cases hclear : i = .freqClear
    · exact .inr (.inl (hclear ▸ hturn))
    · by_cases hinc : i = .freqInc sym
      · exact .inr (.inr (.inl (hinc ▸ hturn)))
      · exact absurd (hfreq hclear sym hinc) hne

theorem completionOutcome_eq_exec {i : Instr} (hi : i ≠ .softReset) (s : State) :
    completionOutcome i s = exec i s := by
  cases i with
  | softReset => exact absurd rfl hi
  | _ => rfl

/-- An abort leaves the source cursor inside the source: it goes no further than the command's own end would (R242). -/
theorem abortPending_inside {s : State} (h : s.srcPos ≤ s.src.length) :
    (abortPending s).srcPos ≤ (abortPending s).src.length := by
  unfold abortPending
  split
  · rename_i i _
    have hend (t : State) (ht : completionOutcome i s = .next t) : t.srcPos ≤ s.src.length := by
      by_cases hi : i = .softReset
      · subst hi
        obtain rfl := Host.Outcome.next.inj ht
        exact h
      · rw [completionOutcome_eq_exec hi] at ht
        cases exec_ends hi ht with
        | done r w => exact w.src ▸ w.inside h
        | failed r w => exact w.src ▸ w.inside h
    cases hc : completionOutcome i s with
    | next t =>
      have := hend t hc
      simp only [abortedTransfers, partialTransfers_srcPos, partialTransfers_src]
      omega
    | fault _ => exact h
    | refused _ => exact h
  · exact h
  · exact h

theorem statusInv_resetState {s : State} (h : s.srcPos ≤ s.src.length) : StatusInv (resetState s) where
  idle_in_error he := by simp at he
  never_reset := by simp
  code_iff_err := by simp
  quiet_no_error _ := ⟨rfl, rfl⟩
  eos_code he := by simp at he
  cursor_inside := h

/-- The status fields of both machines are the same. -/
theorem StatusInv.congr {s t : State} (h : StatusInv s) (hp : t.pending = s.pending) (he : sameError s t)
    (hc : t.srcPos ≤ t.src.length) : StatusInv t := by
  obtain ⟨h1, h2, h3, h4⟩ := he
  refine ⟨?_, ?_, ?_, ?_, ?_, hc⟩
  · rw [h1, hp]; exact h.idle_in_error
  · rw [hp]; exact h.never_reset
  · rw [h1, h2]; exact h.code_iff_err
  · rw [h1, h3, h4]; exact h.quiet_no_error
  · rw [h2, h3]; exact h.eos_code

theorem StatusInv.unpend {s : State} (h : StatusInv s) : StatusInv { s with pending := none } :=
  ⟨fun _ => rfl, by simp, h.code_iff_err, h.quiet_no_error, h.eos_code, h.cursor_inside⟩

/-- The error entry gives a proper error state whatever the error fields were (R208). -/
theorem statusInv_errorEntry {s : State} {code : ErrCode} {eos : Bool} (r w : Word) (hcode : code ≠ .none)
    (heos : eos = true → code = .endOfStream ∨ code = .malformedTree) (h : s.srcPos ≤ s.src.length) :
    StatusInv (errorEntry s code eos r w) where
  idle_in_error _ := rfl
  never_reset := by simp
  code_iff_err := by simp [hcode]
  quiet_no_error he := by simp at he
  eos_code := heos
  cursor_inside := h

theorem HostMove.statusInv {op : HostOp} {s t : State} (h : HostMove op s t) (hs : StatusInv s) : StatusInv t := by
  cases h with
  | reset => exact statusInv_resetState (abortPending_inside hs.cursor_inside)
  | log | lost | writeFreq => exact hs.congr rfl ⟨rfl, rfl, rfl, rfl⟩ hs.cursor_inside
  | accept herr hi =>
    exact ⟨by simp [herr], by simpa using hi, hs.code_iff_err, hs.quiet_no_error, hs.eos_code, hs.cursor_inside⟩
  | illegal w => exact statusInv_errorEntry _ _ (by simp) (by simp) hs.cursor_inside

theorem Ends.statusInv {i : Instr} {s t : State} (h : Ends i s t) (hs : StatusInv s) : StatusInv t := by
  cases h with
  | done r w => exact hs.unpend.congr rfl w.error (w.inside hs.cursor_inside)
  | failed r w hcode heos => exact statusInv_errorEntry _ _ hcode heos (w.inside hs.cursor_inside)

/-- Settles O46: every move keeps the status, each end of a command included. -/
theorem stepKeepsStatus : Obligations.StepKeepsStatus := by
  intro s t hs h
  rcases step_move h with rfl | ⟨op, rest, delay, -, hmove⟩ | ⟨-, -, rfl⟩ | ⟨i, -, hp, hexec⟩
  · exact hs
  · exact hmove.statusInv (hs.congr rfl ⟨rfl, rfl, rfl, rfl⟩ hs.cursor_inside)
  · exact hs.unpend
  · have hi : i ≠ .softReset := by
      rintro rfl
      exact hs.never_reset hp
    exact (exec_ends hi hexec).statusInv hs

end Sys2Proof.Machine
end

section
/-! ### Node stores as they are allocated: the first `n` nodes valid, every record canonical (10_state.md R33) -/

namespace Sys2Proof.Machine

open Sys2Proof

/-- The nodes 0 to n-1 are the valid ones, and every record is canonical (R33, R125, R164). -/
structure Allocated (ns : NodeStore) (n : Nat) : Prop where
  valid_iff : ∀ i : NodeIdx, (nodeAt ns i).valid = true ↔ i.toNat < n
  canonical : ∀ i : NodeIdx, (nodeAt ns i).canonical = true

theorem lt_of_valid {ns : NodeStore} {i : NodeIdx} (h : (nodeAt ns i).valid = true) : i.toNat < 511 := by
  by_contra hi
  simp [nodeAt, nodeAt?, hi, NodeRec.zero] at h

theorem NodeRec.eq_zero_of_canonical {r : NodeRec} (hc : r.canonical = true) (hv : r.valid ≠ true) :
    r = NodeRec.zero := by
  simp only [NodeRec.canonical, Bool.and_eq_true, Bool.or_eq_true, beq_iff_eq] at hc
  exact hc.1.1.resolve_left hv

theorem NodeRec.valid_of_hasParent {r : NodeRec} (hc : r.canonical = true) (hp : r.hasParent = true) :
    r.valid = true := by
  by_contra hv
  rw [NodeRec.eq_zero_of_canonical hc hv] at hp
  exact absurd hp (by decide)

/-- A parent link on a valid record is one more field that may be other than 0 (R33). -/
theorem NodeRec.canonical_link {r : NodeRec} (hc : r.canonical = true) (hv : r.valid = true) (p : NodeIdx)
    (side : Bit) :
    ({ r with hasParent := true, parent := p, side := side } : NodeRec).canonical = true := by
  simp only [NodeRec.canonical, hv, Bool.true_or, Bool.true_and, Bool.and_true, Bool.and_eq_true] at hc ⊢
  exact hc.1

theorem nodeAt_ofNat (ns : NodeStore) (i : Fin 511) : nodeAt ns (BitVec.ofNat 9 i.val) = ns.get i := by
  have hi : (BitVec.ofNat 9 i.val).toNat = i.val := by
    rw [BitVec.toNat_ofNat]
    omega
  simp [nodeAt, nodeAt?, hi]

theorem toNat_ofNat_of_lt {n : Nat} (h : n < 511) : (BitVec.ofNat 9 n).toNat = n := by
  rw [BitVec.toNat_ofNat]
  omega

theorem ne_ofNat_of_lt {n : Nat} {i : NodeIdx} (hn : n < 511) (hi : i.toNat < n) : i ≠ BitVec.ofNat 9 n := by
  rintro rfl
  rw [toNat_ofNat_of_lt hn] at hi
  omega

theorem allocated_const : Allocated (Table.const 511 NodeRec.zero) 0 where
  valid_iff i := by rw [nodeAt_const_zero]; simp [NodeRec.zero]
  canonical i := by rw [nodeAt_const_zero]; exact canonical_zero

namespace Allocated

variable {ns : NodeStore} {n : Nat}

/-- There is no node 511. -/
theorem le_nodeCap (h : Allocated ns n) : n ≤ 511 := by
  by_contra hn
  have := lt_of_valid ((h.valid_iff 511#9).mpr (by simp; omega))
  simp at this

theorem eq_zero (h : Allocated ns n) {i : NodeIdx} (hi : n ≤ i.toNat) : nodeAt ns i = NodeRec.zero :=
  NodeRec.eq_zero_of_canonical (h.canonical i) (mt (h.valid_iff i).mp (by omega))

theorem setNode_fresh (h : Allocated ns n) (hn : n < 511) {r : NodeRec} (hv : r.valid = true)
    (hc : r.canonical = true) : Allocated (setNode ns (BitVec.ofNat 9 n) r) (n + 1) := by
  have hi := toNat_ofNat_of_lt hn
  have hsplit (j : NodeIdx) : (j = BitVec.ofNat 9 n ∧ nodeAt (setNode ns (BitVec.ofNat 9 n) r) j = r) ∨
      (j.toNat ≠ n ∧ nodeAt (setNode ns (BitVec.ofNat 9 n) r) j = nodeAt ns j) := by
    by_cases hj : j = BitVec.ofNat 9 n
    · exact .inl ⟨hj, by rw [hj, nodeAt_setNode_same _ _ (by omega)]⟩
    · exact .inr ⟨fun e => hj (BitVec.eq_of_toNat_eq (by omega)), nodeAt_setNode_ne _ _ hj⟩
  constructor
  · intro j
    rcases hsplit j with ⟨rfl, hj⟩ | ⟨hne, hj⟩ <;> rw [hj]
    · simp only [hv, true_iff]
      omega
    · rw [h.valid_iff]
      omega
  · intro j
    rcases hsplit j with ⟨-, hj⟩ | ⟨-, hj⟩ <;> rw [hj]
    · exact hc
    · exact h.canonical j

theorem setNode_old (h : Allocated ns n) {i : NodeIdx} (hi : i.toNat < n) {r : NodeRec} (hv : r.valid = true)
    (hc : r.canonical = true) : Allocated (setNode ns i r) n := by
  have hsame : nodeAt (setNode ns i r) i = r := nodeAt_setNode_same _ _ (by have := h.le_nodeCap; omega)
  constructor
  · intro j
    by_cases hj : j = i
    · rw [hj, hsame]
      simp [hv, hi]
    · rw [nodeAt_setNode_ne _ _ hj, h.valid_iff]
  · intro j
    by_cases hj : j = i
    · rw [hj, hsame]
      exact hc
    · rw [nodeAt_setNode_ne _ _ hj]
      exact h.canonical j

theorem linkParent (h : Allocated ns n) {i : NodeIdx} (hi : i.toNat < n) (p : NodeIdx) (side : Bit) :
    Allocated (linkParent ns i p side) n :=
  h.setNode_old hi ((h.valid_iff i).mpr hi) (NodeRec.canonical_link (h.canonical i) ((h.valid_iff i).mpr hi) p side)

theorem canonical_of_mem (h : Allocated ns n) {r : NodeRec} (hr : r ∈ ns.cells) : r.canonical = true := by
  obtain ⟨i, rfl⟩ := Table.exists_get_of_mem hr
  rw [← nodeAt_ofNat]
  exact h.canonical _

/-- The store has `n` valid nodes. -/
theorem countP_valid (h : Allocated ns n) : ns.cells.countP (fun r => r.valid) = n := by
  have hn := h.le_nodeCap
  have hlen := ns.length_cells
  have hget (i : Nat) (hi : i < 511) : (ns.cells[i].valid = true ↔ i < n) := by
    have := h.valid_iff (BitVec.ofNat 9 i)
    rwa [nodeAt_ofNat ns ⟨i, hi⟩, toNat_ofNat_of_lt hi] at this
  have htake : (ns.cells.take n).countP (fun r => r.valid) = n := by
    rw [List.countP_eq_length.mpr, List.length_take, hlen, Nat.min_eq_left hn]
    intro r hr
    obtain ⟨i, hi, rfl⟩ := List.getElem_of_mem hr
    rw [List.length_take] at hi
    rw [List.getElem_take]
    exact (hget i (by omega)).mpr (by omega)
  have hdrop : (ns.cells.drop n).countP (fun r => r.valid) = 0 := by
    rw [List.countP_eq_zero]
    intro r hr
    obtain ⟨i, hi, rfl⟩ := List.getElem_of_mem hr
    rw [List.length_drop] at hi
    rw [List.getElem_drop]
    exact mt (hget (n + i) (by omega)).mp (by omega)
  rw [← List.take_append_drop n ns.cells, List.countP_append, htake, hdrop, Nat.add_zero]

end Allocated

end Sys2Proof.Machine
end

section
/-! ### Trees planted in a node store, and stores that grow (10_state.md R33, R36) -/

namespace Sys2Proof

theorem HTree.rep_mem_leaves (t : HTree) : t.rep ∈ t.leaves := by
  induction t with
  | leaf sym => simp [rep, leaves]
  | node t0 t1 ih0 _ => simp [rep, leaves, ih0]

theorem HTree.one_le_length_leaves (t : HTree) : 1 ≤ t.leaves.length :=
  List.length_pos_of_ne_nil t.leaves_ne_nil

theorem HTree.map_fst_codes (t : HTree) : t.codes.map Prod.fst = t.leaves := by
  induction t with
  | leaf sym => rfl
  | node t0 t1 ih0 ih1 => simp [codes, leaves, ← ih0, ← ih1, Function.comp_def]

/-- A tree of k leaves is at most k-1 deep. -/
theorem HTree.length_code_lt {t : HTree} {sym : Symbol} {code : List Bit} (h : (sym, code) ∈ t.codes) :
    code.length < t.leaves.length := by
  induction t generalizing code with
  | leaf a => simp_all [codes, leaves]
  | node t0 t1 ih0 ih1 =>
    have h0 := t0.one_le_length_leaves
    have h1 := t1.one_le_length_leaves
    simp only [codes, List.mem_append, List.mem_map, Prod.mk.injEq, Prod.exists] at h
    rw [leaves, List.length_append]
    rcases h with ⟨a, path, hp, rfl, rfl⟩ | ⟨a, path, hp, rfl, rfl⟩
    · have := ih0 hp
      simp only [List.length_cons]
      omega
    · have := ih1 hp
      simp only [List.length_cons]
      omega

/-- There are 256 symbols (R7). -/
theorem length_le_of_nodup_symbols {syms : List Symbol} (h : syms.Nodup) : syms.length ≤ 256 := by
  have := (h.subperm fun sym _ => Machine.mem_allSymbols sym).length_le
  simpa [Machine.allSymbols] using this

namespace Machine

/-- What a finished node of a tree keeps when other nodes are written: all but its parent link. -/
def NodeRec.content (r : NodeRec) : Bool × Bool × Symbol × Weight × NodeIdx × NodeIdx :=
  (r.valid, r.leaf, r.sym, r.weight, r.child0, r.child1)

theorem NodeRec.children_of_content {r : NodeRec} {v l : Bool} {sym : Symbol} {w : Weight} {a b : NodeIdx}
    (h : r.content = (v, l, sym, w, a, b)) : r.child0 = a ∧ r.child1 = b := by
  simp only [NodeRec.content, Prod.mk.injEq] at h
  obtain ⟨-, -, -, -, ha, hb⟩ := h
  exact ⟨ha, hb⟩

/-- The parent link of a node. -/
def NodeRec.link (r : NodeRec) : Bool × NodeIdx × Bit := (r.hasParent, r.parent, r.side)

/-- The record is that of a finished node: a leaf, or an internal node with two children. The internal nodes of
DESERIALIZE are not finished before their children are known (R163). -/
def NodeRec.closed (r : NodeRec) : Bool := r.valid && (r.leaf || r.child0 != r.child1)

/-- LEAF_OF has the node of every leaf of the tree at `c` (R36 (e)). -/
def Mapped (ns : NodeStore) (m : LeafMap) : HTree → NodeIdx → Prop
  | .leaf sym, c => leafAt m sym = some c
  | .node t0 t1, c => Mapped ns m t0 (nodeAt ns c).child0 ∧ Mapped ns m t1 (nodeAt ns c).child1

/-- The node store and LEAF_OF hold the tree at `c`. -/
structure Planted (ns : NodeStore) (m : LeafMap) (t : HTree) (c : NodeIdx) : Prop where
  held   : holds ns t c = true
  mapped : Mapped ns m t c

/-- A node store and a LEAF_OF grow into others: finished nodes keep their content, parent links and LEAF_OF entries
are for good. So it is while BUILD and DESERIALIZE run (R120, R163). -/
structure Grows (ns : NodeStore) (m : LeafMap) (ns' : NodeStore) (m' : LeafMap) : Prop where
  content : ∀ i, (nodeAt ns i).closed = true → (nodeAt ns' i).content = (nodeAt ns i).content
  link    : ∀ i, (nodeAt ns i).hasParent = true → (nodeAt ns' i).link = (nodeAt ns i).link
  entry   : ∀ sym i, leafAt m sym = some i → leafAt m' sym = some i

section
variable {ns ns' : NodeStore} {m m' : LeafMap}

theorem holds_leaf_iff {sym : Symbol} {c : NodeIdx} :
    holds ns (.leaf sym) c = true ↔
      ∃ w, (nodeAt ns c).content = (true, true, sym, w, 0#9, 0#9) := by
  unfold holds nodeAt
  cases nodeAt? ns c with
  | none => simp [NodeRec.content, NodeRec.zero]
  | some r => simp [NodeRec.content, and_assoc]

theorem holds_node_iff {t0 t1 : HTree} {c : NodeIdx} :
    holds ns (.node t0 t1) c = true ↔
      ∃ w a b, (nodeAt ns c).content = (true, false, t0.rep, w, a, b) ∧ a ≠ b ∧
        (nodeAt ns a).link = (true, c, false) ∧ (nodeAt ns b).link = (true, c, true) ∧
        holds ns t0 a = true ∧ holds ns t1 b = true := by
  rw [holds]
  cases h : nodeAt? ns c with
  | none => simp [NodeRec.content, NodeRec.zero, nodeAt, h]
  | some r =>
    have hr : nodeAt ns c = r := by simp [nodeAt, h]
    simp [hr, NodeRec.content, NodeRec.link, and_assoc]

theorem holds_valid {t : HTree} {c : NodeIdx} (h : holds ns t c = true) :
    (nodeAt ns c).closed = true ∧ (nodeAt ns c).valid = true ∧ (nodeAt ns c).sym = t.rep := by
  cases t with
  | leaf sym =>
    obtain ⟨w, hc⟩ := holds_leaf_iff.mp h
    simp_all [NodeRec.content, NodeRec.closed, HTree.rep]
  | node t0 t1 =>
    obtain ⟨w, a, b, hc, hab, -⟩ := holds_node_iff.mp h
    simp_all [NodeRec.content, NodeRec.closed, HTree.rep]

theorem Planted.closed {t : HTree} {c : NodeIdx} (h : Planted ns m t c) : (nodeAt ns c).closed = true :=
  (holds_valid h.held).1

theorem Planted.valid {t : HTree} {c : NodeIdx} (h : Planted ns m t c) : (nodeAt ns c).valid = true :=
  (holds_valid h.held).2.1

theorem Planted.sym_eq {t : HTree} {c : NodeIdx} (h : Planted ns m t c) : (nodeAt ns c).sym = t.rep :=
  (holds_valid h.held).2.2

theorem planted_leaf_iff {sym : Symbol} {c : NodeIdx} :
    Planted ns m (.leaf sym) c ↔
      (∃ w, (nodeAt ns c).content = (true, true, sym, w, 0#9, 0#9)) ∧ leafAt m sym = some c :=
  ⟨fun h => ⟨holds_leaf_iff.mp h.held, h.mapped⟩, fun h => ⟨holds_leaf_iff.mpr h.1, h.2⟩⟩

theorem planted_node_iff {t0 t1 : HTree} {c : NodeIdx} :
    Planted ns m (.node t0 t1) c ↔
      ∃ w a b, (nodeAt ns c).content = (true, false, t0.rep, w, a, b) ∧ a ≠ b ∧
        (nodeAt ns a).link = (true, c, false) ∧ (nodeAt ns b).link = (true, c, true) ∧
        Planted ns m t0 a ∧ Planted ns m t1 b := by
  constructor
  · rintro ⟨hheld, hm0, hm1⟩
    obtain ⟨w, a, b, hc, hab, hla, hlb, h0, h1⟩ := holds_node_iff.mp hheld
    obtain ⟨rfl, rfl⟩ := NodeRec.children_of_content hc
    exact ⟨w, _, _, hc, hab, hla, hlb, ⟨h0, hm0⟩, ⟨h1, hm1⟩⟩
  · rintro ⟨w, a, b, hc, hab, hla, hlb, h0, h1⟩
    refine ⟨holds_node_iff.mpr ⟨w, a, b, hc, hab, hla, hlb, h0.held, h1.held⟩, ?_⟩
    obtain ⟨rfl, rfl⟩ := NodeRec.children_of_content hc
    exact ⟨h0.mapped, h1.mapped⟩

/-- The node that LEAF_OF has for a symbol is the one its code leads to (R36 (e), R142). -/
theorem Mapped.leafAt_eq {t : HTree} {c : NodeIdx} (h : Mapped ns m t c) {sym : Symbol} {code : List Bit}
    (hp : (sym, code) ∈ t.codes) : leafAt m sym = some (follow ns c code) := by
  induction t generalizing c code with
  | leaf a =>
    obtain ⟨rfl, rfl⟩ : sym = a ∧ code = [] := by simpa [HTree.codes] using hp
    exact h
  | node t0 t1 ih0 ih1 =>
    simp only [HTree.codes, List.mem_append, List.mem_map, Prod.mk.injEq, Prod.exists] at hp
    rcases hp with ⟨a, path, hp, rfl, rfl⟩ | ⟨a, path, hp, rfl, rfl⟩
    · exact ih0 h.1 hp
    · exact ih1 h.2 hp

/-- A planted tree stays planted while the store grows. -/
theorem Planted.grow {t : HTree} {c : NodeIdx} (h : Planted ns m t c) (hg : Grows ns m ns' m') :
    Planted ns' m' t c := by
  induction t generalizing c with
  | leaf sym =>
    obtain ⟨⟨w, hc⟩, hm⟩ := planted_leaf_iff.mp h
    exact planted_leaf_iff.mpr ⟨⟨w, by rw [hg.content c h.closed, hc]⟩, hg.entry _ _ hm⟩
  | node t0 t1 ih0 ih1 =>
    obtain ⟨w, a, b, hc, hab, hla, hlb, h0, h1⟩ := planted_node_iff.mp h
    have hpa : (nodeAt ns a).hasParent = true := congrArg Prod.fst hla
    have hpb : (nodeAt ns b).hasParent = true := congrArg Prod.fst hlb
    exact planted_node_iff.mpr ⟨w, a, b, by rw [hg.content c h.closed, hc], hab, by rw [hg.link a hpa, hla],
      by rw [hg.link b hpb, hlb], ih0 h0, ih1 h1⟩

/-- A store grows when no allocated node is written. -/
theorem Allocated.grows {n : Nat} (h : Allocated ns n)
    (hn : ∀ i : NodeIdx, i.toNat < n → nodeAt ns' i = nodeAt ns i)
    (hm : ∀ sym i, leafAt m sym = some i → leafAt m' sym = some i) : Grows ns m ns' m' where
  content i hi := by
    have hv : (nodeAt ns i).valid = true := by
      simp only [NodeRec.closed, Bool.and_eq_true] at hi
      exact hi.1
    rw [hn i ((h.valid_iff i).mp hv)]
  link i hi := by rw [hn i ((h.valid_iff i).mp (NodeRec.valid_of_hasParent (h.canonical i) hi))]
  entry := hm

/-- An entry of LEAF_OF that was invalid is written. -/
theorem leafAt_setLeaf_of_some {sym other : Symbol} {i j : NodeIdx} (hfree : leafAt m sym = none)
    (h : leafAt m other = some j) : leafAt (setLeaf m sym i) other = some j := by
  rw [leafAt_setLeaf_ne, h]
  rintro rfl
  simp [hfree] at h

/-- Writing a leaf at the next index plants it, with no parent yet (R120, R163). -/
theorem planted_freshLeaf {n : Nat} (hn : n < 511) (sym : Symbol) (w : Weight) :
    Planted (setNode ns (BitVec.ofNat 9 n) (freshLeaf sym w)) (setLeaf m sym (BitVec.ofNat 9 n)) (.leaf sym)
        (BitVec.ofNat 9 n) ∧
      (nodeAt (setNode ns (BitVec.ofNat 9 n) (freshLeaf sym w)) (BitVec.ofNat 9 n)).hasParent = false := by
  have hnode : nodeAt (setNode ns (BitVec.ofNat 9 n) (freshLeaf sym w)) (BitVec.ofNat 9 n) = freshLeaf sym w :=
    nodeAt_setNode_same _ _ (by rw [toNat_ofNat_of_lt hn]; exact hn)
  refine ⟨planted_leaf_iff.mpr ⟨⟨w, by rw [hnode]; rfl⟩, leafAt_setLeaf_same _ _ _⟩, by rw [hnode]; rfl⟩

end

/-! ### An internal node put over two subtrees (R124, R163) -/

/-- The node store with the record `r` at `p`, linked to as their parent by its children `a` and `b`: what Merge does
for BUILD, and what the end of an internal node does for DESERIALIZE (R124, R163). -/
def joinNodes (ns : NodeStore) (p a b : NodeIdx) (r : NodeRec) : NodeStore :=
  linkParent (linkParent (setNode ns p r) a p false) b p true

theorem mergeNodes_eq (ns : NodeStore) (a b p : NodeIdx) :
    mergeNodes ns a b p = joinNodes ns p a b (mergedNode ns a b) := rfl

/-- `p` can become the parent of `a` and `b`: three nodes of the store, of which `p` is not finished and none has a
parent. -/
structure Joinable (ns : NodeStore) (p a b : NodeIdx) : Prop where
  parent_lt : p.toNat < 511
  open_p    : (nodeAt ns p).closed = false
  closed_a  : (nodeAt ns a).closed = true
  closed_b  : (nodeAt ns b).closed = true
  top_p     : (nodeAt ns p).hasParent = false
  top_a     : (nodeAt ns a).hasParent = false
  top_b     : (nodeAt ns b).hasParent = false
  ne        : a ≠ b

section
variable {ns : NodeStore} {p a b : NodeIdx} (r : NodeRec)

theorem nodeAt_joinNodes_ne {i : NodeIdx} (hp : i ≠ p) (ha : i ≠ a) (hb : i ≠ b) :
    nodeAt (joinNodes ns p a b r) i = nodeAt ns i := by
  rw [joinNodes, nodeAt_linkParent_ne _ _ _ hb, nodeAt_linkParent_ne _ _ _ ha, nodeAt_setNode_ne _ _ hp]

variable (h : Joinable ns p a b)
include h

theorem Joinable.ne_left : p ≠ a := by
  rintro rfl
  exact absurd h.open_p (by simp [h.closed_a])

theorem Joinable.ne_right : p ≠ b := by
  rintro rfl
  exact absurd h.open_p (by simp [h.closed_b])

theorem Joinable.left_lt : a.toNat < 511 := by
  have hc := h.closed_a
  simp only [NodeRec.closed, Bool.and_eq_true] at hc
  exact lt_of_valid hc.1

theorem Joinable.right_lt : b.toNat < 511 := by
  have hc := h.closed_b
  simp only [NodeRec.closed, Bool.and_eq_true] at hc
  exact lt_of_valid hc.1

theorem nodeAt_joinNodes_parent : nodeAt (joinNodes ns p a b r) p = r := by
  rw [joinNodes, nodeAt_linkParent_ne _ _ _ h.ne_right, nodeAt_linkParent_ne _ _ _ h.ne_left,
    nodeAt_setNode_same _ _ h.parent_lt]

theorem nodeAt_joinNodes_left :
    nodeAt (joinNodes ns p a b r) a = { nodeAt ns a with hasParent := true, parent := p, side := false } := by
  rw [joinNodes, nodeAt_linkParent_ne _ _ _ h.ne, nodeAt_linkParent_same _ _ _ h.left_lt,
    nodeAt_setNode_ne _ _ h.ne_left.symm]

theorem nodeAt_joinNodes_right :
    nodeAt (joinNodes ns p a b r) b = { nodeAt ns b with hasParent := true, parent := p, side := true } := by
  rw [joinNodes, nodeAt_linkParent_same _ _ _ h.right_lt, nodeAt_linkParent_ne _ _ _ h.ne.symm,
    nodeAt_setNode_ne _ _ h.ne_right.symm]

/-- Putting an internal node over two subtrees lets the store grow. -/
theorem grows_joinNodes (m : LeafMap) : Grows ns m (joinNodes ns p a b r) m := by
  constructor
  · intro i hi
    by_cases hp : i = p
    · rw [hp, h.open_p] at hi
      contradiction
    by_cases ha : i = a
    · rw [ha, nodeAt_joinNodes_left r h]
      rfl
    by_cases hb : i = b
    · rw [hb, nodeAt_joinNodes_right r h]
      rfl
    rw [nodeAt_joinNodes_ne r hp ha hb]
  · intro i hi
    have hp : i ≠ p := by rintro rfl; simp [h.top_p] at hi
    have ha : i ≠ a := by rintro rfl; simp [h.top_a] at hi
    have hb : i ≠ b := by rintro rfl; simp [h.top_b] at hi
    rw [nodeAt_joinNodes_ne r hp ha hb]
  · exact fun _ _ hi => hi

/-- The tree made of the two subtrees is planted at the new node. -/
theorem planted_joinNodes {m : LeafMap} {t0 t1 : HTree} {w : Weight} (h0 : Planted ns m t0 a) (h1 : Planted ns m t1 b)
    (hr : r.content = (true, false, (nodeAt ns a).sym, w, a, b)) :
    Planted (joinNodes ns p a b r) m (.node t0 t1) p := by
  have hg := grows_joinNodes r h m
  rw [h0.sym_eq] at hr
  refine planted_node_iff.mpr ⟨w, a, b, ?_, h.ne, ?_, ?_, h0.grow hg, h1.grow hg⟩
  · rw [nodeAt_joinNodes_parent r h, hr]
  · rw [nodeAt_joinNodes_left r h]
    rfl
  · rw [nodeAt_joinNodes_right r h]
    rfl

end

/-! ### The machine's tree -/

/-- What makes the machine's tree, from the parts that BUILD and DESERIALIZE keep up (R36). -/
theorem treeAt_of_planted {s : State} {r : NodeIdx} {t : HTree} {n : Nat} (hroot : s.root = some r)
    (hplanted : Planted s.node s.leafOf t r) (htop : (nodeAt s.node r).hasParent = false) (hnodup : t.leaves.Nodup)
    (hcount : s.leafCount = BitVec.ofNat 9 t.leaves.length) (halloc : Allocated s.node n)
    (hn : n + 1 = 2 * t.leaves.length) (hunmapped : ∀ sym, sym ∉ t.leaves → leafAt s.leafOf sym = none) :
    TreeAt s r t where
  root_eq := hroot
  held := hplanted.held
  top := htop
  distinct := hnodup
  leaf_count := hcount
  node_count := by rw [halloc.countP_valid]; omega
  mapped _ hp := hplanted.mapped.leafAt_eq hp
  unmapped := hunmapped

end Machine
end Sys2Proof
end

section
/-! ### The walks of ENCODE, DECODE and SERIALIZE on a held tree (42_encode_decode.md R140 to R144, 43_serialize.md
R161) -/

namespace Sys2Proof.Machine

open Sys2Proof

section
variable {ns : NodeStore}

theorem nodeAt?_of_holds {t : HTree} {c : NodeIdx} (h : holds ns t c = true) :
    nodeAt? ns c = some (nodeAt ns c) :=
  nodeAt?_of_lt ns (lt_of_valid (holds_valid h).2.1)

theorem climb_of_top {t : HTree} {c : NodeIdx} (h : holds ns t c = true) (htop : (nodeAt ns c).hasParent = false)
    (fuel : Nat) : climb ns fuel c = some [] := by
  cases fuel <;> simp [climb, nodeAt?_of_holds h, htop]

theorem climb_of_link {t : HTree} {c p : NodeIdx} {side : Bit} (h : holds ns t c = true)
    (hlink : (nodeAt ns c).link = (true, p, side)) (fuel : Nat) :
    climb ns (fuel + 1) c = (climb ns fuel p).map (side :: ·) := by
  simp only [NodeRec.link, Prod.mk.injEq] at hlink
  obtain ⟨hp, rfl, rfl⟩ := hlink
  simp [climb, nodeAt?_of_holds h, hp]

/-- The climb from the leaf of a code passes the code's bits backwards and goes on from the top (R141). -/
theorem climb_follow {t : HTree} {c : NodeIdx} (h : holds ns t c = true) {sym : Symbol} {code : List Bit}
    (hp : (sym, code) ∈ t.codes) (fuel : Nat) :
    climb ns (fuel + code.length) (follow ns c code) = (climb ns fuel c).map (code.reverse ++ ·) := by
  induction t generalizing c code fuel with
  | leaf a =>
    obtain ⟨rfl, rfl⟩ : sym = a ∧ code = [] := by simpa [HTree.codes] using hp
    simp [follow]
  | node t0 t1 ih0 ih1 =>
    obtain ⟨w, a, b, hc, -, hla, hlb, h0, h1⟩ := holds_node_iff.mp h
    obtain ⟨rfl, rfl⟩ := NodeRec.children_of_content hc
    simp only [HTree.codes, List.mem_append, List.mem_map, Prod.mk.injEq, Prod.exists] at hp
    rcases hp with ⟨_, path, hp, rfl, rfl⟩ | ⟨_, path, hp, rfl, rfl⟩
    · have := ih0 h0 hp (fuel + 1)
      rw [climb_of_link h0 hla] at this
      simpa [follow, Nat.add_assoc, Nat.add_comm 1, Function.comp_def] using this
    · have := ih1 h1 hp (fuel + 1)
      rw [climb_of_link h1 hlb] at this
      simpa [follow, Nat.add_assoc, Nat.add_comm 1, Function.comp_def] using this

/-- DECODE's walk down a held tree ends at a leaf or at EOS, if it may take as many steps as the tree is deep
(R144). -/
theorem descend_ne_broken {s : State} {t : HTree} {c : NodeIdx} {fuel bits : Nat} (h : holds s.node t c = true)
    (hfuel : t.leaves.length ≤ fuel + 1) : descend fuel c bits s ≠ .broken := by
  induction t generalizing s c fuel bits with
  | leaf sym =>
    obtain ⟨w, hc⟩ := holds_leaf_iff.mp h
    have hleaf : (nodeAt s.node c).leaf = true := congrArg (·.2.1) hc
    cases fuel <;> simp [descend, nodeAt?_of_holds h, hleaf]
  | node t0 t1 ih0 ih1 =>
    obtain ⟨w, a, b, hc, -, -, -, h0, h1⟩ := holds_node_iff.mp h
    have hleaf : (nodeAt s.node c).leaf = false := congrArg (·.2.1) hc
    obtain ⟨rfl, rfl⟩ := NodeRec.children_of_content hc
    have hlen0 := t0.one_le_length_leaves
    have hlen1 := t1.one_le_length_leaves
    rw [HTree.leaves, List.length_append] at hfuel
    obtain ⟨fuel, rfl⟩ : ∃ k, fuel = k + 1 := ⟨fuel - 1, by omega⟩
    rcases readBit_cases s with ⟨hb, -⟩ | ⟨bit, hb, -⟩
    · simp [descend, nodeAt?_of_holds h, hleaf, hb]
    · simp only [descend, nodeAt?_of_holds h, hleaf, hb, Bool.false_eq_true, if_false]
      cases bit with
      | false => exact ih0 h0 (by omega)
      | true => exact ih1 h1 (by omega)

/-- Ser() on a held tree gives its form, if it may go as deep as the tree is (R161). -/
theorem serialBits_of_holds {t : HTree} {c : NodeIdx} {fuel : Nat} (h : holds ns t c = true)
    (hfuel : t.leaves.length ≤ fuel) : serialBits ns fuel c = some t.form := by
  induction t generalizing c fuel with
  | leaf sym =>
    obtain ⟨w, hc⟩ := holds_leaf_iff.mp h
    simp only [NodeRec.content, Prod.mk.injEq] at hc
    obtain ⟨-, hleaf, hsym, -⟩ := hc
    rw [HTree.leaves, List.length_singleton] at hfuel
    obtain ⟨fuel, rfl⟩ : ∃ k, fuel = k + 1 := ⟨fuel - 1, by omega⟩
    simp [serialBits, nodeAt?_of_holds h, hleaf, hsym, HTree.form]
  | node t0 t1 ih0 ih1 =>
    obtain ⟨w, a, b, hc, -, -, -, h0, h1⟩ := holds_node_iff.mp h
    have hleaf : (nodeAt ns c).leaf = false := congrArg (·.2.1) hc
    obtain ⟨rfl, rfl⟩ := NodeRec.children_of_content hc
    have hlen0 := t0.one_le_length_leaves
    have hlen1 := t1.one_le_length_leaves
    rw [HTree.leaves, List.length_append] at hfuel
    obtain ⟨fuel, rfl⟩ : ∃ k, fuel = k + 1 := ⟨fuel - 1, by omega⟩
    have h0 := ih0 (fuel := fuel) h0 (by omega)
    have h1 := ih1 (fuel := fuel) h1 (by omega)
    simp [serialBits, nodeAt?_of_holds h, hleaf, h0, h1, HTree.form]

end

section
variable {s : State} {r : NodeIdx} {t : HTree}

theorem TreeAt.length_leaves_le (h : TreeAt s r t) : t.leaves.length ≤ 256 :=
  length_le_of_nodup_symbols h.distinct

/-- ENCODE's climb from the leaf of a symbol gives its code backwards (R141, R142). -/
theorem TreeAt.climb_eq (h : TreeAt s r t) {sym : Symbol} {code : List Bit} (hp : (sym, code) ∈ t.codes) :
    climb s.node Config.maxDepth (follow s.node r code) = some code.reverse := by
  have hlt := HTree.length_code_lt hp
  have hle := h.length_leaves_le
  have := climb_follow h.held hp (Config.maxDepth - code.length)
  rwa [climb_of_top h.held h.top, Nat.sub_add_cancel (by unfold Config.maxDepth; omega), Option.map_some,
    List.append_nil] at this

end

/-- A symbol has a leaf exactly when there is a tree with a code for it. -/
theorem TreeInv.exists_code {s : State} (h : TreeInv s) {sym : Symbol} {c : NodeIdx}
    (hc : leafAt s.leafOf sym = some c) :
    ∃ r t code, TreeAt s r t ∧ (sym, code) ∈ t.codes ∧ c = follow s.node r code := by
  rcases h with hno | ⟨r, t, ht⟩
  · simp [hno.no_leaf sym] at hc
  · have hmem : sym ∈ t.codes.map Prod.fst := by
      rw [HTree.map_fst_codes]
      by_contra hsym
      simp [ht.unmapped sym hsym] at hc
    obtain ⟨⟨_, code⟩, hp, rfl⟩ := List.mem_map.mp hmem
    exact ⟨r, t, code, ht, hp, Option.some.inj (hc.symm.trans (ht.mapped _ hp))⟩

/-- A root is the root of the machine's tree. -/
theorem TreeInv.treeAt_of_root {s : State} (h : TreeInv s) {r : NodeIdx} (hr : s.root = some r) :
    ∃ t, TreeAt s r t := by
  rcases h with hno | ⟨q, t, ht⟩
  · simp [hno.root_eq] at hr
  · obtain rfl := Option.some.inj (ht.root_eq.symm.trans hr)
    exact ⟨t, ht⟩

theorem execEncode_completes {s : State} (h : TreeInv s) (sym : Symbol) : ∃ t, execEncode sym s = .next t := by
  unfold execEncode
  cases hc : leafAt s.leafOf sym with
  | none => exact ⟨_, rfl⟩
  | some c =>
    obtain ⟨r, t, code, ht, hp, rfl⟩ := h.exists_code hc
    simp [ht.climb_eq hp]

theorem execDecode_completes {s : State} (h : TreeInv s) : ∃ t, execDecode s = .next t := by
  unfold execDecode
  cases hr : s.root with
  | none => exact ⟨_, rfl⟩
  | some r =>
    obtain ⟨t, ht⟩ := h.treeAt_of_root hr
    have hne := descend_ne_broken (fuel := Config.maxDepth) (bits := 0) ht.held ht.length_leaves_le
    dsimp only
    cases hd : descend Config.maxDepth r 0 s with
    | leaf bits sym u => exact ⟨_, rfl⟩
    | eos bits u => exact ⟨_, rfl⟩
    | broken => exact absurd hd hne

theorem execSerialize_completes {s : State} (h : TreeInv s) : ∃ t, execSerialize s = .next t := by
  unfold execSerialize
  cases hr : s.root with
  | none => exact ⟨_, rfl⟩
  | some r =>
    obtain ⟨t, ht⟩ := h.treeAt_of_root hr
    have hbits := serialBits_of_holds (fuel := Config.maxDepth + 1) ht.held ht.length_leaves_le
    simp [hbits]

end Sys2Proof.Machine
end

section
/-! ### BUILD: what its queue holds (41_tree_build.md R120, R123, R124) -/

namespace Sys2Proof.Machine

open Sys2Proof

/-- A planted tree whose root has no parent: what a node of BUILD's queue is. -/
structure Rooted (ns : NodeStore) (m : LeafMap) (c : NodeIdx) (t : HTree) : Prop where
  planted : Planted ns m t c
  top     : (nodeAt ns c).hasParent = false

/-- The leaves of a forest. -/
def forestLeaves (ts : List HTree) : List Symbol := ts.flatMap HTree.leaves

/-- BUILD's invariant: the queue holds the roots of the forest `ts`, entry by entry; no symbol has two leaves; LEAF_OF
maps no other symbol; the nodes allocated are the forest's. -/
structure BuildInv (c : BuildCtx) (ts : List HTree) : Prop where
  roots    : List.Forall₂ (Rooted c.node c.leafOf) c.queue ts
  alloc    : Allocated c.node c.n
  count    : c.n + ts.length = 2 * (forestLeaves ts).length
  nodup    : (forestLeaves ts).Nodup
  unmapped : ∀ sym, sym ∉ forestLeaves ts → leafAt c.leafOf sym = none

@[simp] theorem forestLeaves_nil : forestLeaves [] = [] := rfl

@[simp] theorem forestLeaves_cons (t : HTree) (ts : List HTree) :
    forestLeaves (t :: ts) = t.leaves ++ forestLeaves ts := List.flatMap_cons

@[simp] theorem forestLeaves_append (ts us : List HTree) :
    forestLeaves (ts ++ us) = forestLeaves ts ++ forestLeaves us := List.flatMap_append

theorem forestLeaves_perm {ts us : List HTree} (h : ts.Perm us) : (forestLeaves ts).Perm (forestLeaves us) :=
  h.flatMap_right _

/-- In a forest without repeats no two trees have one representative (R123). -/
theorem nodup_reps {ts : List HTree} (h : (forestLeaves ts).Nodup) : (ts.map HTree.rep).Nodup := by
  have hsub : (ts.map HTree.rep).Sublist (forestLeaves ts) := by
    clear h
    induction ts with
    | nil => simp
    | cons t ts ih =>
      rw [List.map_cons, forestLeaves_cons, ← List.singleton_append]
      exact (List.singleton_sublist.mpr t.rep_mem_leaves).append ih
  exact h.sublist hsub

theorem Rooted.grow {ns ns' : NodeStore} {m m' : LeafMap} {c : NodeIdx} {t : HTree} (h : Rooted ns m c t)
    (hg : Grows ns m ns' m') (htop : (nodeAt ns' c).hasParent = (nodeAt ns c).hasParent) : Rooted ns' m' c t :=
  ⟨h.planted.grow hg, htop.trans h.top⟩

/-- The roots of a forest stay roots while the store grows and they get no parent. -/
theorem roots_grow {ns ns' : NodeStore} {m m' : LeafMap} {q : List NodeIdx} {ts : List HTree}
    (h : List.Forall₂ (Rooted ns m) q ts) (hg : Grows ns m ns' m')
    (htop : ∀ i ∈ q, (nodeAt ns' i).hasParent = (nodeAt ns i).hasParent) : List.Forall₂ (Rooted ns' m') q ts :=
  ((List.forall₂_and_left _ _).mpr ⟨htop, h⟩).imp fun _ _ hi => hi.2.grow hg hi.1

namespace BuildInv

variable {c : BuildCtx} {ts : List HTree}

theorem length_queue (h : BuildInv c ts) : c.queue.length = ts.length := h.roots.length_eq

theorem map_sym (h : BuildInv c ts) : (c.queue.map fun i => (nodeAt c.node i).sym) = ts.map HTree.rep := by
  have : List.Forall₂ (fun i t => (nodeAt c.node i).sym = HTree.rep t) c.queue ts :=
    h.roots.imp fun _ _ hr => hr.planted.sym_eq
  rw [← List.forall₂_eq_eq_eq, List.forall₂_map_left_iff, List.forall₂_map_right_iff]
  exact this

/-- The keys in the queue are distinct, by their representative symbols (R123). -/
theorem nodup_keys (h : BuildInv c ts) : (c.queue.map fun i => nodeKey (nodeAt c.node i)).Nodup := by
  apply List.Nodup.of_map (fun key => key.extractLsb' 0 8)
  have hsym (r : NodeRec) : (nodeKey r).extractLsb' 0 8 = r.sym := BitVec.extractLsb'_append_eq_right
  rw [List.map_map]
  simp only [Function.comp_def, hsym]
  rw [h.map_sym]
  exact nodup_reps h.nodup

theorem nodup_queue (h : BuildInv c ts) : c.queue.Nodup := h.nodup_keys.of_map _

/-- The order of the queue is of no account. -/
theorem perm (h : BuildInv c ts) {q : List NodeIdx} (hq : q.Perm c.queue) :
    ∃ us, us.Perm ts ∧ BuildInv { c with queue := q } us := by
  obtain ⟨us, hroots, hperm⟩ := List.perm_comp_forall₂ hq h.roots
  have hleaves := forestLeaves_perm hperm
  exact ⟨us, hperm, hroots, h.alloc, by rw [hperm.length_eq, hleaves.length_eq]; exact h.count,
    hleaves.nodup_iff.mpr h.nodup, fun sym hsym => h.unmapped sym fun hmem => hsym (hleaves.mem_iff.mpr hmem)⟩

theorem valid_of_mem (h : BuildInv c ts) {i : NodeIdx} (hi : i ∈ c.queue) : (nodeAt c.node i).valid = true := by
  have hvalid : List.Forall₂ (fun i t => (nodeAt c.node i).valid = true ∧ Rooted c.node c.leafOf i t) c.queue ts :=
    h.roots.imp fun _ _ hr => ⟨hr.planted.valid, hr⟩
  exact ((List.forall₂_and_left _ _).mp hvalid).1 i hi

end BuildInv

theorem buildInv_start : BuildInv buildStart [] where
  roots := .nil
  alloc := allocated_const
  count := rfl
  nodup := List.nodup_nil
  unmapped sym _ := leafAt_const sym

/-! ### Step 1: the leaves -/

/-- One symbol of step 1: a leaf planted at the next index for a count that is not 0 (R120). -/
theorem BuildInv.loadLeaf {c : BuildCtx} {ts : List HTree} (h : BuildInv c ts) {freq : FreqFile} {sym : Symbol}
    (hnew : sym ∉ forestLeaves ts) (hfreq : freq.get (symIndex sym) ≠ 0#32) :
    BuildInv (loadLeaf freq c sym) (ts ++ [.leaf sym]) := by
  have hnodup : (forestLeaves (ts ++ [.leaf sym])).Nodup := by
    simpa [HTree.leaves, List.nodup_append] using ⟨h.nodup, fun a ha e => hnew (e ▸ ha)⟩
  have hlen := length_le_of_nodup_symbols hnodup
  simp only [forestLeaves_append, forestLeaves_cons, forestLeaves_nil, HTree.leaves, List.length_append,
    List.length_singleton, List.append_nil] at hlen
  have hcount := h.count
  have hn : c.n < 511 := by omega
  have hfree : leafAt c.leafOf sym = none := h.unmapped sym hnew
  have hkeep (i : NodeIdx) (hi : i.toNat < c.n) (r : NodeRec) :
      nodeAt (setNode c.node (BitVec.ofNat 9 c.n) r) i = nodeAt c.node i :=
    nodeAt_setNode_ne _ _ (ne_ofNat_of_lt hn hi)
  have hleaf := planted_freshLeaf (ns := c.node) (m := c.leafOf) hn sym ((freq.get (symIndex sym)).setWidth 40)
  rw [Machine.loadLeaf, if_neg hfreq]
  refine ⟨?_, h.alloc.setNode_fresh hn rfl rfl, ?_, hnodup, fun other hother => ?_⟩
  · refine List.rel_append (roots_grow h.roots ?_ fun i hi => ?_) (.cons ⟨hleaf.1, hleaf.2⟩ .nil)
    · exact h.alloc.grows (fun i hi => hkeep i hi _) fun _ _ hi => leafAt_setLeaf_of_some hfree hi
    · rw [hkeep i ((h.alloc.valid_iff i).mp (h.valid_of_mem hi))]
  · simp [HTree.leaves]
    omega
  · simp only [forestLeaves_append, forestLeaves_cons, forestLeaves_nil, HTree.leaves, List.append_nil,
      List.mem_append, List.mem_singleton, not_or] at hother
    rw [leafAt_setLeaf_ne _ _ hother.2]
    exact h.unmapped other hother.1

/-- Step 1 of BUILD: after loading the symbols of a list the forest has a leaf for each that has a count, in the
list's order. -/
theorem buildInv_foldl_loadLeaf (freq : FreqFile) {syms : List Symbol} {c : BuildCtx} {ts : List HTree}
    (h : BuildInv c ts) (hnodup : syms.Nodup) (hnew : ∀ sym ∈ syms, sym ∉ forestLeaves ts) :
    BuildInv (syms.foldl (loadLeaf freq) c)
      (ts ++ (syms.filter fun sym => freq.get (symIndex sym) ≠ 0#32).map .leaf) := by
  induction syms generalizing c ts with
  | nil => simpa using h
  | cons sym syms ih =>
    obtain ⟨hsym, hnodup⟩ := List.nodup_cons.mp hnodup
    have hrest (a : Symbol) (ha : a ∈ syms) : a ∉ forestLeaves ts := hnew a (List.mem_cons_of_mem _ ha)
    rw [List.foldl_cons]
    by_cases hfreq : freq.get (symIndex sym) = 0#32
    · have hskip : loadLeaf freq c sym = c := if_pos hfreq
      rw [hskip, List.filter_cons_of_neg (by simpa using hfreq)]
      exact ih h hnodup hrest
    · have := ih (h.loadLeaf (hnew sym List.mem_cons_self) hfreq) hnodup fun a ha => by
        simp only [forestLeaves_append, forestLeaves_cons, forestLeaves_nil, HTree.leaves, List.append_nil,
          List.mem_append, List.mem_singleton, not_or]
        exact ⟨hrest a ha, fun e => hsym (e ▸ ha)⟩
      rwa [List.append_assoc, List.singleton_append, ← List.map_cons (f := HTree.leaf),
        ← List.filter_cons_of_pos (p := fun sym => decide (freq.get (symIndex sym) ≠ 0#32))
          (by simpa using hfreq)] at this

theorem nodup_allSymbols : allSymbols.Nodup := by
  refine List.Nodup.map_on (fun a ha b hb h => ?_) List.nodup_range
  have h := congrArg BitVec.toNat h
  rw [List.mem_range] at ha hb
  rwa [BitVec.toNat_ofNat, BitVec.toNat_ofNat, Nat.mod_eq_of_lt ha, Nat.mod_eq_of_lt hb] at h

/-- Step 1 of BUILD: the forest of single leaves, one for each present symbol, ascending (R120). -/
theorem buildInv_loadLeaves (freq : FreqFile) :
    BuildInv (loadLeaves freq) ((HTree.presentSymbols freq).map .leaf) :=
  buildInv_foldl_loadLeaf freq buildInv_start nodup_allSymbols (by simp)

theorem forestLeaves_map_leaf (syms : List Symbol) : forestLeaves (syms.map .leaf) = syms := by
  induction syms with
  | nil => rfl
  | cons sym syms ih => simp [ih, HTree.leaves]

theorem loadLeaves_n (freq : FreqFile) : (loadLeaves freq).n = (HTree.presentSymbols freq).length := by
  have := (buildInv_loadLeaves freq).count
  rw [forestLeaves_map_leaf, List.length_map] at this
  omega

/-! ### Step 2: the merges -/

/-- Two minima can be extracted from a queue of at least two nodes with distinct keys (R123). -/
theorem extractMin_twice {ns : NodeStore} {q : List NodeIdx} (hkeys : (q.map fun i => nodeKey (nodeAt ns i)).Nodup)
    (hlen : 2 ≤ q.length) :
    ∃ first q1 second q2, extractMin ns q = some (first, q1) ∧ extractMin ns q1 = some (second, q2) ∧
      (first :: second :: q2).Perm q := by
  obtain ⟨x, q, rfl⟩ := List.exists_cons_of_ne_nil (l := q) (by rintro rfl; simp at hlen)
  have h1 := extractMin_of_distinct hkeys
  have hp1 := selectMin_perm ns x q
  obtain ⟨y, q1, hq1⟩ := List.exists_cons_of_ne_nil (l := (selectMin ns x q).2) (by
    intro hnil
    have := hp1.length_eq
    rw [hnil] at this
    simp only [List.length_cons, List.length_nil] at this hlen
    omega)
  have hkeys1 := (hp1.map fun i => nodeKey (nodeAt ns i)).nodup_iff.mpr hkeys
  rw [hq1, List.map_cons, List.nodup_cons] at hkeys1
  exact ⟨_, _, _, _, h1, by rw [hq1]; exact extractMin_of_distinct hkeys1.2,
    ((selectMin_perm ns y q1).cons _).trans (hq1 ▸ hp1)⟩

/-- A merge keeps the leaves. -/
theorem forestLeaves_merge (t0 t1 : HTree) (ts : List HTree) :
    (forestLeaves (ts ++ [.node t0 t1])).Perm (forestLeaves (t0 :: t1 :: ts)) := by
  simpa [HTree.leaves] using List.perm_append_comm (l₁ := forestLeaves ts) (l₂ := t0.leaves ++ t1.leaves)

/-- One merge: the first two trees of the forest become one at its end (R124). -/
theorem BuildInv.merge {c : BuildCtx} {first second : NodeIdx} {q : List NodeIdx} {t0 t1 : HTree} {ts : List HTree}
    (h : BuildInv { c with queue := first :: second :: q } (t0 :: t1 :: ts)) :
    BuildInv
      { c with
        node := mergeNodes c.node first second (BitVec.ofNat 9 c.n)
        queue := q ++ [BitVec.ofNat 9 c.n]
        n := c.n + 1 }
      (ts ++ [.node t0 t1]) := by
  obtain ⟨hfirst, hsecond, hq⟩ : Rooted c.node c.leafOf first t0 ∧ Rooted c.node c.leafOf second t1 ∧
      List.Forall₂ (Rooted c.node c.leafOf) q ts := by
    have := h.roots
    simp only [List.forall₂_cons] at this
    exact this
  have hqueue := h.nodup_queue
  simp only [List.nodup_cons, List.mem_cons, not_or] at hqueue
  obtain ⟨⟨hne, hfirst_q⟩, hsecond_q, -⟩ := hqueue
  have hleaves := forestLeaves_merge t0 t1 ts
  have hcount := h.count
  have hlen := length_le_of_nodup_symbols h.nodup
  simp only [List.length_cons] at hcount
  have hn : c.n < 511 := by omega
  have hnew : nodeAt c.node (BitVec.ofNat 9 c.n) = NodeRec.zero :=
    h.alloc.eq_zero (by rw [toNat_ofNat_of_lt hn])
  have hjoin : Joinable c.node (BitVec.ofNat 9 c.n) first second :=
    ⟨by rw [toNat_ofNat_of_lt hn]; exact hn, by rw [hnew]; rfl, hfirst.planted.closed, hsecond.planted.closed,
      by rw [hnew]; rfl, hfirst.top, hsecond.top, hne⟩
  have hlt (i : NodeIdx) (hi : (nodeAt c.node i).valid = true) : i.toNat < c.n + 1 :=
    Nat.lt_succ_of_lt ((h.alloc.valid_iff i).mp hi)
  rw [mergeNodes_eq]
  refine ⟨?_, ?_, ?_, hleaves.nodup_iff.mpr h.nodup, fun sym hsym => ?_⟩
  · refine List.rel_append (roots_grow hq (grows_joinNodes _ hjoin _) fun i hi => ?_) (.cons ⟨?_, ?_⟩ .nil)
    · rw [nodeAt_joinNodes_ne]
      · rintro rfl
        have := h.valid_of_mem (i := BitVec.ofNat 9 c.n) (by simp [hi])
        rw [hnew] at this
        exact absurd this (by decide)
      · rintro rfl
        exact hfirst_q hi
      · rintro rfl
        exact hsecond_q hi
    · exact planted_joinNodes _ hjoin hfirst.planted hsecond.planted rfl
    · rw [nodeAt_joinNodes_parent _ hjoin]
      rfl
  · exact ((h.alloc.setNode_fresh hn rfl rfl).linkParent (hlt _ hfirst.planted.valid) _ _).linkParent
      (hlt _ hsecond.planted.valid) _ _
  · rw [hleaves.length_eq, List.length_append, List.length_singleton]
    dsimp only
    omega
  · exact h.unmapped sym fun hmem => hsym (hleaves.mem_iff.mpr hmem)

/-- Step 2 of BUILD ends with at most one tree, over the same leaves, and refuses nothing (R120, R123). -/
theorem mergeLoop_spec {fuel : Nat} {c : BuildCtx} {ts : List HTree} (h : BuildInv c ts)
    (hfuel : ts.length ≤ fuel + 1) :
    ∃ d us, mergeLoop fuel c = some d ∧ BuildInv d us ∧ us.length ≤ 1 ∧ (forestLeaves us).Perm (forestLeaves ts) := by
  induction fuel generalizing c ts with
  | zero => exact ⟨c, ts, rfl, h, by omega, .refl _⟩
  | succ fuel ih =>
    have hlen := h.length_queue
    by_cases hone : c.queue.length ≤ 1
    · exact ⟨c, ts, by rw [mergeLoop, if_pos hone], h, by omega, .refl _⟩
    · obtain ⟨first, q1, second, q2, h1, h2, hperm⟩ := extractMin_twice h.nodup_keys (by omega)
      obtain ⟨us, hus, hinv⟩ := h.perm hperm
      have husl := hus.length_eq
      obtain ⟨t0, t1, us, rfl⟩ : ∃ t0 t1 rest, us = t0 :: t1 :: rest := by
        match us, husl with
        | [], e => simp at e; omega
        | [_], e => simp at e; omega
        | t0 :: t1 :: rest, _ => exact ⟨t0, t1, rest, rfl⟩
      simp only [List.length_cons] at husl
      obtain ⟨d, vs, hd, hinv', hvs, hleaves⟩ := ih hinv.merge (by simp; omega)
      refine ⟨d, vs, ?_, hinv', hvs, hleaves.trans ((forestLeaves_merge t0 t1 us).trans (forestLeaves_perm hus))⟩
      rw [mergeLoop, if_neg hone, h1]
      simp only [h2]
      exact hd

/-- The tree that BUILD leaves: the one in its queue, or none (R36, R120). -/
theorem BuildInv.treeInv {c : BuildCtx} {ts : List HTree} {s : State} (h : BuildInv c ts) (hone : ts.length ≤ 1)
    (hnode : s.node = c.node) (hmap : s.leafOf = c.leafOf) (hroot : s.root = c.queue.head?)
    (hcount : s.leafCount = BitVec.ofNat 9 (forestLeaves ts).length) : TreeInv s := by
  have halloc := h.alloc
  rw [← hnode] at halloc
  match ts, hone with
  | [], _ =>
    have hqueue : c.queue = [] := List.forall₂_nil_right_iff.mp h.roots
    have hn : c.n = 0 := h.count
    refine .inl ⟨by rw [hroot, hqueue]; rfl, hcount, fun r hr => ?_,
      fun sym => by rw [hmap]; exact h.unmapped sym (by simp)⟩
    obtain ⟨i, rfl⟩ := Table.exists_get_of_mem hr
    rw [← nodeAt_ofNat, halloc.eq_zero (by omega)]
    rfl
  | [t], _ =>
    obtain ⟨r, q, hr, -, hqueue⟩ := List.forall₂_cons_right_iff.mp h.roots
    have hleaves : forestLeaves [t] = t.leaves := by simp
    have hn := h.count
    have hnodup := h.nodup
    have hunmapped := h.unmapped
    rw [hleaves] at hn hnodup hunmapped hcount
    rw [← hnode, ← hmap] at hr
    exact .inr ⟨r, t, treeAt_of_planted (by rw [hroot, hqueue]; rfl) hr.planted hr.top hnodup hcount halloc hn
      (by rw [hmap]; exact hunmapped)⟩

/-- BUILD completes from every state; what it leaves in the node store, LEAF_OF and ROOT is a forest of at most one
tree over the present symbols (R120 to R125). -/
theorem execBuild_spec (s : State) :
    ∃ c ts, BuildInv c ts ∧ ts.length ≤ 1 ∧ (forestLeaves ts).Perm (HTree.presentSymbols s.freq) ∧
      execBuild s = .next (finish
        { s with node := c.node, leafOf := c.leafOf, root := c.queue.head?,
                 leafCount := BitVec.ofNat 9 (forestLeaves ts).length }
        (BitVec.ofNat 32 (forestLeaves ts).length)) := by
  obtain ⟨c, ts, hloop, hinv, hone, hleaves⟩ := mergeLoop_spec (fuel := (loadLeaves s.freq).n)
    (buildInv_loadLeaves s.freq) (by rw [List.length_map, loadLeaves_n]; omega)
  rw [forestLeaves_map_leaf] at hleaves
  refine ⟨c, ts, hinv, hone, hleaves, ?_⟩
  rw [execBuild, hloop, hleaves.length_eq, loadLeaves_n]

/-- BUILD completes and leaves a canonical store and a tree, or no tree (R33, R36). -/
theorem execBuild_completes (s : State) : ∃ t, execBuild s = .next t ∧ StoreInv t ∧ TreeInv t := by
  obtain ⟨c, ts, hinv, hone, -, hexec⟩ := execBuild_spec s
  exact ⟨_, hexec, fun _ hr => hinv.alloc.canonical_of_mem hr, hinv.treeInv hone rfl rfl rfl rfl⟩

end Sys2Proof.Machine
end

section
/-! ### DESERIALIZE: what the subtrees it has read leave in the store (43_serialize.md R163 to R165) -/

namespace Sys2Proof.Machine

open Sys2Proof

@[simp] theorem DesCtx.past_leafOf (c : DesCtx) (k : Nat) : (c.past k).st.leafOf = c.st.leafOf := rfl

theorem read1_ok {c d : DesCtx} {b : Bit} (h : read1 c = .ok b d) : d = c.past 1 := by
  rcases read1_cases c with ⟨-, hfail⟩ | ⟨_, _, -, hok, -⟩
  · rw [hfail] at h
    contradiction
  · rw [hok] at h
    exact (DesEnd.ok.inj h).2.symm

theorem readSymbol_ok {k : Nat} {sym sym' : Symbol} {c d : DesCtx} (h : readSymbol k sym c = .ok sym' d) :
    d = c.past k := by
  induction k generalizing sym c with
  | zero => exact (DesEnd.ok.inj h).2.symm
  | succ k ih =>
    rw [readSymbol] at h
    cases hb : read1 c with
    | fail eos e =>
      rw [hb] at h
      contradiction
    | ok b e =>
      rw [hb] at h
      rw [ih h, read1_ok hb, DesCtx.past_past, Nat.add_comm]

/-- All the ways in which Des() can succeed: with a leaf of a new symbol, or with an internal node over the two
subtrees read after its tag (R163). -/
theorem des_ok {fuel : Nat} {c d : DesCtx} {r : NodeIdx} (h : des (fuel + 1) c = .ok r d) :
    r = BitVec.ofNat 9 c.n ∧
    ((∃ k sym, leafAt c.st.leafOf sym = none ∧ d = allocLeaf (c.past k) sym) ∨
     (∃ k a b ca cb, c.internals ≠ Config.maxInternal ∧ des fuel (allocInternal (c.past k)) = .ok a ca ∧
        des fuel ca = .ok b cb ∧ d = closeInternal cb r a b)) := by
  rw [des] at h
  cases hb : read1 c with
  | fail eos e =>
    rw [hb] at h
    contradiction
  | ok bit e =>
    rw [hb] at h
    obtain rfl := read1_ok hb
    cases bit with
    | true =>
      dsimp only at h
      cases h8 : readSymbol 8 0#8 (c.past 1) with
      | fail eos e =>
        rw [h8] at h
        contradiction
      | ok sym e =>
        rw [h8] at h
        obtain rfl := readSymbol_ok h8
        dsimp only at h
        split at h
        · contradiction
        · rename_i hfree
          obtain ⟨rfl, rfl⟩ := DesEnd.ok.inj h
          exact ⟨rfl, .inl ⟨1 + 8, sym, by simpa using hfree, by rw [DesCtx.past_past]⟩⟩
    | false =>
      dsimp only at h
      split at h
      · contradiction
      · rename_i hint
        cases h0 : des fuel (allocInternal (c.past 1)) with
        | fail eos e =>
          rw [h0] at h
          contradiction
        | ok a ca =>
          rw [h0] at h
          dsimp only at h
          cases h1 : des fuel ca with
          | fail eos e =>
            rw [h1] at h
            contradiction
          | ok b cb =>
            rw [h1] at h
            obtain ⟨rfl, rfl⟩ := DesEnd.ok.inj h
            exact ⟨rfl, .inr ⟨1, a, b, ca, cb, hint, h0, h1, rfl⟩⟩

/-- DESERIALIZE's invariant: `syms` are the symbols of the leaves read so far, none twice; LEAF_OF maps them and no
other; the nodes allocated are the leaves and the internal nodes, of which there are at most 255 (R163, R165). -/
structure DesInv (c : DesCtx) (syms : List Symbol) : Prop where
  alloc        : Allocated c.st.node c.n
  count        : c.n = c.internals + syms.length
  internals_le : c.internals ≤ Config.maxInternal
  nodup        : syms.Nodup
  mapped_iff   : ∀ sym, leafAt c.st.leafOf sym = none ↔ sym ∉ syms

/-- What a successful Des() has done on its way from `c` to `d`: a tree is planted at the first free node, which has
no parent yet; the nodes and the LEAF_OF entries that there were have stayed (R163). -/
structure ReadTree (c d : DesCtx) (r : NodeIdx) (t : HTree) : Prop where
  root      : r = BitVec.ofNat 9 c.n
  planted   : Planted d.st.node d.st.leafOf t r
  top       : (nodeAt d.st.node r).hasParent = false
  internals : d.internals + 1 = c.internals + t.leaves.length
  n_lt      : c.n < d.n
  frame     : ∀ i : NodeIdx, i.toNat < c.n → nodeAt d.st.node i = nodeAt c.st.node i
  entries   : ∀ sym i, leafAt c.st.leafOf sym = some i → leafAt d.st.leafOf sym = some i

theorem DesInv.past {c : DesCtx} {syms : List Symbol} (h : DesInv c syms) (k : Nat) : DesInv (c.past k) syms :=
  ⟨h.alloc, h.count, h.internals_le, h.nodup, h.mapped_iff⟩

theorem DesInv.mapped_leaf {c : DesCtx} {syms : List Symbol} (h : DesInv c syms) {sym other : Symbol} (i : NodeIdx) :
    leafAt (setLeaf c.st.leafOf sym i) other = none ↔ other ∉ syms ++ [sym] := by
  by_cases ho : other = sym
  · simp [ho]
  · rw [leafAt_setLeaf_ne _ _ ho, h.mapped_iff]
    simp [ho]

/-- A leaf of a new symbol is read (R163). -/
theorem DesInv.readTree_leaf {c : DesCtx} {syms : List Symbol} (h : DesInv c syms) {sym : Symbol}
    (hfree : leafAt c.st.leafOf sym = none) :
    DesInv (allocLeaf c sym) (syms ++ [sym]) ∧ ReadTree c (allocLeaf c sym) (BitVec.ofNat 9 c.n) (.leaf sym) := by
  have hnew := (h.mapped_iff sym).mp hfree
  have hnodup : (syms ++ [sym]).Nodup := by
    simpa [List.nodup_append] using ⟨h.nodup, fun a ha e => hnew (e ▸ ha)⟩
  have hlen := length_le_of_nodup_symbols hnodup
  rw [List.length_append, List.length_singleton] at hlen
  have hcount := h.count
  have hint := h.internals_le
  simp only [Config.maxInternal] at hint
  have hn : c.n < 511 := by omega
  have hleaf := planted_freshLeaf (ns := c.st.node) (m := c.st.leafOf) hn sym 0#40
  constructor
  · refine ⟨h.alloc.setNode_fresh hn rfl rfl, ?_, h.internals_le, hnodup, fun other => h.mapped_leaf _⟩
    simp only [allocLeaf, List.length_append, List.length_singleton]
    omega
  · refine ⟨rfl, hleaf.1, hleaf.2, rfl, Nat.lt_succ_self _, fun i hi => ?_, fun _ _ => leafAt_setLeaf_of_some hfree⟩
    exact nodeAt_setNode_ne _ _ (ne_ofNat_of_lt hn hi)

/-- An internal node is allocated, still without children (R163). -/
theorem DesInv.allocInternal {c : DesCtx} {syms : List Symbol} (h : DesInv c syms)
    (hint : c.internals ≠ Config.maxInternal) :
    c.n < 511 ∧ DesInv (Machine.allocInternal c) syms ∧
    nodeAt (Machine.allocInternal c).st.node (BitVec.ofNat 9 c.n) = { NodeRec.zero with valid := true } ∧
    ∀ i : NodeIdx, i.toNat < c.n → nodeAt (Machine.allocInternal c).st.node i = nodeAt c.st.node i := by
  have hlen := length_le_of_nodup_symbols h.nodup
  have hcount := h.count
  have hle := h.internals_le
  simp only [Config.maxInternal] at hint hle
  have hn : c.n < 511 := by omega
  refine ⟨hn, ⟨h.alloc.setNode_fresh hn rfl rfl, ?_, ?_, h.nodup, h.mapped_iff⟩,
    nodeAt_setNode_same _ _ (by rw [toNat_ofNat_of_lt hn]; exact hn), fun i hi => ?_⟩
  · simp only [Machine.allocInternal]
    omega
  · simp only [Machine.allocInternal, Config.maxInternal]
    omega
  · exact nodeAt_setNode_ne _ _ (ne_ofNat_of_lt hn hi)

/-- Two subtrees read one after the other can become the children of the node allocated before them; both are still
planted when the second has been read. -/
theorem DesInv.joinable {c ca cb : DesCtx} {syms syms' : List Symbol} {a b : NodeIdx} {t0 t1 : HTree}
    (h : DesInv c syms) (hint : c.internals ≠ Config.maxInternal) (ha : DesInv ca syms')
    (h0 : ReadTree (Machine.allocInternal c) ca a t0) (h1 : ReadTree ca cb b t1) :
    nodeAt cb.st.node (BitVec.ofNat 9 c.n) = { NodeRec.zero with valid := true } ∧
    Planted cb.st.node cb.st.leafOf t0 a ∧ Joinable cb.st.node (BitVec.ofNat 9 c.n) a b := by
  obtain ⟨hn, -, hfresh, -⟩ := h.allocInternal hint
  have hn0 : c.n + 1 < ca.n := h0.n_lt
  have hp : nodeAt cb.st.node (BitVec.ofNat 9 c.n) = { NodeRec.zero with valid := true } := by
    have hi := toNat_ofNat_of_lt hn
    rw [h1.frame _ (by omega), h0.frame _ (by simp only [Machine.allocInternal]; omega), hfresh]
  have ha0 : Planted cb.st.node cb.st.leafOf t0 a := h0.planted.grow (ha.alloc.grows h1.frame h1.entries)
  have halt : a.toNat < ca.n := (ha.alloc.valid_iff a).mp h0.planted.valid
  have htop : (nodeAt cb.st.node a).hasParent = false := by rw [h1.frame a halt]; exact h0.top
  have hne : a ≠ b := by
    have hcap := ha.alloc.le_nodeCap
    rintro rfl
    have := congrArg BitVec.toNat h1.root
    rw [BitVec.toNat_ofNat] at this
    omega
  exact ⟨hp, ha0, by rw [toNat_ofNat_of_lt hn]; exact hn, by rw [hp]; rfl, ha0.closed, h1.planted.closed,
    by rw [hp]; rfl, htop, h1.top, hne⟩

/-- Two subtrees read one after the other are closed into a tree at the node allocated before them (R163). -/
theorem DesInv.readTree_node {c ca cb : DesCtx} {syms : List Symbol} {a b : NodeIdx} {t0 t1 : HTree}
    (h : DesInv c syms) (hint : c.internals ≠ Config.maxInternal)
    (ha : DesInv ca (syms ++ t0.leaves)) (h0 : ReadTree (Machine.allocInternal c) ca a t0)
    (hb : DesInv cb (syms ++ t0.leaves ++ t1.leaves)) (h1 : ReadTree ca cb b t1) :
    DesInv (closeInternal cb (BitVec.ofNat 9 c.n) a b) (syms ++ (HTree.node t0 t1).leaves) ∧
    ReadTree c (closeInternal cb (BitVec.ofNat 9 c.n) a b) (BitVec.ofNat 9 c.n) (.node t0 t1) := by
  obtain ⟨hn, -, -, hframe⟩ := h.allocInternal hint
  obtain ⟨hp, ha0, hjoin⟩ := h.joinable hint ha h0 h1
  have hnode : (closeInternal cb (BitVec.ofNat 9 c.n) a b).st.node =
      joinNodes cb.st.node (BitVec.ofNat 9 c.n) a b
        { NodeRec.zero with valid := true, child0 := a, child1 := b, sym := (nodeAt cb.st.node a).sym } := by
    simp only [closeInternal, hp]
    rfl
  have hi := toNat_ofNat_of_lt hn
  have hn0 : c.n + 1 < ca.n := h0.n_lt
  have hn1 := h1.n_lt
  have hlt (i : NodeIdx) (hv : (nodeAt cb.st.node i).valid = true) : i.toNat < cb.n := (hb.alloc.valid_iff i).mp hv
  constructor
  · rw [HTree.leaves, ← List.append_assoc]
    refine ⟨?_, hb.count, hb.internals_le, hb.nodup, hb.mapped_iff⟩
    rw [hnode]
    exact ((hb.alloc.setNode_old (by omega) rfl rfl).linkParent (hlt a ha0.valid) _ _).linkParent
      (hlt b h1.planted.valid) _ _
  · refine ⟨rfl, ?_, ?_, ?_, hn0.trans' (Nat.lt_succ_self _) |>.trans hn1, fun i hic => ?_,
      fun sym i hi => h1.entries sym i (h0.entries sym i hi)⟩
    · rw [hnode]
      exact planted_joinNodes _ hjoin ha0 h1.planted rfl
    · rw [hnode, nodeAt_joinNodes_parent _ hjoin]
      rfl
    · have hint0 : ca.internals + 1 = c.internals + 1 + t0.leaves.length := h0.internals
      have hint1 := h1.internals
      simp only [closeInternal, HTree.leaves, List.length_append]
      omega
    · have ha_root : a = BitVec.ofNat 9 (c.n + 1) := h0.root
      have hcap := ha.alloc.le_nodeCap
      rw [hnode, nodeAt_joinNodes_ne, h1.frame i (by omega), h0.frame i (Nat.lt_succ_of_lt hic), hframe i hic]
      · exact ne_ofNat_of_lt hn hic
      · rintro rfl
        rw [ha_root, BitVec.toNat_ofNat] at hic
        omega
      · rintro rfl
        rw [h1.root, BitVec.toNat_ofNat] at hic
        omega

/-- The bits read before a subtree are no part of it. -/
theorem ReadTree.of_past {c d : DesCtx} {r : NodeIdx} {t : HTree} {k : Nat} (h : ReadTree (c.past k) d r t) :
    ReadTree c d r t :=
  ⟨h.root, h.planted, h.top, h.internals, h.n_lt, h.frame, h.entries⟩

/-- Every successful Des() plants the tree it has read, over new symbols (R163). -/
theorem des_readTree {fuel : Nat} {c d : DesCtx} {syms : List Symbol} {r : NodeIdx} (h : DesInv c syms)
    (hd : des fuel c = .ok r d) : ∃ t, DesInv d (syms ++ t.leaves) ∧ ReadTree c d r t := by
  induction fuel generalizing c d syms r with
  | zero => contradiction
  | succ fuel ih =>
    obtain ⟨rfl, ⟨k, sym, hfree, rfl⟩ | ⟨k, a, b, ca, cb, hint, h0, h1, rfl⟩⟩ := des_ok hd
    · obtain ⟨hinv, hread⟩ := (h.past k).readTree_leaf hfree
      exact ⟨.leaf sym, hinv, hread.of_past⟩
    · obtain ⟨-, hinv, -⟩ := (h.past k).allocInternal hint
      obtain ⟨t0, hinv0, hread0⟩ := ih hinv h0
      obtain ⟨t1, hinv1, hread1⟩ := ih hinv0 h1
      obtain ⟨hinv, hread⟩ := (h.past k).readTree_node hint hinv0 hread0 hinv1 hread1
      exact ⟨.node t0 t1, hinv, hread.of_past⟩

/-- The start of DESERIALIZE, on the cleared tree (R163). -/
theorem desInv_start (s : State) : DesInv { n := 0, internals := 0, bits := 0, st := clearTree s } [] where
  alloc := allocated_const
  count := rfl
  internals_le := Nat.zero_le _
  nodup := List.nodup_nil
  mapped_iff sym := by simp

/-- DESERIALIZE completes and leaves a canonical store and the tree it has read, or no tree (R33, R36, R163, R166). -/
theorem execDeserialize_completes (s : State) : ∃ t, execDeserialize s = .next t ∧ StoreInv t ∧ TreeInv t := by
  unfold execDeserialize
  cases hd : des (Config.maxDepth + 1) { n := 0, internals := 0, bits := 0, st := clearTree s } with
  | fail eos d =>
    refine ⟨_, rfl, fun r hr => ?_, .inl ?_⟩
    · rw [Table.mem_const hr]
      exact canonical_zero
    · obtain ⟨h1, h2, h3, h4⟩ := noTree_clearTree d.st
      exact ⟨h1, h2, h3, h4⟩
  | ok r d =>
    obtain ⟨t, hinv, hread⟩ := des_readTree (desInv_start s) hd
    rw [List.nil_append] at hinv
    have hcount := hinv.count
    have hint : d.internals + 1 = t.leaves.length := by simpa using hread.internals
    have hleaves : d.n - d.internals = t.leaves.length := by omega
    refine ⟨_, rfl, fun _ hr => hinv.alloc.canonical_of_mem hr, .inr ⟨r, t, ?_⟩⟩
    exact treeAt_of_planted rfl hread.planted hread.top hinv.nodup (by simp [hleaves]) hinv.alloc (by omega)
      fun sym hsym => (hinv.mapped_iff sym).mpr hsym

end Sys2Proof.Machine
end

section
/-! ### The invariant of the machine (10_state.md R33, R36, 44_control.md R184) -/

namespace Sys2Proof.Machine

open Sys2Proof

/-- The tree invariant speaks of the tree alone. -/
theorem TreeInv.congr {s t : State} (h : TreeInv s) (hst : sameTree s t) : TreeInv t := by
  obtain ⟨hnode, hmap, hroot, hcount⟩ := hst
  rcases h with hno | ⟨r, u, ht⟩
  · exact .inl ⟨hroot ▸ hno.root_eq, hcount ▸ hno.leaf_count, hnode ▸ hno.no_node, hmap ▸ hno.no_leaf⟩
  · exact .inr ⟨r, u, hroot ▸ ht.root_eq, hnode ▸ ht.held, hnode ▸ ht.top, ht.distinct, hcount ▸ ht.leaf_count,
      hnode ▸ ht.node_count, hmap ▸ hnode ▸ ht.mapped, hmap ▸ ht.unmapped⟩

theorem StoreInv.congr {s t : State} (h : StoreInv s) (hst : sameTree s t) : StoreInv t := by
  unfold StoreInv
  rw [hst.1]
  exact h

/-- A reset leaves no tree and a store of zero records (R231). -/
theorem treeInv_resetState (s : State) : StoreInv (resetState s) ∧ TreeInv (resetState s) := by
  have h := blockReset_resetState s
  exact ⟨fun r hr => by rw [h.node_zero r hr]; exact canonical_zero, .inl h.no_tree⟩

theorem HostMove.keeps_tree {op : HostOp} {s t : State} (h : HostMove op s t) (hstore : StoreInv s)
    (htree : TreeInv s) : StoreInv t ∧ TreeInv t := by
  by_cases hr : isReset op = true
  · cases h with
    | reset => exact treeInv_resetState _
    | log | lost | accept | illegal | writeFreq => exact ⟨hstore, htree.congr ⟨rfl, rfl, rfl, rfl⟩⟩
  · have hst := h.sameTree hr
    exact ⟨hstore.congr hst, htree.congr hst⟩

theorem exec_keeps_tree {i : Instr} {s t : State} (h : exec i s = .next t) (hi : i ≠ .softReset)
    (hbuild : i ≠ .build) (hdes : i ≠ .deserialize) (hstore : StoreInv s) (htree : TreeInv s) :
    StoreInv t ∧ TreeInv t := by
  obtain ⟨-, -, -, -, hframe, -⟩ := commandFrame s t i hi h
  have hst := hframe hbuild hdes
  exact ⟨hstore.congr hst, htree.congr hst⟩

/-- Every command of the engine completes on a machine with a tree or none, and leaves it so: BUILD and DESERIALIZE
make their own tree, the others leave the one that there is (R36, R184). -/
theorem exec_completes {i : Instr} {s : State} (hi : i ≠ .softReset) (hstore : StoreInv s) (htree : TreeInv s) :
    ∃ t, exec i s = .next t ∧ StoreInv t ∧ TreeInv t := by
  have hkeeps (h : ∃ t, exec i s = .next t) (hbuild : i ≠ .build) (hdes : i ≠ .deserialize) :
      ∃ t, exec i s = .next t ∧ StoreInv t ∧ TreeInv t := by
    obtain ⟨t, ht⟩ := h
    exact ⟨t, ht, exec_keeps_tree ht hi hbuild hdes hstore htree⟩
  cases i with
  | freqClear => exact hkeeps ⟨_, rfl⟩ (by simp) (by simp)
  | freqInc sym => exact hkeeps ⟨_, (apply_ite Host.Outcome.next _ _ _).symm⟩ (by simp) (by simp)
  | build => exact execBuild_completes s
  | encode sym => exact hkeeps (execEncode_completes htree sym) (by simp) (by simp)
  | decode => exact hkeeps (execDecode_completes htree) (by simp) (by simp)
  | serialize => exact hkeeps (execSerialize_completes htree) (by simp) (by simp)
  | deserialize => exact execDeserialize_completes s
  | softReset => exact absurd rfl hi

/-- Settles O47: host operations always complete, and the pending command does on the tree that the invariant gives it;
the status is StepKeepsStatus. -/
theorem stepKeepsInvariant : Obligations.StepKeepsInvariant := by
  intro s h
  have hkeeps : ∃ t, step s = .next t ∧ StoreInv t ∧ TreeInv t := by
    rcases step_cases s with ⟨hstep, -, -⟩ | ⟨op, rest, delay, -, -, hstep⟩ | ⟨p, hp, -, hstep⟩
    · exact ⟨s, hstep, h.store, h.tree⟩
    · obtain ⟨t, ht, hmove⟩ := hostStep_move op { s with hostOps := rest, delay := delay }
      exact ⟨t, hstep.trans ht, hmove.keeps_tree h.store (h.tree.congr ⟨rfl, rfl, rfl, rfl⟩)⟩
    · cases p with
      | init => exact ⟨_, hstep, h.store, h.tree.congr ⟨rfl, rfl, rfl, rfl⟩⟩
      | cmd i =>
        have hi : i ≠ .softReset := by
          rintro rfl
          exact h.status.never_reset hp
        obtain ⟨t, ht, hkeeps⟩ := exec_completes hi h.store h.tree
        exact ⟨t, hstep.trans ht, hkeeps⟩
  obtain ⟨t, ht, hstore, htree⟩ := hkeeps
  exact ⟨t, ht, stepKeepsStatus s t h.status ht, hstore, htree⟩

end Sys2Proof.Machine
end

section
/-! ### The bit channel only moves forward (10_state.md R37, 20_memory.md R65, R66, R69) -/

namespace Sys2Proof.Machine

open Sys2Proof

/-- From `s` to `t` the channel has moved forward, if at all: bits joined the sink at its end, the cursor did not move
back, and the source's bits are the same (R37, R65, R66). -/
structure ChannelForward (s t : State) : Prop where
  sink   : s.sink <+: t.sink
  src    : t.src = s.src
  srcPos : s.srcPos ≤ t.srcPos

theorem ChannelForward.refl (s : State) : ChannelForward s s :=
  ⟨List.prefix_rfl, rfl, le_refl _⟩

/-- An abort keeps the first of the command's own bits and adds to the cursor, whatever the command would have done
(R242). -/
theorem channelForward_abortPending (s : State) : ChannelForward s (abortPending s) := by
  unfold abortPending
  split
  · rename_i i _
    cases completionOutcome i s with
    | next t => exact ⟨List.prefix_append _ _, rfl, Nat.le_add_right _ _⟩
    | fault _ => exact .refl s
    | refused _ => exact .refl s
  · exact .refl s
  · exact .refl s

/-- A reset's only transfers are those of the command it aborts (R232). -/
theorem channelForward_resetState_abortPending (s : State) : ChannelForward s (resetState (abortPending s)) := by
  obtain ⟨hsink, hsrc, hpos⟩ := channelForward_abortPending s
  exact ⟨hsink, hsrc, hpos⟩

/-- The host uses no channel (R39); only its resets abort what uses it. -/
theorem HostMove.channelForward {op : HostOp} {s t : State} (h : HostMove op s t) : ChannelForward s t := by
  cases h with
  | reset => exact channelForward_resetState_abortPending s
  | log | lost | accept | illegal | writeFreq => exact ⟨List.prefix_rfl, rfl, le_refl _⟩

/-! ### The four commands that use the channel -/

theorem sink_prefix_emitBits (s : State) (bits : List Bit) : s.sink <+: (emitBits s bits).sink := by
  rw [emitBits_eq]
  exact List.prefix_append _ _

theorem execEncode_sink {sym : Symbol} {s t : State} (h : execEncode sym s = .next t) : s.sink <+: t.sink := by
  unfold execEncode at h
  split at h
  · obtain rfl := Host.Outcome.next.inj h
    exact List.prefix_rfl
  · split at h
    · contradiction
    · obtain rfl := Host.Outcome.next.inj h
      exact sink_prefix_emitBits s _

theorem execSerialize_sink {s t : State} (h : execSerialize s = .next t) : s.sink <+: t.sink := by
  unfold execSerialize at h
  split at h
  · obtain rfl := Host.Outcome.next.inj h
    exact List.prefix_rfl
  · split at h
    · contradiction
    · obtain rfl := Host.Outcome.next.inj h
      exact sink_prefix_emitBits s _

theorem execDecode_srcPos {s t : State} (h : execDecode s = .next t) : s.srcPos ≤ t.srcPos := by
  unfold execDecode at h
  split at h
  · obtain rfl := Host.Outcome.next.inj h
    exact le_refl _
  · rename_i r _
    have hwalk := descend_frame Config.maxDepth r 0 s
    split at h
    case h_3 => contradiction
    all_goals
      rename_i hd
      simp only [hd] at hwalk
      obtain ⟨-, rfl, -⟩ := hwalk
      obtain rfl := Host.Outcome.next.inj h
      exact Nat.le_add_right _ _

theorem DesCtx.Consumes.srcPos_le {c d : DesCtx} (h : c.Consumes d) : c.st.srcPos ≤ d.st.srcPos := by
  obtain ⟨-, ⟨_, _, hst⟩, -⟩ := h
  rw [hst]
  exact Nat.le_add_right _ _

theorem execDeserialize_srcPos {s t : State} (h : execDeserialize s = .next t) : s.srcPos ≤ t.srcPos := by
  have hread := (des_consumes (Config.maxDepth + 1) { n := 0, internals := 0, bits := 0, st := clearTree s }).srcPos_le
  unfold execDeserialize at h
  split at h
  all_goals
    rename_i hd
    rw [hd] at hread
    obtain rfl := Host.Outcome.next.inj h
    exact hread

/-- Every command moves the channel forward: by the frame of the commands, each command but two leaves the sink and
each but two the cursor; SOFT_RESET is an abort. -/
theorem exec_channelForward {i : Instr} {s t : State} (h : exec i s = .next t) : ChannelForward s t := by
  by_cases hi : i = .softReset
  · subst hi
    obtain rfl := Host.Outcome.next.inj h
    exact channelForward_resetState_abortPending s
  obtain ⟨-, -, hsrc, -, -, hsink, hpos, -⟩ := commandFrame s t i hi h
  refine ⟨?_, hsrc, ?_⟩
  · cases i with
    | encode sym => exact execEncode_sink h
    | serialize => exact execSerialize_sink h
    | _ => exact (hsink (by simp) (by simp)) ▸ List.prefix_rfl
  · cases i with
    | decode => exact execDecode_srcPos h
    | deserialize => exact execDeserialize_srcPos h
    | _ => exact (hpos (by simp) (by simp)).ge

/-- Settles O50: each of a step's moves moves the channel forward. -/
theorem channelMovesForward : Obligations.ChannelMovesForward := by
  intro s t h
  have hforward : ChannelForward s t := by
    rcases step_move h with rfl | ⟨op, rest, delay, -, hmove⟩ | ⟨-, -, rfl⟩ | ⟨i, -, -, hexec⟩
    · exact .refl t
    · obtain ⟨hsink, hsrc, hpos⟩ := hmove.channelForward
      exact ⟨hsink, hsrc, hpos⟩
    · exact ⟨List.prefix_rfl, rfl, le_refl _⟩
    · exact exec_channelForward hexec
  exact ⟨hforward.sink, hforward.src, hforward.srcPos⟩

end Sys2Proof.Machine
end

section
/-! ### What a host read changes (20_memory.md R68, 44_control.md R185) -/

namespace Sys2Proof.Machine

open Sys2Proof

/-- A read of an idle block draws nothing (R185, first column). -/
theorem hostRead_of_idle (a : PortAddr) {s : State} (h : s.pending = none) :
    hostRead a s = (idleRead (portReg a) s, s) := by
  simp only [hostRead, h]

/-- Settles O44: HostRead leaves all but the draw counter, and an idle block that too; the read log is the host's. -/
theorem readsHaveNoSideEffect : Obligations.ReadsHaveNoSideEffect := by
  intro s a
  refine ⟨(hostRead a s).2.draws, ?_, fun hp => by rw [hostRead_of_idle a hp]⟩
  rcases hostRead_frame a s with h | h
  · simp only [hostStep, logRead, h]
  · simp only [hostStep, logRead, h, drawn]

end Sys2Proof.Machine
end

section
/-! ### The decoder and the encoder by fields (30_encoding.md R80, R82, R83, R84) -/

namespace Sys2Proof

/-- The fields of a command's word (R80). -/
def Instr.fields (i : Instr) : CmdFields := { rsvd := 0#16, sym := i.symField, op := i.opcode }

theorem fieldsOfWord_encode (i : Instr) : fieldsOfWord (encode i) = i.fields := by
  simp (disch := decide) only [fieldsOfWord, encode, Instr.fields, BitVec.extractLsb'_append_eq_of_le,
    BitVec.extractLsb'_append_eq_of_add_le]
  simp

/-- A word is its three fields put together (R80). -/
theorem word_eq_append_fields (w : Word) :
    w = (fieldsOfWord w).rsvd ++ (fieldsOfWord w).sym ++ (fieldsOfWord w).op := by
  simp only [fieldsOfWord]
  rw [BitVec.extractLsb'_append_extractLsb'_eq_extractLsb' (by rfl),
    BitVec.extractLsb'_append_extractLsb'_eq_extractLsb' (by rfl)]
  exact BitVec.extractLsb'_eq_self.symm

theorem fieldsOfWord_injective : Function.Injective fieldsOfWord := by
  intro v w h
  rw [word_eq_append_fields v, word_eq_append_fields w, h]

theorem eq_encode_iff {w : Word} {i : Instr} : w = encode i ↔ fieldsOfWord w = i.fields := by
  rw [← fieldsOfWord_encode]
  exact fieldsOfWord_injective.eq_iff.symm

/-- The format-N commands are found by their OP (R82). -/
theorem formatNCommand_eq_some_iff {op : BitVec 8} {i : Instr} :
    formatNCommand op = some i ↔ i.format = .n ∧ op = i.opcode := by
  constructor
  · intro h
    unfold formatNCommand at h
    split_ifs at h
    all_goals
      obtain rfl := Option.some.inj h
      exact ⟨rfl, ‹_›⟩
  · rintro ⟨hformat, rfl⟩
    cases i with
    | freqInc | encode => contradiction
    | _ => rfl

theorem symField_of_formatN {i : Instr} (h : i.format = .n) : i.symField = 0#8 := by
  cases i with
  | freqInc | encode => contradiction
  | _ => rfl

/-- The decoder by branch, in R83's order of tests: what it answers, under exactly the conditions of the branch. -/
theorem decodeFields_cases (f : CmdFields) :
    (f.rsvd ≠ 0#16 ∧ decodeFields f = .illegal .reservedBits) ∨
    (f.rsvd = 0#16 ∧
      ((f.op = 0x02#8 ∧ decodeFields f = .legal (.freqInc f.sym)) ∨
       (f.op = 0x04#8 ∧ decodeFields f = .legal (.encode f.sym)) ∨
       (∃ i, formatNCommand f.op = some i ∧ f.sym = 0#8 ∧ decodeFields f = .legal i) ∨
       (∃ i, formatNCommand f.op = some i ∧ f.sym ≠ 0#8 ∧ decodeFields f = .illegal .symNotZero) ∨
       (f.op ≠ 0x02#8 ∧ f.op ≠ 0x04#8 ∧ formatNCommand f.op = none ∧ decodeFields f = .illegal .unknownOp))) := by
  unfold decodeFields
  by_cases hrsvd : f.rsvd = 0#16
  case neg => exact .inl ⟨hrsvd, if_pos hrsvd⟩
  refine .inr ⟨hrsvd, ?_⟩
  rw [if_neg (not_not_intro hrsvd)]
  by_cases hinc : f.op = 0x02#8
  · exact .inl ⟨hinc, if_pos hinc⟩
  by_cases henc : f.op = 0x04#8
  · exact .inr (.inl ⟨henc, by rw [if_neg hinc, if_pos henc]⟩)
  rw [if_neg hinc, if_neg henc]
  cases hn : formatNCommand f.op with
  | none => exact .inr (.inr (.inr (.inr ⟨hinc, henc, rfl, rfl⟩)))
  | some i =>
    by_cases hsym : f.sym = 0#8
    · exact .inr (.inr (.inl ⟨i, rfl, hsym, if_neg (not_not_intro hsym)⟩))
    · exact .inr (.inr (.inr (.inl ⟨i, rfl, hsym, if_pos hsym⟩)))

end Sys2Proof
end

section
/-! ### Legal and illegal command words (30_encoding.md R80, R82, R83, R84) -/

namespace Sys2Proof

theorem decodeFields_fields (i : Instr) : decodeFields i.fields = .legal i := by
  cases i <;> rfl

theorem decodeFields_eq_legal_iff {f : CmdFields} {i : Instr} : decodeFields f = .legal i ↔ f = i.fields := by
  refine ⟨fun h => ?_, fun h => h ▸ decodeFields_fields i⟩
  obtain ⟨rsvd, sym, op⟩ := f
  rcases decodeFields_cases ⟨rsvd, sym, op⟩ with
    ⟨-, hd⟩ | ⟨rfl, ⟨rfl, hd⟩ | ⟨rfl, hd⟩ | ⟨j, hj, rfl, hd⟩ | ⟨-, -, -, hd⟩ | ⟨-, -, -, hd⟩⟩
  · cases h.symm.trans hd
  · cases h.symm.trans hd
    rfl
  · cases h.symm.trans hd
    rfl
  · cases h.symm.trans hd
    obtain ⟨hformat, rfl⟩ := formatNCommand_eq_some_iff.mp hj
    rw [Instr.fields, symField_of_formatN hformat]
  · cases h.symm.trans hd
  · cases h.symm.trans hd

/-- Settles O1: decoder and encoder meet in the fields, which a word and a command both determine. -/
theorem decodeInvertsEncode : Obligations.DecodeInvertsEncode :=
  fun _ _ => decodeFields_eq_legal_iff.trans eq_encode_iff.symm

/-- The OPs of format N (R82, R84 (c)). -/
theorem exists_formatNCommand_iff {op : BitVec 8} :
    (∃ i, formatNCommand op = some i) ↔ op.toNat ∈ [0x01, 0x03, 0x05, 0x06, 0x07, 0x08] := by
  simp only [← Option.isSome_iff_exists, formatNCommand]
  split_ifs <;> simp_all
  bv_omega

/-- The OPs of no row of the opcode map (R82, R84 (b)). -/
theorem unknownOp_iff {op : BitVec 8} :
    (op = 0#8 ∨ 9 ≤ op.toNat) ↔ op ≠ 0x02#8 ∧ op ≠ 0x04#8 ∧ formatNCommand op = none := by
  rw [← Option.not_isSome_iff_eq_none, Option.isSome_iff_exists, exists_formatNCommand_iff]
  simp only [List.mem_cons, List.not_mem_nil, or_false]
  bv_omega

/-- The three cases of R84, each under exactly the tests of R83 that lead to it. -/
theorem decodeFields_illegal_iff (f : CmdFields) :
    (decodeFields f = .illegal .reservedBits ↔ f.rsvd ≠ 0#16) ∧
    (decodeFields f = .illegal .unknownOp ↔
      f.rsvd = 0#16 ∧ f.op ≠ 0x02#8 ∧ f.op ≠ 0x04#8 ∧ formatNCommand f.op = none) ∧
    (decodeFields f = .illegal .symNotZero ↔
      f.rsvd = 0#16 ∧ f.sym ≠ 0#8 ∧ ∃ i, formatNCommand f.op = some i) := by
  rcases decodeFields_cases f with
    ⟨hrsvd, hd⟩ | ⟨hrsvd, ⟨hop, hd⟩ | ⟨hop, hd⟩ | ⟨i, hi, hsym, hd⟩ | ⟨i, hi, hsym, hd⟩ | ⟨hinc, henc, hn, hd⟩⟩
  · simp [hd, hrsvd]
  · simp [hd, hrsvd, hop, formatNCommand]
  · simp [hd, hrsvd, hop, formatNCommand]
  · simp [hd, hrsvd, hsym, hi]
  · simp [hd, hrsvd, hsym, hi]
  · simp [hd, hrsvd, hinc, henc, hn]

/-- Settles O2: the tests on OP are R84's sets of OPs. -/
theorem illegalWordCases : Obligations.IllegalWordCases := by
  intro w
  rw [unknownOp_iff, ← exists_formatNCommand_iff]
  exact decodeFields_illegal_iff (fieldsOfWord w)

/-- Settles O4. -/
theorem specWordsDecode : Obligations.SpecWordsDecode := by
  unfold Obligations.SpecWordsDecode
  decide

end Sys2Proof
end

section
/-! ### The opcode map (30_encoding.md R82) -/

namespace Sys2Proof

theorem rowOf_statement (i : Instr) : Laws.RowOf.Statement i := by
  cases i with
  | freqClear => exact Laws.RowOf.freqClear
  | freqInc sym => exact Laws.RowOf.freqInc sym
  | build => exact Laws.RowOf.build
  | encode sym => exact Laws.RowOf.encode sym
  | decode => exact Laws.RowOf.decode
  | serialize => exact Laws.RowOf.serialize
  | deserialize => exact Laws.RowOf.deserialize
  | softReset => exact Laws.RowOf.softReset

/-- The rows a command's word selects are one. -/
theorem exists_filter_selects_encode (i : Instr) :
    ∃ r, (opcodeMap.filter fun r => r.selects (encode i)) = [r] := by
  obtain ⟨-, hrows⟩ := rowOf_statement i
  obtain ⟨r, hr, -⟩ := List.map_eq_singleton_iff.mp hrows
  exact ⟨r, hr⟩

/-- The mask of format S compares the reserved bits and OP, and leaves SYM free (R82). -/
theorem fieldsOfWord_of_formatS_mask {w p : Word} (h : w &&& 0xFFFF00FF#32 = p) :
    fieldsOfWord w = { fieldsOfWord p with sym := w.extractLsb' 8 8 } := by
  have hrsvd : (0xFFFF00FF#32).extractLsb' 16 16 = BitVec.allOnes 16 := rfl
  have hop : (0xFFFF00FF#32).extractLsb' 0 8 = BitVec.allOnes 8 := rfl
  simp only [← h, fieldsOfWord, BitVec.extractLsb'_and, hrsvd, hop, BitVec.and_allOnes]

/-- Only commands' words select a row: the mask of format N compares the whole word. -/
theorem exists_eq_encode_of_selects {r : OpcodeRow} {w : Word} (hr : r ∈ opcodeMap) (h : r.selects w = true) :
    ∃ i, w = encode i := by
  simp only [opcodeMap, List.mem_cons, List.not_mem_nil, or_false] at hr
  simp only [OpcodeRow.selects, beq_iff_eq] at h
  have hN {m : Word} (hm : w &&& 0xFFFFFFFF#32 = m) : w = m := by rw [← hm]; exact (BitVec.and_allOnes).symm
  rcases hr with rfl | rfl | rfl | rfl | rfl | rfl | rfl | rfl
  · exact ⟨.freqClear, hN h⟩
  · exact ⟨.freqInc _, eq_encode_iff.mpr (fieldsOfWord_of_formatS_mask h)⟩
  · exact ⟨.build, hN h⟩
  · exact ⟨.encode _, eq_encode_iff.mpr (fieldsOfWord_of_formatS_mask h)⟩
  · exact ⟨.decode, hN h⟩
  · exact ⟨.serialize, hN h⟩
  · exact ⟨.deserialize, hN h⟩
  · exact ⟨.softReset, hN h⟩

/-- Settles O3: the words that select a row are the commands' words, and each of those selects one row. -/
theorem opcodeMapSelectsLegalWords : Obligations.OpcodeMapSelectsLegalWords := by
  intro w
  simp only [decodeInvertsEncode w _]
  refine ⟨⟨?_, fun ⟨r, hr, h⟩ => exists_eq_encode_of_selects hr h⟩, fun r1 hr1 r2 hr2 h1 h2 => ?_⟩
  · rintro ⟨i, rfl⟩
    obtain ⟨r, hrow⟩ := exists_filter_selects_encode i
    exact ⟨r, List.mem_filter.mp (hrow ▸ List.mem_singleton_self r)⟩
  · obtain ⟨i, rfl⟩ := exists_eq_encode_of_selects hr1 h1
    obtain ⟨r, hrow⟩ := exists_filter_selects_encode i
    have heq {r' : OpcodeRow} (hr : r' ∈ opcodeMap) (h : r'.selects (encode i) = true) : r' = r :=
      List.mem_singleton.mp (hrow ▸ List.mem_filter.mpr ⟨hr, h⟩)
    rw [heq hr1 h1, heq hr2 h2]

end Sys2Proof
end

section
/-! ### WAIT ends (30_encoding.md R89, 44_control.md R187) -/

namespace Sys2Proof.Machine

open Sys2Proof

theorem core_run_succ {s t : State} (h : step s = .next t) (n : Nat) : core.run (n + 1) s = core.run n t := by
  simp only [Host.Core.run, show core.step s = .next t from h]

/-- BUSY is bit 0 of STATUS (R27). -/
theorem statusFields_getLsbD_zero (errOp : BitVec 8) (errCode : BitVec 4) (errEos valid overrun err busy : Bool) :
    (statusFields errOp errCode errEos valid overrun err busy).getLsbD 0 = busy := by
  simp only [statusFields, BitVec.getLsbD_append]
  simp

/-- A host read of STATUS shows BUSY as it is, whatever is pending (R185). -/
theorem hostRead_status_getLsbD_zero (s : State) : (hostRead Config.statusAddr s).1.getLsbD 0 = busy s := by
  have hword (valid : Bool) : (statusWord s valid).getLsbD 0 = busy s := by
    unfold statusWord
    split <;> simp_all only [statusFields_getLsbD_zero, Bool.not_eq_true]
  have hreg : portReg Config.statusAddr = .status := rfl
  unfold hostRead
  split
  · exact hword _
  · rw [hreg, busyRead]
    split
    · exact hword _
    · exact hword _

/-- A poll of an idle block ends the WAIT. -/
theorem pollWait_of_idle {s : State} (h : s.pending = none) :
    (pollWait s).hostOps = s.hostOps ∧ (pollWait s).pending = none := by
  rw [pollWait, hostRead_status_getLsbD_zero, busy, h]
  obtain ⟨_, _, hlog⟩ := logRead_eq Config.statusAddr s
  rw [hlog]
  exact ⟨rfl, h⟩

/-- A poll of a busy block leaves the WAIT to be done. -/
theorem pollWait_of_busy {s : State} {p : Pending} (h : s.pending = some p) :
    (pollWait s).hostOps = .wait :: s.hostOps ∧ (pollWait s).delay = s.delay := by
  rw [pollWait, hostRead_status_getLsbD_zero, busy, h]
  obtain ⟨_, _, hlog⟩ := logRead_eq Config.statusAddr s
  rw [hlog]
  exact ⟨rfl, rfl⟩

/-- The completion step of what is pending gives an idle block and leaves the host's operations (R182, R184). -/
theorem engineStep_ends {s : State} {p : Pending} (h : Inv s) (hp : s.pending = some p) :
    ∃ t, engineStep p s = .next t ∧ t.hostOps = s.hostOps ∧ t.pending = none := by
  cases p with
  | init => exact ⟨_, rfl, rfl, rfl⟩
  | cmd i =>
    have hi : i ≠ .softReset := by
      rintro rfl
      exact h.status.never_reset hp
    obtain ⟨t, ht, -⟩ := exec_completes hi h.store h.tree
    obtain ⟨hpending, ⟨hops, -⟩, -⟩ := commandFrame s t i hi ht
    exact ⟨t, ht, hops, hpending⟩

/-- WAIT on an idle block is one step. -/
theorem step_wait_of_idle {s : State} {rest : List HostOp} (hops : s.hostOps = .wait :: rest)
    (hp : s.pending = none) : ∃ t, step s = .next t ∧ t.hostOps = rest ∧ t.pending = none := by
  rcases turn_idle hp with ⟨-, hnil⟩ | ⟨op, rest', hops', hturn⟩
  · simp [hops] at hnil
  · obtain ⟨rfl, rfl⟩ := List.cons.inj (hops.symm.trans hops')
    exact ⟨_, by rw [step, hturn]; rfl, pollWait_of_idle (s := { s with hostOps := rest }) hp⟩

/-- WAIT on a busy block: the completion step, or a poll that takes one off the delay. -/
theorem step_wait_of_busy {s : State} {p : Pending} {rest : List HostOp} (h : Inv s)
    (hops : s.hostOps = .wait :: rest) (hp : s.pending = some p) :
    ∃ t, step s = .next t ∧ t.hostOps = .wait :: rest ∧
      (t.pending = none ∨ t.delay + 1 = s.delay) := by
  rcases turn_pending hp with ⟨hturn, -⟩ | ⟨op, rest', hops', hdelay, hturn⟩
  · obtain ⟨t, ht, hkept, hidle⟩ := engineStep_ends h hp
    exact ⟨t, by rw [step, hturn]; exact ht, hkept.trans hops, .inl hidle⟩
  · obtain ⟨rfl, rfl⟩ := List.cons.inj (hops.symm.trans hops')
    obtain ⟨hpoll, hleft⟩ := pollWait_of_busy (s := { s with hostOps := rest, delay := s.delay - 1 }) hp
    refine ⟨_, by rw [step, hturn]; rfl, hpoll, .inr ?_⟩
    rw [hleft]
    exact Nat.sub_add_cancel (Nat.pos_of_ne_zero hdelay)

/-- Settles O55, by induction on the delay: a poll of a busy block takes one off it, the completion step leaves an idle
block, and a poll of an idle block ends the WAIT. -/
theorem waitEnds : Obligations.WaitEnds := by
  intro s rest h hops
  induction hd : s.delay using Nat.strong_induction_on generalizing s with
  | _ d ih =>
    rcases Option.eq_none_or_eq_some s.pending with hp | ⟨p, hp⟩
    · obtain ⟨t, ht, hdone⟩ := step_wait_of_idle hops hp
      exact ⟨1, by omega, t, core_run_succ ht 0, hdone⟩
    obtain ⟨t, ht, hwait, hidle | hdelay⟩ := step_wait_of_busy h hops hp
    · obtain ⟨u, hu, hdone⟩ := step_wait_of_idle hwait hidle
      exact ⟨2, by omega, u, (core_run_succ ht 1).trans (core_run_succ hu 0), hdone⟩
    · obtain ⟨t', ht', hinv⟩ := stepKeepsInvariant s h
      obtain rfl := Host.Outcome.next.inj (ht.symm.trans ht')
      obtain ⟨n, hn, u, hu, hdone⟩ := ih t.delay (by omega) t hinv hwait rfl
      exact ⟨n + 1, by omega, u, (core_run_succ ht n).trans hu, hdone⟩

end Sys2Proof.Machine
end

section
/-! ### The frequency table (40_frequency.md R100 to R103, 70_reset_and_hazards.md R236) -/

namespace Sys2Proof.Machine

open Sys2Proof

theorem exec_freqInc_of_ne {s : State} {sym : Symbol} (h : getFreq s sym ≠ 0xFFFFFFFF#32) :
    exec (.freqInc sym) s = .next (finish (setFreq s sym (getFreq s sym + 1#32)) (getFreq s sym + 1#32)) :=
  if_neg h

@[simp] theorem getFreq_finish (s : State) (r : Word) (sym : Symbol) : getFreq (finish s r) sym = getFreq s sym := rfl

/-- Settles O8. -/
theorem freqClearZeroesCounts : Obligations.FreqClearZeroesCounts := by
  intro s
  refine ⟨finish { s with freq := Table.const 256 0#32 } 0#32, rfl, fun sym => Table.get_const _ _, ?_⟩
  simp [sameTree, sameError, sameChannel, sameHost]

/-- Settles O9: the count is not the last 32-bit value, so adding one does not wrap. -/
theorem freqIncCountsOne : Obligations.FreqIncCountsOne := by
  intro s sym h
  have hadd : (getFreq s sym + 1#32).toNat = (getFreq s sym).toNat + 1 := by bv_omega
  refine ⟨_, exec_freqInc_of_ne h, by simpa using hadd, by simp, fun other hother => ?_, ?_⟩
  · exact getFreq_setFreq_ne s _ hother
  · simp [sameTree, sameError, sameChannel, sameHost]

theorem execAll_cons_of_next {i : Instr} {s t : State} (h : exec i s = .next t) (is : List Instr) :
    execAll (i :: is) s = execAll is t := by
  rw [execAll, h]

/-- A FREQ_INC per byte adds to every count how often its symbol occurs, as long as no count would pass 2^32-1. -/
theorem execAll_freqInc_adds_count (buf : List Symbol) (s : State)
    (hfit : ∀ sym, (getFreq s sym).toNat + buf.count sym ≤ 2 ^ 32 - 1) :
    ∃ t, execAll (buf.map .freqInc) s = .next t ∧
      ∀ sym, (getFreq t sym).toNat = (getFreq s sym).toNat + buf.count sym := by
  induction buf generalizing s with
  | nil => exact ⟨s, rfl, fun _ => rfl⟩
  | cons b buf ih =>
    have hne : getFreq s b ≠ 0xFFFFFFFF#32 := by
      intro hmax
      have hb := hfit b
      simp [hmax] at hb
    obtain ⟨u, hu, hsame, -, hother, -⟩ := freqIncCountsOne s b hne
    have hstep (sym : Symbol) :
        (getFreq u sym).toNat + buf.count sym = (getFreq s sym).toNat + (b :: buf).count sym := by
      by_cases h : sym = b
      · rw [h, hsame, List.count_cons_self]
        omega
      · rw [hother sym h, List.count_cons_of_ne (Ne.symm h)]
    obtain ⟨t, ht, hcount⟩ := ih u fun sym => (hstep sym).trans_le (hfit sym)
    exact ⟨t, (execAll_cons_of_next hu _).trans ht, fun sym => (hcount sym).trans (hstep sym)⟩

/-- The occurrences of every symbol, each symbol counted once, make up the whole buffer (R100). -/
theorem sum_count_of_nodup {syms : List Symbol} (hnodup : syms.Nodup) (hall : ∀ sym, sym ∈ syms)
    (buf : List Symbol) : (syms.map fun sym => buf.count sym).sum = buf.length := by
  have hcard := Multiset.sum_count_eq_card (m := buf) fun sym _ => List.mem_toFinset.mpr (hall sym)
  simpa only [Multiset.coe_card, Multiset.coe_count, List.sum_toFinset _ hnodup] using hcard

/-- Settles O11: no count passes the buffer's length, so each FREQ_INC after the FREQ_CLEAR adds one. -/
theorem freqCountsBuffer : Obligations.FreqCountsBuffer := by
  intro s buf hlen
  obtain ⟨u, hu, hzero, -⟩ := freqClearZeroesCounts s
  have hstart (sym : Symbol) : (getFreq u sym).toNat + buf.count sym = buf.count sym := by simp [hzero sym]
  obtain ⟨t, ht, hcount⟩ := execAll_freqInc_adds_count buf u fun sym =>
    (hstart sym).trans_le (List.count_le_length.trans hlen)
  have hfreq (sym : Symbol) : (getFreq t sym).toNat = buf.count sym := (hcount sym).trans (hstart sym)
  refine ⟨t, (execAll_cons_of_next hu _).trans ht, hfreq, ?_⟩
  simp only [hfreq]
  exact sum_count_of_nodup nodup_allSymbols mem_allSymbols buf

/-- A symbol's address in the FREQ window names that symbol's count (R23). -/
theorem portReg_freqBase_add (sym : Symbol) : portReg (Config.freqBase + sym.setWidth 12) = .freq sym := by
  have hbelow (k : PortAddr) (hk : k.toNat < 0x100) : Config.freqBase + sym.setWidth 12 ≠ k := by
    simp only [Config.freqBase]
    bv_omega
  have hlo : ¬ Config.freqBase + sym.setWidth 12 < Config.freqBase := by
    simp only [Config.freqBase]
    bv_omega
  have hhi : Config.freqBase + sym.setWidth 12 < Config.leafOfBase := by
    simp only [Config.freqBase, Config.leafOfBase]
    bv_omega
  have hsym : (Config.freqBase + sym.setWidth 12 - Config.freqBase).setWidth 8 = sym := by
    simp only [Config.freqBase]
    bv_omega
  simp only [portReg, hlo, hhi, hsym, if_true, if_false]
  simp (disch := decide) only [hbelow, if_false]

theorem hostStep_asmSetf (sym : Symbol) (v : Word) (s : State) :
    hostStep (asmSetf sym v) s = .next (writeFreq sym v s) := by
  simp only [asmSetf, hostStep, hostWrite, portReg_freqBase_add]

/-- Settles O38: SETF's address is that of the symbol's count, and the write has the three branches of R103. -/
theorem freqWrite : Obligations.FreqWrite := by
  intro s sym v
  rw [hostStep_asmSetf]
  refine ⟨fun hp => ?_, fun hp he => ?_, fun hp he => ?_⟩
  · obtain ⟨p, hp⟩ := Option.ne_none_iff_exists'.mp hp
    simp [writeFreq, busy, hp]
  · simp [writeFreq, busy, hp, he]
  · have hset : writeFreq sym v s = setFreq s sym v := by simp [writeFreq, busy, hp, he]
    exact ⟨_, congrArg Host.Outcome.next hset, getFreq_setFreq_same s sym v,
      fun other h => getFreq_setFreq_ne s v h, rfl⟩

end Sys2Proof.Machine
end

section
/-! ### ENCODE on the machine's tree, and a buffer's encoded length (42_encode_decode.md R140, R142, 41_tree_build.md
R129) -/

namespace Sys2Proof

/-- A symbol of the tree has a code. -/
theorem HTree.exists_code_of_mem_leaves {h : HTree} {sym : Symbol} (hsym : sym ∈ h.leaves) :
    ∃ code, (sym, code) ∈ h.codes := by
  rw [← h.map_fst_codes] at hsym
  obtain ⟨⟨_, code⟩, hp, rfl⟩ := List.mem_map.mp hsym
  exact ⟨code, hp⟩

/-- A table that has every key once and the code `code` under `sym`: the sum that takes only the entries of `sym` into
account is the length of that code. -/
theorem sum_length_of_key {codes : List (Symbol × List Bit)} (hnodup : (codes.map Prod.fst).Nodup) {sym : Symbol}
    {code : List Bit} (hp : (sym, code) ∈ codes) :
    (codes.map fun p => if sym = p.1 then p.2.length else 0).sum = code.length := by
  induction codes with
  | nil => simp at hp
  | cons q codes ih =>
    rw [List.map_cons, List.nodup_cons] at hnodup
    obtain ⟨hq, hnodup⟩ := hnodup
    rw [List.map_cons, List.sum_cons]
    rcases List.mem_cons.mp hp with rfl | hp
    · have hrest : (codes.map fun p => if sym = p.1 then p.2.length else 0) = codes.map fun _ => 0 :=
        List.map_congr_left fun p hp => if_neg fun e => hq (List.mem_map.mpr ⟨p, hp, e.symm⟩)
      simp [hrest]
    · have hne : sym ≠ q.1 := by
        rintro rfl
        exact hq (List.mem_map.mpr ⟨_, hp, rfl⟩)
      rw [if_neg hne, ih hnodup hp, Nat.zero_add]

/-- The bits of a buffer under a code table: count times code length, over the table (R129). -/
def encodedLength (codes : List (Symbol × List Bit)) (buf : List Symbol) : Nat :=
  (codes.map fun p => buf.count p.1 * p.2.length).sum

/-- One more byte adds the length of its code. -/
theorem encodedLength_cons {codes : List (Symbol × List Bit)} (hnodup : (codes.map Prod.fst).Nodup) {sym : Symbol}
    {code : List Bit} (hp : (sym, code) ∈ codes) (buf : List Symbol) :
    encodedLength codes (sym :: buf) = code.length + encodedLength codes buf := by
  have hterm (p : Symbol × List Bit) : (sym :: buf).count p.1 * p.2.length =
      (if sym = p.1 then p.2.length else 0) + buf.count p.1 * p.2.length := by
    rw [List.count_cons]
    by_cases e : sym = p.1 <;> simp [e, Nat.add_mul, Nat.add_comm]
  simp only [encodedLength, hterm]
  rw [List.sum_map_add, sum_length_of_key hnodup hp]

namespace Machine

/-- The tree is in the node store, LEAF_OF, ROOT and LEAF_COUNT alone. -/
theorem TreeAt.congr {s t : State} {r : NodeIdx} {h : HTree} (ht : TreeAt s r h) (hst : sameTree s t) :
    TreeAt t r h := by
  obtain ⟨hnode, hmap, hroot, hcount⟩ := hst
  exact ⟨hroot ▸ ht.root_eq, hnode ▸ ht.held, hnode ▸ ht.top, ht.distinct, hcount ▸ ht.leaf_count,
    hnode ▸ ht.node_count, hmap ▸ hnode ▸ ht.mapped, hmap ▸ ht.unmapped⟩

/-- ENCODE of a symbol of the tree emits its code, whose length is RESULT (R140). -/
theorem TreeAt.exec_encode {s : State} {r : NodeIdx} {h : HTree} (ht : TreeAt s r h) {sym : Symbol} {code : List Bit}
    (hp : (sym, code) ∈ h.codes) :
    exec (.encode sym) s = .next (finish (emitBits s code) (BitVec.ofNat 32 code.length)) := by
  simp [exec, execEncode, ht.mapped _ hp, ht.climb_eq hp]

theorem TreeAt.emitted {s : State} {r : NodeIdx} {h : HTree} (ht : TreeAt s r h) (code : List Bit) (result : Word) :
    TreeAt (finish (emitBits s code) result) r h := by
  rw [emitBits_eq]
  exact ht.congr ⟨rfl, rfl, rfl, rfl⟩

/-- Settles O19, by induction on the buffer: each ENCODE emits one code and leaves the tree. -/
theorem encodedBufferLength : Obligations.EncodedBufferLength := by
  intro s r h buf ht hbuf
  induction buf generalizing s with
  | nil => exact ⟨s, rfl, by simp⟩
  | cons sym buf ih =>
    obtain ⟨hsym, hbuf⟩ := List.forall_mem_cons.mp hbuf
    obtain ⟨code, hp⟩ := HTree.exists_code_of_mem_leaves hsym
    obtain ⟨u, hu, hlen⟩ := ih _ (ht.emitted code (BitVec.ofNat 32 code.length)) hbuf
    refine ⟨u, (execAll_cons_of_next (ht.exec_encode hp) _).trans hu, ?_⟩
    have hcons := encodedLength_cons (h.map_fst_codes ▸ ht.distinct) hp buf
    simp only [encodedLength] at hcons
    rw [hlen, hcons, finish_sink, emitBits_eq, List.length_append, Nat.add_assoc]

end Machine
end Sys2Proof
end

section
/-! ### The forest of the abstract builder: weights, the order of the queue, and what merging keeps (41_tree_build.md
R121, R126, R127) -/

namespace Sys2Proof

open Sys2Proof.Machine

namespace HTree

variable {freq : FreqFile}

/-- The comparator's key of a tree (R121). -/
def key (freq : FreqFile) (t : HTree) : Nat := t.weight freq * 256 + t.rep.toNat

theorem before_iff {t u : HTree} : before freq t u = true ↔ t.key freq < u.key freq := by
  have ht := t.rep.isLt
  have hu := u.rep.isLt
  simp only [before, key, Bool.or_eq_true, Bool.and_eq_true, decide_eq_true_eq, beq_iff_eq, BitVec.lt_def]
  omega

theorem weight_le_of_key_le {t u : HTree} (h : t.key freq ≤ u.key freq) : t.weight freq ≤ u.weight freq := by
  have ht := t.rep.isLt
  have hu := u.rep.isLt
  unfold key at h
  omega

/-- The weight is the sum of the leaves' counts. -/
theorem weight_eq_sum (freq : FreqFile) (t : HTree) :
    t.weight freq = (t.leaves.map fun sym => (freq.get (symIndex sym)).toNat).sum := by
  induction t with
  | leaf sym => simp [weight, leaves]
  | node t0 t1 ih0 ih1 => simp [weight, leaves, ih0, ih1]

theorem weight_lt_mul (freq : FreqFile) (t : HTree) : t.weight freq < t.leaves.length * 2 ^ 32 := by
  induction t with
  | leaf sym => simpa [weight, leaves] using (freq.get (symIndex sym)).isLt
  | node t0 t1 ih0 ih1 =>
    rw [weight, leaves, List.length_append]
    omega

/-- No weight overflows: a tree of distinct symbols is lighter than 2^40 (R126). -/
theorem weight_lt (freq : FreqFile) {t : HTree} (h : t.leaves.Nodup) : t.weight freq < 2 ^ 40 := by
  have := length_le_of_nodup_symbols h
  have := t.weight_lt_mul freq
  omega

/-- A forest in the order of the queue (R121). -/
def Sorted (freq : FreqFile) (fs : List HTree) : Prop := fs.Pairwise fun t u => t.key freq ≤ u.key freq

theorem insertTree_perm (freq : FreqFile) (t : HTree) (us : List HTree) : (insertTree freq t us).Perm (t :: us) := by
  induction us with
  | nil => exact .refl _
  | cons u us ih =>
    rw [insertTree]
    split
    · exact .refl _
    · exact (ih.cons u).trans (.swap t u us)

theorem length_insertTree (freq : FreqFile) (t : HTree) (us : List HTree) :
    (insertTree freq t us).length = us.length + 1 := (insertTree_perm freq t us).length_eq

theorem Sorted.tail {t : HTree} {ts : List HTree} (h : Sorted freq (t :: ts)) : Sorted freq ts := List.Pairwise.tail h

theorem Sorted.insertTree {us : List HTree} (h : Sorted freq us) (t : HTree) :
    Sorted freq (insertTree freq t us) := by
  induction us with
  | nil => exact List.pairwise_singleton _ _
  | cons u us ih =>
    obtain ⟨hu, hus⟩ := List.pairwise_cons.mp h
    rw [HTree.insertTree]
    split
    next hlt =>
      have hlt := before_iff.mp hlt
      refine List.pairwise_cons.mpr ⟨fun v hv => ?_, h⟩
      rcases List.mem_cons.mp hv with rfl | hv
      · exact hlt.le
      · exact hlt.le.trans (hu v hv)
    next hge =>
      have hge := Nat.le_of_not_lt (mt before_iff.mpr hge)
      refine List.pairwise_cons.mpr ⟨fun v hv => ?_, ih hus⟩
      rcases List.mem_cons.mp ((insertTree_perm freq t us).mem_iff.mp hv) with rfl | hv
      · exact hge
      · exact hu v hv

/-- The least tree of a forest stands first when the forest is sorted. -/
theorem Sorted.head_eq {t v : HTree} {ts vs : List HTree} (h : Sorted freq (v :: vs))
    (hperm : (v :: vs).Perm (t :: ts)) (hleast : ∀ u ∈ ts, t.key freq < u.key freq) : v = t := by
  by_contra hne
  have hv : v ∈ ts := (List.mem_cons.mp (hperm.mem_iff.mp List.mem_cons_self)).resolve_left hne
  have ht : t ∈ vs := (List.mem_cons.mp (hperm.mem_iff.mpr List.mem_cons_self)).resolve_left (Ne.symm hne)
  have := (List.pairwise_cons.mp h).1 t ht
  have := hleast v hv
  omega

theorem forest_perm (freq : FreqFile) : (forest freq).Perm ((presentSymbols freq).map leaf) := by
  unfold forest
  induction presentSymbols freq with
  | nil => exact .refl _
  | cons sym syms ih => exact (insertTree_perm freq _ _).trans (ih.cons _)

theorem forest_sorted (freq : FreqFile) : Sorted freq (forest freq) := by
  unfold forest
  induction presentSymbols freq with
  | nil => exact List.Pairwise.nil
  | cons sym syms ih => exact ih.insertTree _

end HTree

end Sys2Proof
end

section
/-! ### The trees BUILD has made, in the order of their nodes (41_tree_build.md R120, R125, R127) -/

namespace Sys2Proof.Machine

open Sys2Proof

/-- A node holds one tree at most. -/
theorem holds_unique {ns : NodeStore} {t u : HTree} {c : NodeIdx} (ht : holds ns t c = true)
    (hu : holds ns u c = true) : t = u := by
  induction t generalizing u c with
  | leaf sym =>
    obtain ⟨w, hc⟩ := holds_leaf_iff.mp ht
    cases u with
    | leaf sym' =>
      obtain ⟨w', hc'⟩ := holds_leaf_iff.mp hu
      simp_all
    | node u0 u1 =>
      obtain ⟨w', a, b, hc', -⟩ := holds_node_iff.mp hu
      simp [hc] at hc'
  | node t0 t1 ih0 ih1 =>
    obtain ⟨w, a, b, hc, -, -, -, h0, h1⟩ := holds_node_iff.mp ht
    obtain ⟨rfl, rfl⟩ := NodeRec.children_of_content hc
    cases u with
    | leaf sym =>
      obtain ⟨w', hc'⟩ := holds_leaf_iff.mp hu
      simp [hc] at hc'
    | node u0 u1 =>
      obtain ⟨w', a', b', hc', -, -, -, h0', h1'⟩ := holds_node_iff.mp hu
      obtain ⟨rfl, rfl⟩ := NodeRec.children_of_content hc'
      rw [ih0 h0 h0', ih1 h1 h1']

/-- The node that BUILD made for the tree `t` (R125 to R127): it holds the tree, has its weight, and an internal
node's children were made before it. -/
structure Made (freq : FreqFile) (ns : NodeStore) (m : LeafMap) (t : HTree) (c : NodeIdx) : Prop where
  planted  : Planted ns m t c
  weight   : (nodeAt ns c).weight.toNat = t.weight freq
  earlier  : (nodeAt ns c).leaf = false → (nodeAt ns c).child0 < c ∧ (nodeAt ns c).child1 < c

theorem Made.grow {freq : FreqFile} {ns ns' : NodeStore} {m m' : LeafMap} {t : HTree} {c : NodeIdx}
    (h : Made freq ns m t c) (hg : Grows ns m ns' m') : Made freq ns' m' t c := by
  have hc := hg.content c h.planted.closed
  simp only [NodeRec.content, Prod.mk.injEq] at hc
  obtain ⟨-, hleaf, -, hweight, hchild0, hchild1⟩ := hc
  exact ⟨h.planted.grow hg, by rw [hweight, h.weight], by rw [hleaf, hchild0, hchild1]; exact h.earlier⟩

/-- BUILD's invariant with its history: `made` lists the tree of every node allocated, in the order of the indices; the
node allocated last waits in the queue. -/
structure BuildLog (freq : FreqFile) (c : BuildCtx) (ts made : List HTree) : Prop extends BuildInv c ts where
  size   : c.n = made.length
  entry  : ∀ i t, made[i]? = some t → Made freq c.node c.leafOf t (BitVec.ofNat 9 i)
  newest : c.n ≠ 0 → BitVec.ofNat 9 (c.n - 1) ∈ c.queue

namespace BuildLog

variable {freq : FreqFile} {c : BuildCtx} {ts made : List HTree}

/-- An allocated node is one that the history lists. -/
theorem exists_made (h : BuildLog freq c ts made) {i : NodeIdx} (hi : i.toNat < c.n) :
    ∃ t, made[i.toNat]? = some t ∧ Made freq c.node c.leafOf t i := by
  have hlt : i.toNat < made.length := h.size ▸ hi
  have := h.entry i.toNat _ (List.getElem?_eq_getElem hlt)
  rw [BitVec.ofNat_toNat, BitVec.setWidth_eq] at this
  exact ⟨_, List.getElem?_eq_getElem hlt, this⟩

/-- A tree held by the node store has its own weight at its root (R127). -/
theorem weight_eq (h : BuildLog freq c ts made) {t : HTree} {i : NodeIdx} (ht : holds c.node t i = true) :
    (nodeAt c.node i).weight.toNat = t.weight freq := by
  obtain ⟨u, -, hu⟩ := h.exists_made ((h.alloc.valid_iff i).mp (holds_valid ht).2.1)
  rw [hu.weight, holds_unique ht hu.planted.held]

/-- The comparator's key of a node is that of its tree (R121). -/
theorem toNat_nodeKey (h : BuildLog freq c ts made) {t : HTree} {i : NodeIdx} (ht : holds c.node t i = true) :
    (nodeKey (nodeAt c.node i)).toNat = t.key freq := by
  rw [nodeKey, BitVec.toNat_append, ← Nat.shiftLeft_add_eq_or_of_lt (BitVec.isLt _), Nat.shiftLeft_eq,
    h.weight_eq ht, (holds_valid ht).2.2]
  rfl

/-- One more node: the store grows, and the new node is made for its tree. -/
theorem entry_concat (h : BuildLog freq c ts made) {ns : NodeStore} {m : LeafMap} {t : HTree}
    (hg : Grows c.node c.leafOf ns m) (hnew : Made freq ns m t (BitVec.ofNat 9 c.n)) (i : Nat) (u : HTree)
    (hi : (made ++ [t])[i]? = some u) : Made freq ns m u (BitVec.ofNat 9 i) := by
  rcases Nat.lt_or_ge i made.length with hlt | hge
  · rw [List.getElem?_append_left hlt] at hi
    exact (h.entry i u hi).grow hg
  · rw [List.getElem?_append_right hge, List.getElem?_singleton] at hi
    split at hi
    next e =>
      obtain rfl := Option.some.inj hi
      rwa [show i = c.n by rw [h.size]; omega]
    next => contradiction

/-- The order of the queue is of no account. -/
theorem perm (h : BuildLog freq c ts made) {q : List NodeIdx} (hq : q.Perm c.queue) :
    ∃ us, us.Perm ts ∧ BuildLog freq { c with queue := q } us made := by
  obtain ⟨us, hus, hinv⟩ := h.toBuildInv.perm hq
  exact ⟨us, hus, hinv, h.size, h.entry, fun hn => hq.mem_iff.mpr (h.newest hn)⟩

end BuildLog

theorem buildLog_start (freq : FreqFile) : BuildLog freq buildStart [] [] :=
  ⟨buildInv_start, rfl, by simp, fun hn => absurd rfl hn⟩

/-! ### Step 1: the leaves -/

theorem BuildLog.loadLeaf {freq : FreqFile} {c : BuildCtx} {ts made : List HTree} (h : BuildLog freq c ts made)
    {sym : Symbol} (hnew : sym ∉ forestLeaves ts) (hfreq : freq.get (symIndex sym) ≠ 0#32) :
    BuildLog freq (loadLeaf freq c sym) (ts ++ [.leaf sym]) (made ++ [.leaf sym]) := by
  have hinv := h.toBuildInv.loadLeaf hnew hfreq
  have hcap := hinv.alloc.le_nodeCap
  rw [Machine.loadLeaf, if_neg hfreq] at hinv hcap ⊢
  dsimp only at hcap
  have hn : c.n < 511 := by omega
  have hkeep (i : NodeIdx) (hi : i.toNat < c.n) :=
    nodeAt_setNode_ne c.node (freshLeaf sym ((freq.get (symIndex sym)).setWidth 40)) (ne_ofNat_of_lt hn hi)
  refine ⟨hinv, by simp [h.size], h.entry_concat
    (h.alloc.grows hkeep fun _ _ hi => leafAt_setLeaf_of_some (h.unmapped sym hnew) hi)
    ⟨(planted_freshLeaf hn sym _).1, ?_, ?_⟩, by simp⟩
  all_goals rw [nodeAt_setNode_same _ _ (by rw [toNat_ofNat_of_lt hn]; exact hn)]
  · have := (freq.get (symIndex sym)).isLt
    simp only [freshLeaf, HTree.weight, BitVec.toNat_setWidth]
    omega
  · exact fun hleaf => absurd hleaf (by simp [freshLeaf])

/-- Loading the symbols of a list that have counts. -/
theorem buildLog_foldl_loadLeaf {freq : FreqFile} {syms : List Symbol} {c : BuildCtx} {ts made : List HTree}
    (h : BuildLog freq c ts made) (hnodup : syms.Nodup) (hnew : ∀ sym ∈ syms, sym ∉ forestLeaves ts)
    (hfreq : ∀ sym ∈ syms, freq.get (symIndex sym) ≠ 0#32) :
    BuildLog freq (syms.foldl (loadLeaf freq) c) (ts ++ syms.map .leaf) (made ++ syms.map .leaf) := by
  induction syms generalizing c ts made with
  | nil => simpa using h
  | cons sym syms ih =>
    obtain ⟨hsym, hnodup⟩ := List.nodup_cons.mp hnodup
    obtain ⟨hnew_sym, hnew⟩ := List.forall_mem_cons.mp hnew
    obtain ⟨hfreq_sym, hfreq⟩ := List.forall_mem_cons.mp hfreq
    have := ih (h.loadLeaf hnew_sym hfreq_sym) hnodup (fun a ha => by
      simp only [forestLeaves_append, forestLeaves_cons, forestLeaves_nil, HTree.leaves, List.append_nil,
        List.mem_append, List.mem_singleton, not_or]
      exact ⟨hnew a ha, fun e => hsym (e ▸ ha)⟩) hfreq
    simpa using this

/-- Symbols without a count make no leaf. -/
theorem loadLeaves_eq_foldl_presentSymbols (freq : FreqFile) :
    loadLeaves freq = (HTree.presentSymbols freq).foldl (loadLeaf freq) buildStart := by
  rw [loadLeaves, HTree.presentSymbols, List.foldl_filter]
  congr 1
  funext c sym
  by_cases hfreq : freq.get (symIndex sym) = 0#32 <;> simp [loadLeaf, hfreq]

/-- Step 1 of BUILD makes the leaves of the present symbols, ascending (R120, R125). -/
theorem buildLog_loadLeaves (freq : FreqFile) :
    BuildLog freq (loadLeaves freq) ((HTree.presentSymbols freq).map .leaf)
      ((HTree.presentSymbols freq).map .leaf) := by
  rw [loadLeaves_eq_foldl_presentSymbols]
  exact buildLog_foldl_loadLeaf (buildLog_start freq) (nodup_allSymbols.filter _) (by simp)
    fun sym hsym => of_decide_eq_true (List.mem_filter.mp hsym).2

/-! ### Step 2: the merges -/

/-- The next index can become the parent of the first two nodes of the queue. -/
theorem BuildInv.joinable {c : BuildCtx} {first second : NodeIdx} {q : List NodeIdx} {t0 t1 : HTree} {ts : List HTree}
    (h : BuildInv { c with queue := first :: second :: q } (t0 :: t1 :: ts)) :
    c.n < 511 ∧ Rooted c.node c.leafOf first t0 ∧ Rooted c.node c.leafOf second t1 ∧
      Joinable c.node (BitVec.ofNat 9 c.n) first second := by
  obtain ⟨hfirst, hsecond, -⟩ : Rooted c.node c.leafOf first t0 ∧ Rooted c.node c.leafOf second t1 ∧
      List.Forall₂ (Rooted c.node c.leafOf) q ts := by
    have := h.roots
    simp only [List.forall₂_cons] at this
    exact this
  have hne : first ≠ second := by
    have := h.nodup_queue
    simp only [List.nodup_cons, List.mem_cons, not_or] at this
    exact this.1.1
  have hcap := h.merge.alloc.le_nodeCap
  dsimp only at hcap
  have hi := toNat_ofNat_of_lt (n := c.n) (by omega)
  have hnew : nodeAt c.node (BitVec.ofNat 9 c.n) = NodeRec.zero := h.alloc.eq_zero hi.ge
  exact ⟨by omega, hfirst, hsecond, by omega, by rw [hnew]; rfl, hfirst.planted.closed, hsecond.planted.closed,
    by rw [hnew]; rfl, hfirst.top, hsecond.top, hne⟩

/-- The sum of two weights is exact (R126). -/
theorem toNat_weight_mergedNode {freq : FreqFile} {ns : NodeStore} {first second : NodeIdx} {t0 t1 : HTree}
    (h0 : (nodeAt ns first).weight.toNat = t0.weight freq) (h1 : (nodeAt ns second).weight.toNat = t1.weight freq)
    (hnodup : (HTree.node t0 t1).leaves.Nodup) :
    (mergedNode ns first second).weight.toNat = (HTree.node t0 t1).weight freq := by
  have := HTree.weight_lt freq hnodup
  rw [HTree.weight] at this ⊢
  rw [mergedNode, BitVec.toNat_add, h0, h1, Nat.mod_eq_of_lt this]

/-- One merge makes one node (R124, R125). -/
theorem BuildLog.merge {freq : FreqFile} {c : BuildCtx} {first second : NodeIdx} {q : List NodeIdx} {t0 t1 : HTree}
    {ts made : List HTree} (h : BuildLog freq { c with queue := first :: second :: q } (t0 :: t1 :: ts) made) :
    BuildLog freq
      { c with
        node := mergeNodes c.node first second (BitVec.ofNat 9 c.n)
        queue := q ++ [BitVec.ofNat 9 c.n]
        n := c.n + 1 }
      (ts ++ [.node t0 t1]) (made ++ [.node t0 t1]) := by
  obtain ⟨hn, hfirst, hsecond, hjoin⟩ := h.toBuildInv.joinable
  have hnodup : (HTree.node t0 t1).leaves.Nodup := by
    have := h.toBuildInv.merge.nodup
    rw [forestLeaves_append, List.nodup_append] at this
    simpa using this.2.1
  have hlt (i : NodeIdx) (hi : (nodeAt c.node i).valid = true) : i < BitVec.ofNat 9 c.n := by
    rw [BitVec.lt_def, toNat_ofNat_of_lt hn]
    exact (h.alloc.valid_iff i).mp hi
  refine ⟨h.toBuildInv.merge, by simpa using h.size, h.entry_concat (grows_joinNodes _ hjoin _) ⟨?_, ?_, ?_⟩, by simp⟩
  · exact planted_joinNodes _ hjoin hfirst.planted hsecond.planted rfl
  all_goals
    dsimp only
    rw [mergeNodes_eq, nodeAt_joinNodes_parent _ hjoin]
  · exact toNat_weight_mergedNode (h.weight_eq hfirst.planted.held) (h.weight_eq hsecond.planted.held) hnodup
  · exact fun _ => ⟨hlt _ hfirst.planted.valid, hlt _ hsecond.planted.valid⟩

end Sys2Proof.Machine
end

section
/-! ### BUILD's merges are those of the sorted forest (41_tree_build.md R120, R123 to R125) -/

namespace Sys2Proof

namespace Machine

open HTree

/-- Merging to the end keeps the leaves. -/
theorem mergeForest_leaves (freq : FreqFile) {fuel : Nat} {fs : List HTree} (hfuel : fs.length ≤ fuel + 1) :
    (forestLeaves (mergeForest freq fuel fs).toList).Perm (forestLeaves fs) := by
  induction fuel generalizing fs with
  | zero =>
    match fs, hfuel with
    | [], _ | [_], _ => simp [mergeForest]
  | succ fuel ih =>
    match fs, hfuel with
    | [], _ | [_], _ => simp [mergeForest]
    | t :: u :: us, hfuel =>
      simp only [List.length_cons] at hfuel
      refine (ih (by rw [length_insertTree]; omega)).trans ?_
      exact (forestLeaves_perm (insertTree_perm freq _ us)).trans (by simp [leaves])

theorem BuildLog.key_lt {freq : FreqFile} {c : BuildCtx} {ts made : List HTree} (h : BuildLog freq c ts made)
    {x : NodeIdx} {t : HTree} {q : List NodeIdx} {us : List HTree} (ht : holds c.node t x = true)
    (hroots : List.Forall₂ (Rooted c.node c.leafOf) q us) (hless : ∀ j ∈ q, nodeLess c.node x j = true) :
    ∀ u ∈ us, t.key freq < u.key freq := by
  have hkeys : List.Forall₂ (fun u j => t.key freq < u.key freq ∧ Rooted c.node c.leafOf j u) us q := by
    refine ((List.forall₂_and_left _ _).mpr ⟨hless, hroots⟩).flip.imp fun u j hj => ⟨?_, hj.2⟩
    rw [← h.toNat_nodeKey ht, ← h.toNat_nodeKey hj.2.planted.held]
    exact (nodeLess_iff _ _ _).mp hj.1
  exact ((List.forall₂_and_left _ _).mp hkeys).1

/-- The two nodes BUILD extracts are the roots of the first two trees of the sorted forest (R123). -/
theorem BuildLog.extract {freq : FreqFile} {c : BuildCtx} {ts made : List HTree} (h : BuildLog freq c ts made)
    {t u : HTree} {us : List HTree} (hperm : (t :: u :: us).Perm ts) (hsorted : Sorted freq (t :: u :: us)) :
    ∃ first q1 second q2 rest, extractMin c.node c.queue = some (first, q1) ∧
      extractMin c.node q1 = some (second, q2) ∧ us.Perm rest ∧
      BuildLog freq { c with queue := first :: second :: q2 } (t :: u :: rest) made := by
  have hlen := hperm.length_eq
  obtain ⟨first, q1, second, q2, h1, h2, hq⟩ := extractMin_twice h.nodup_keys
    (by rw [h.length_queue, ← hlen]; simp)
  obtain ⟨hq2, hless2⟩ := extractMin_spec h2
  have hless1 := (extractMin_spec h1).2
  obtain ⟨ts', hts, hlog⟩ := h.perm hq
  obtain ⟨t0, _, hfirst, hroots, rfl⟩ := List.forall₂_cons_left_iff.mp hlog.roots
  obtain ⟨t1, rest, hsecond, hrest, rfl⟩ := List.forall₂_cons_left_iff.mp hroots
  have hperm := hperm.trans hts.symm
  obtain rfl : t = t0 := hsorted.head_eq hperm
    (hlog.key_lt hfirst.planted.held hroots fun j hj => hless1 j (hq2.mem_iff.mp hj))
  have hperm := hperm.cons_inv
  obtain rfl : u = t1 := hsorted.tail.head_eq hperm
    (hlog.key_lt hsecond.planted.held hrest hless2)
  exact ⟨first, q1, second, q2, rest, h1, h2, hperm.cons_inv, hlog⟩

/-- With at most one tree left there is nothing to merge. -/
theorem BuildLog.finished {freq : FreqFile} {c : BuildCtx} {ts made fs : List HTree} (h : BuildLog freq c ts made)
    (hperm : fs.Perm ts) (hone : fs.length ≤ 1) (k : Nat) :
    BuildLog freq c (mergeForest freq k fs).toList (made ++ mergesOf freq k fs) := by
  match fs, hone with
  | [], _ =>
    obtain rfl := hperm.nil_eq
    simpa [mergeForest, mergesOf] using h
  | [t], _ =>
    obtain rfl := List.singleton_perm.mp hperm
    simpa [mergeForest, mergesOf] using h

/-- Step 2 of BUILD is the merging of the sorted forest: it ends with the same tree and has made the same trees in the
same order (R120, R125). -/
theorem mergeLoop_log {freq : FreqFile} {fuel k : Nat} {c : BuildCtx} {ts made fs : List HTree}
    (h : BuildLog freq c ts made) (hperm : fs.Perm ts) (hsorted : Sorted freq fs) (hfuel : fs.length ≤ fuel + 1)
    (hk : fs.length ≤ k + 1) :
    ∃ d, mergeLoop fuel c = some d ∧
      BuildLog freq d (mergeForest freq k fs).toList (made ++ mergesOf freq k fs) := by
  induction fuel generalizing k c ts made fs with
  | zero => exact ⟨c, rfl, h.finished hperm hfuel k⟩
  | succ fuel ih =>
    have hqueue : c.queue.length = fs.length := h.length_queue.trans hperm.length_eq.symm
    by_cases hone : fs.length ≤ 1
    · exact ⟨c, by rw [mergeLoop, if_pos (hqueue ▸ hone)], h.finished hperm hone k⟩
    match fs, k, hone, hk with
    | [], _, hone, _ | [_], _, hone, _ => simp at hone
    | _ :: _ :: _, 0, _, hk => simp at hk
    | t :: u :: us, k + 1, hone, hk =>
      obtain ⟨first, q1, second, q2, rest, h1, h2, hrest, hlog⟩ := h.extract hperm hsorted
      simp only [List.length_cons] at hfuel hk
      obtain ⟨d, hd, hfinal⟩ := ih (k := k) hlog.merge
        ((insertTree_perm freq _ us).trans ((hrest.cons _).trans (List.perm_append_singleton _ rest).symm))
        (hsorted.tail.tail.insertTree _) (by rw [length_insertTree]; omega) (by rw [length_insertTree]; omega)
      refine ⟨d, ?_, by simpa [mergeForest, mergesOf] using hfinal⟩
      rw [mergeLoop, if_neg (hqueue ▸ hone), h1]
      simp only [h2]
      exact hd

end Machine
end Sys2Proof
end

section
/-! ### What BUILD leaves (41_tree_build.md R120, R125 to R127, 10_state.md R36) -/

namespace Sys2Proof

open Sys2Proof.Machine

/-- An element of an ascending list stands where the number of the lesser ones says. -/
theorem getElem?_length_filter_lt {syms : List Symbol} (h : syms.Pairwise (· < ·)) {sym : Symbol}
    (hsym : sym ∈ syms) : syms[(syms.filter fun u => u < sym).length]? = some sym := by
  induction syms with
  | nil => simp at hsym
  | cons a syms ih =>
    obtain ⟨ha, hsyms⟩ := List.pairwise_cons.mp h
    rcases List.mem_cons.mp hsym with rfl | hsym
    · have hnil : (sym :: syms).filter (fun u => u < sym) = [] := by
        rw [List.filter_eq_nil_iff]
        intro u hu
        rcases List.mem_cons.mp hu with rfl | hu
        · simp
        · simpa using BitVec.le_of_lt (ha u hu)
      rw [hnil]
      rfl
    · rw [List.filter_cons_of_pos (by simpa using ha sym hsym)]
      exact ih hsyms hsym

/-- Symbols without a count add nothing to a sum of counts. -/
theorem sum_counts_filter (freq : FreqFile) (syms : List Symbol) :
    ((syms.filter fun sym => freq.get (symIndex sym) ≠ 0#32).map fun sym => (freq.get (symIndex sym)).toNat).sum =
      (syms.map fun sym => (freq.get (symIndex sym)).toNat).sum := by
  induction syms with
  | nil => rfl
  | cons sym syms ih =>
    by_cases hfreq : freq.get (symIndex sym) = 0#32
    · rw [List.filter_cons_of_neg (by simpa using hfreq), ih]
      simp [hfreq]
    · rw [List.filter_cons_of_pos (by simpa using hfreq), List.map_cons, List.sum_cons, ih, List.map_cons,
        List.sum_cons]

namespace HTree

theorem presentSymbols_ascending (freq : FreqFile) : (presentSymbols freq).Pairwise (· < ·) := by
  refine List.Pairwise.filter _ (List.pairwise_map.mpr (List.pairwise_lt_range.imp_of_mem fun {a b} ha hb hlt => ?_))
  rw [List.mem_range] at ha hb
  rw [BitVec.lt_def, BitVec.toNat_ofNat, BitVec.toNat_ofNat]
  omega

theorem length_presentSymbols_le (freq : FreqFile) : (presentSymbols freq).length ≤ 256 :=
  length_le_of_nodup_symbols (nodup_allSymbols.filter _)

/-- The Huffman tree has one leaf per present symbol (R127). -/
theorem huffman_leaves (freq : FreqFile) :
    (forestLeaves (huffman freq).toList).Perm (presentSymbols freq) := by
  have hperm := forest_perm freq
  have hlen : (forest freq).length ≤ 256 := by
    rw [hperm.length_eq, List.length_map]
    exact length_presentSymbols_le freq
  have hleaves := forestLeaves_perm hperm
  rw [forestLeaves_map_leaf] at hleaves
  exact (mergeForest_leaves freq (by omega)).trans hleaves

theorem huffman_eq_none_iff {freq : FreqFile} : huffman freq = none ↔ presentSymbols freq = [] := by
  have hleaves := huffman_leaves freq
  cases h : huffman freq with
  | none => simpa [h] using hleaves.symm
  | some t =>
    have : presentSymbols freq ≠ [] := fun e => t.leaves_ne_nil (by simpa [h, e] using hleaves)
    simp [this]

theorem exists_node_of_mem_mergesOf {freq : FreqFile} {fuel : Nat} {fs : List HTree} {t : HTree}
    (ht : t ∈ mergesOf freq fuel fs) : ∃ t0 t1, t = .node t0 t1 := by
  induction fuel generalizing fs with
  | zero => simp [mergesOf] at ht
  | succ fuel ih =>
    match fs, ht with
    | [], ht | [_], ht => simp [mergesOf] at ht
    | t0 :: t1 :: us, ht =>
      rcases List.mem_cons.mp ht with rfl | ht
      · exact ⟨t0, t1, rfl⟩
      · exact ih ht

end HTree

namespace Machine

/-- The trees that BUILD makes, in the order of their nodes: the leaves, then the merges (R125). -/
def builtTrees (freq : FreqFile) : List HTree := (HTree.presentSymbols freq).map .leaf ++ HTree.merges freq

/-- The machine after BUILD, from what BUILD held last (R120). -/
def builtState (s : State) (c : BuildCtx) : State :=
  finish
    { s with node := c.node, leafOf := c.leafOf, root := c.queue.head?,
             leafCount := BitVec.ofNat 9 (HTree.presentSymbols s.freq).length }
    (BitVec.ofNat 32 (HTree.presentSymbols s.freq).length)

/-- BUILD completes from every state, with the abstract builder's tree in its queue and made in the abstract builder's
order (R120, R125). -/
theorem exec_build (s : State) :
    ∃ c, exec .build s = .next (builtState s c) ∧
      BuildLog s.freq c (HTree.huffman s.freq).toList (builtTrees s.freq) := by
  have hperm := HTree.forest_perm s.freq
  have hlen := hperm.length_eq
  have hcap := HTree.length_presentSymbols_le s.freq
  rw [List.length_map] at hlen
  obtain ⟨c, hc, hlog⟩ := mergeLoop_log (fuel := (loadLeaves s.freq).n) (k := 256) (buildLog_loadLeaves s.freq) hperm
    (HTree.forest_sorted s.freq) (by rw [loadLeaves_n]; omega) (by omega)
  refine ⟨c, ?_, hlog⟩
  rw [exec, execBuild, hc, loadLeaves_n]
  rfl

namespace Made

variable {freq : FreqFile} {ns : NodeStore} {m : LeafMap} {c : NodeIdx}

theorem leaf_of_leaf {sym : Symbol} (h : Made freq ns m (.leaf sym) c) :
    (nodeAt ns c).valid = true ∧ (nodeAt ns c).leaf = true ∧ (nodeAt ns c).sym = sym ∧ leafAt m sym = some c := by
  obtain ⟨⟨w, hc⟩, hmap⟩ := planted_leaf_iff.mp h.planted
  simp only [NodeRec.content, Prod.mk.injEq] at hc
  obtain ⟨hvalid, hleaf, hsym, -⟩ := hc
  exact ⟨hvalid, hleaf, hsym, hmap⟩

theorem not_leaf_of_node {t0 t1 : HTree} (h : Made freq ns m (.node t0 t1) c) :
    (nodeAt ns c).valid = true ∧ (nodeAt ns c).leaf = false ∧ Planted ns m t0 (nodeAt ns c).child0 ∧
      Planted ns m t1 (nodeAt ns c).child1 := by
  obtain ⟨w, a, b, hc, -, -, -, h0, h1⟩ := planted_node_iff.mp h.planted
  obtain ⟨rfl, rfl⟩ := NodeRec.children_of_content hc
  simp only [NodeRec.content, Prod.mk.injEq] at hc
  obtain ⟨hvalid, hleaf, -⟩ := hc
  exact ⟨hvalid, hleaf, h0, h1⟩

end Made

section
variable {freq : FreqFile} {c : BuildCtx} (h : BuildLog freq c (HTree.huffman freq).toList (builtTrees freq))
include h

/-- BUILD allocates k leaves and k-1 internal nodes (R127). -/
theorem BuildLog.n_eq : c.n = 2 * (HTree.presentSymbols freq).length - 1 := by
  have hcount := h.count
  have hleaves := HTree.huffman_leaves freq
  rw [hleaves.length_eq] at hcount
  cases ht : HTree.huffman freq with
  | none =>
    rw [ht, HTree.huffman_eq_none_iff.mp ht] at hcount
    rw [HTree.huffman_eq_none_iff.mp ht]
    exact hcount
  | some t =>
    rw [ht, Option.toList_some, List.length_singleton] at hcount
    omega

theorem BuildLog.length_merges :
    (HTree.merges freq).length = (HTree.presentSymbols freq).length - 1 := by
  have hsize := h.size
  rw [h.n_eq, builtTrees, List.length_append, List.length_map] at hsize
  omega

/-- The nodes below k are the leaves of the present symbols, ascending (R125). -/
theorem BuildLog.made_leaf {i : Nat} (hi : i < (HTree.presentSymbols freq).length) :
    Made freq c.node c.leafOf (.leaf (HTree.presentSymbols freq)[i]) (BitVec.ofNat 9 i) := by
  refine h.entry i _ ?_
  rw [builtTrees, List.getElem?_append_left (by simpa using hi)]
  simp [hi]

/-- The nodes from k on are those of the merges, in their order (R125). -/
theorem BuildLog.made_merge {j : Nat} {t : HTree} (ht : (HTree.merges freq)[j]? = some t) :
    Made freq c.node c.leafOf t (BitVec.ofNat 9 ((HTree.presentSymbols freq).length + j)) := by
  refine h.entry _ _ ?_
  rw [builtTrees, List.getElem?_append_right (by simp)]
  simpa using ht

/-- A node from k on is internal. -/
theorem BuildLog.exists_made_node {i : NodeIdx} (hk : (HTree.presentSymbols freq).length ≤ i.toNat)
    (hi : i.toNat < 2 * (HTree.presentSymbols freq).length - 1) :
    ∃ t0 t1, Made freq c.node c.leafOf (.node t0 t1) i := by
  have hj : i.toNat - (HTree.presentSymbols freq).length < (HTree.merges freq).length := by
    rw [h.length_merges]
    omega
  have hmade := h.made_merge (List.getElem?_eq_getElem hj)
  obtain ⟨t0, t1, ht⟩ := HTree.exists_node_of_mem_mergesOf (List.getElem_mem hj)
  rw [ht, Nat.add_sub_cancel' hk, BitVec.ofNat_toNat, BitVec.setWidth_eq] at hmade
  exact ⟨t0, t1, hmade⟩

/-- The root holds the Huffman tree and is the node made last (R120, R125). -/
theorem BuildLog.root_spec {t : HTree} (ht : HTree.huffman freq = some t) :
    c.queue = [BitVec.ofNat 9 (2 * (HTree.presentSymbols freq).length - 2)] ∧
      holds c.node t (BitVec.ofNat 9 (2 * (HTree.presentSymbols freq).length - 2)) = true := by
  have hroots := h.roots
  rw [ht, Option.toList_some] at hroots
  obtain ⟨r, q, hr, hq, hqueue⟩ := List.forall₂_cons_right_iff.mp hroots
  obtain rfl := List.forall₂_nil_right_iff.mp hq
  have hk : (HTree.presentSymbols freq).length ≠ 0 := by
    rw [ne_eq, List.length_eq_zero_iff, ← HTree.huffman_eq_none_iff, ht]
    simp
  have hnew := h.newest (by rw [h.n_eq]; omega)
  rw [hqueue, List.mem_singleton, h.n_eq, Nat.sub_sub] at hnew
  rw [hqueue, hnew]
  exact ⟨rfl, hr.planted.held⟩

end

end Machine
end Sys2Proof
end

section
/-! ### The statements about BUILD's tree, its indices and its weights (41_tree_build.md R120 to R127) -/

namespace Sys2Proof.Machine

open Sys2Proof

section
variable {s : State} {c : BuildCtx}
  (h : BuildLog s.freq c (HTree.huffman s.freq).toList (builtTrees s.freq))
include h

/-- BUILD leaves a tree or none (R36). -/
theorem treeInv_builtState : TreeInv (builtState s c) := by
  have hlen := (HTree.huffman_leaves s.freq).length_eq
  refine h.toBuildInv.treeInv ?_ rfl rfl rfl (by rw [hlen]; rfl)
  cases HTree.huffman s.freq <;> simp

theorem noTree_builtState (hnone : HTree.huffman s.freq = none) : NoTree (builtState s c) := by
  have hroots := h.roots
  rw [hnone, Option.toList_none, List.forall₂_nil_right_iff] at hroots
  rcases treeInv_builtState h with hno | ⟨r, t, ht⟩
  · exact hno
  · have hroot : c.queue.head? = some r := ht.root_eq
    simp [hroots] at hroot

theorem root_builtState {t : HTree} (ht : HTree.huffman s.freq = some t) :
    (builtState s c).root = some (BitVec.ofNat 9 (2 * (HTree.presentSymbols s.freq).length - 2)) := by
  rw [builtState, finish_root, (h.root_spec ht).1]
  rfl

theorem treeAt_builtState {t : HTree} (ht : HTree.huffman s.freq = some t) :
    TreeAt (builtState s c) (BitVec.ofNat 9 (2 * (HTree.presentSymbols s.freq).length - 2)) t := by
  obtain ⟨u, hu⟩ := (treeInv_builtState h).treeAt_of_root (root_builtState h ht)
  rwa [holds_unique (h.root_spec ht).2 hu.held]

/-- A symbol with a count has the leaf at the number of lower symbols with a count (R125). -/
theorem leafAt_builtState {sym : Symbol} (hsym : sym ∈ HTree.presentSymbols s.freq) :
    leafAt c.leafOf sym =
      some (BitVec.ofNat 9 ((HTree.presentSymbols s.freq).filter fun u => u < sym).length) := by
  obtain ⟨hi, hget⟩ := List.getElem?_eq_some_iff.mp
    (getElem?_length_filter_lt (HTree.presentSymbols_ascending s.freq) hsym)
  have hmade := h.made_leaf hi
  rw [hget] at hmade
  obtain ⟨-, -, -, hmap⟩ := hmade.leaf_of_leaf
  exact hmap

/-- A valid node has its symbol's count, or the exact sum of its children's weights (R127). -/
theorem weight_builtState {i : NodeIdx} (hi : (nodeAt c.node i).valid = true) :
    (nodeAt c.node i).weight.toNat =
      if (nodeAt c.node i).leaf then (getFreq s (nodeAt c.node i).sym).toNat
      else (nodeAt c.node (nodeAt c.node i).child0).weight.toNat +
        (nodeAt c.node (nodeAt c.node i).child1).weight.toNat := by
  obtain ⟨t, -, ht⟩ := h.exists_made ((h.alloc.valid_iff i).mp hi)
  cases t with
  | leaf sym =>
    obtain ⟨-, hleaf, hsym, -⟩ := ht.leaf_of_leaf
    rw [if_pos hleaf, ht.weight, hsym]
    rfl
  | node t0 t1 =>
    obtain ⟨-, hleaf, h0, h1⟩ := ht.not_leaf_of_node
    rw [hleaf, ht.weight, h.weight_eq h0.held, h.weight_eq h1.held]
    rfl

/-- The root's weight is the sum of all counts (R127). -/
theorem root_weight_builtState {t : HTree} {r : NodeIdx} (ht : HTree.huffman s.freq = some t)
    (hr : holds c.node t r = true) :
    (nodeAt c.node r).weight.toNat = (allSymbols.map fun sym => (getFreq s sym).toNat).sum := by
  have hleaves := HTree.huffman_leaves s.freq
  rw [ht, Option.toList_some, forestLeaves_cons, forestLeaves_nil, List.append_nil] at hleaves
  rw [h.weight_eq hr, HTree.weight_eq_sum, (hleaves.map _).sum_nat]
  exact sum_counts_filter s.freq allSymbols

/-- The valid leaves of the node store, in the order of the indices, are those of the present symbols (R125, R127). -/
theorem leaf_syms_builtState :
    ((c.node.cells.filter fun n => n.valid && n.leaf).map fun n => n.sym) = HTree.presentSymbols s.freq := by
  have hcap := HTree.length_presentSymbols_le s.freq
  have hlen := c.node.length_cells
  have hcell (i : Nat) (hi : i < c.node.cells.length) : c.node.cells[i] = nodeAt c.node (BitVec.ofNat 9 i) :=
    (nodeAt_ofNat c.node ⟨i, by omega⟩).symm
  have hfirst : (c.node.cells.take (HTree.presentSymbols s.freq).length).filter (fun n => n.valid && n.leaf) =
      c.node.cells.take (HTree.presentSymbols s.freq).length := by
    refine List.filter_eq_self.mpr fun r hr => ?_
    obtain ⟨i, hi, rfl⟩ := List.getElem_of_mem hr
    rw [List.length_take] at hi
    obtain ⟨hvalid, hleaf, -⟩ := (h.made_leaf (i := i) (by omega)).leaf_of_leaf
    rw [List.getElem_take, hcell, hvalid, hleaf]
    rfl
  have hrest : (c.node.cells.drop (HTree.presentSymbols s.freq).length).filter (fun n => n.valid && n.leaf) = [] := by
    refine List.filter_eq_nil_iff.mpr fun r hr => ?_
    obtain ⟨i, hi, rfl⟩ := List.getElem_of_mem hr
    rw [List.length_drop] at hi
    rw [List.getElem_drop, hcell]
    have htoNat := toNat_ofNat_of_lt (n := (HTree.presentSymbols s.freq).length + i) (by omega)
    by_cases hn : (HTree.presentSymbols s.freq).length + i < c.n
    · rw [h.n_eq] at hn
      obtain ⟨t0, t1, hmade⟩ := h.exists_made_node (i := BitVec.ofNat 9 ((HTree.presentSymbols s.freq).length + i))
        (by omega) (by omega)
      obtain ⟨-, hleaf, -⟩ := hmade.not_leaf_of_node
      simp [hleaf]
    · rw [h.alloc.eq_zero (by omega)]
      simp [NodeRec.zero]
  rw [← List.take_append_drop (HTree.presentSymbols s.freq).length c.node.cells, List.filter_append, hfirst, hrest,
    List.append_nil]
  refine List.ext_getElem (by rw [List.length_map, List.length_take]; omega) fun i _ hi => ?_
  obtain ⟨-, -, hsym, -⟩ := (h.made_leaf hi).leaf_of_leaf
  rw [List.getElem_map, List.getElem_take, hcell, hsym]

theorem countP_internal_builtState :
    (c.node.cells.countP fun n => n.valid && !n.leaf) = (HTree.presentSymbols s.freq).length - 1 := by
  have hleaves := congrArg List.length (leaf_syms_builtState h)
  rw [List.length_map, ← List.countP_eq_length_filter] at hleaves
  have hsplit := List.countP_eq_countP_filter_add c.node.cells (fun n => n.valid) (fun n => n.leaf)
  rw [List.countP_filter, List.countP_filter, h.alloc.countP_valid, h.n_eq, hleaves] at hsplit
  omega

end

/-- Settles O12: BUILD's queue, seen as a forest, goes through the merges of the sorted forest. -/
theorem buildRefinesHuffman : Obligations.BuildRefinesHuffman := by
  intro s
  obtain ⟨c, hexec, h⟩ := exec_build s
  refine ⟨builtState s c, hexec, ?_, rfl, rfl, rfl, ⟨rfl, rfl, rfl, rfl⟩, ⟨rfl, rfl, rfl⟩, ⟨rfl, rfl, rfl, rfl, rfl⟩⟩
  cases ht : HTree.huffman s.freq with
  | none => exact ⟨noTree_builtState h ht, HTree.huffman_eq_none_iff.mp ht⟩
  | some t => exact ⟨⟨_, treeAt_builtState h ht⟩, by simpa [ht] using HTree.huffman_leaves s.freq⟩

/-- Settles O13: a node's index is its place in the list of the trees made. -/
theorem buildAllocatesInOrder : Obligations.BuildAllocatesInOrder := by
  intro s
  obtain ⟨c, hexec, h⟩ := exec_build s
  refine ⟨builtState s c, hexec, fun sym hsym => leafAt_builtState h hsym, fun i hi => ?_, fun i hk hi => ?_,
    h.length_merges, fun j t ht => (h.made_merge ht).planted.held, fun hne => ?_⟩
  · have hmade := h.made_leaf hi
    rw [BitVec.ofNat_toNat, BitVec.setWidth_eq] at hmade
    obtain ⟨-, hleaf, -⟩ := hmade.leaf_of_leaf
    exact hleaf
  · obtain ⟨t0, t1, hmade⟩ := h.exists_made_node hk hi
    obtain ⟨hvalid, hleaf, -⟩ := hmade.not_leaf_of_node
    exact ⟨hvalid, hleaf, hmade.earlier hleaf⟩
  · obtain ⟨t, ht⟩ := Option.ne_none_iff_exists'.mp (mt HTree.huffman_eq_none_iff.mp hne)
    exact root_builtState h ht

/-- Settles O14: every node made has the exact weight of its tree. -/
theorem buildConservesWeight : Obligations.BuildConservesWeight := by
  intro s
  obtain ⟨c, hexec, h⟩ := exec_build s
  refine ⟨builtState s c, hexec, fun i hi => weight_builtState h hi, fun r hr => ?_, leaf_syms_builtState h,
    countP_internal_builtState h⟩
  cases ht : HTree.huffman s.freq with
  | none =>
    rw [(noTree_builtState h ht).root_eq] at hr
    contradiction
  | some t =>
    have htree := treeAt_builtState h ht
    obtain rfl := Option.some.inj (htree.root_eq.symm.trans hr)
    exact root_weight_builtState h ht htree.held

end Sys2Proof.Machine
end

section
/-! ### In a Huffman tree the heavier node is not the deeper one (41_tree_build.md R129) -/

namespace Sys2Proof

open Sys2Proof.Machine

namespace HTree

/-- The two subtrees of an internal node. -/
def children : HTree → List HTree
  | leaf _ => []
  | node t0 t1 => [t0, t1]

/-- `Below h t d`: a subtree of `h` at depth `d` is `t`. -/
inductive Below (h : HTree) : HTree → Nat → Prop
  | root : Below h h 0
  | child {p t : HTree} {d : Nat} (hp : Below h p d) (ht : t ∈ p.children) : Below h t (d + 1)

/-- The merge `p` comes before the merge `q`: what `p` merges is no heavier than what `q` merges. -/
def MergedBefore (freq : FreqFile) (p q : HTree) : Prop :=
  ∀ t ∈ p.children, ∀ u ∈ q.children, t.weight freq ≤ u.weight freq

variable {freq : FreqFile}

/-! #### Subtrees -/

theorem weight_child_le {p t : HTree} (ht : t ∈ p.children) : t.weight freq ≤ p.weight freq := by
  cases p with
  | leaf sym => simp [children] at ht
  | node t0 t1 =>
    rw [weight]
    rcases List.mem_pair.mp ht with rfl | rfl <;> omega

theorem Below.weight_le {h t : HTree} {d : Nat} (ht : Below h t d) : t.weight freq ≤ h.weight freq := by
  induction ht with
  | root => exact Nat.le_refl _
  | child _ hc ih => exact (weight_child_le hc).trans ih

/-- A code in a child is one longer in the tree. -/
theorem exists_code_of_child {p t : HTree} (ht : t ∈ p.children) {sym : Symbol} {code : List Bit}
    (hp : (sym, code) ∈ t.codes) : ∃ b, (sym, b :: code) ∈ p.codes := by
  cases p with
  | leaf a => simp [children] at ht
  | node t0 t1 =>
    rcases List.mem_pair.mp ht with rfl | rfl
    · exact ⟨false, by simpa [codes] using hp⟩
    · exact ⟨true, by simpa [codes] using hp⟩

theorem Below.exists_code {h t : HTree} {d : Nat} (ht : Below h t d) {sym : Symbol} {code : List Bit}
    (hp : (sym, code) ∈ t.codes) : ∃ path, (sym, path) ∈ h.codes ∧ path.length = d + code.length := by
  induction ht generalizing code with
  | root => exact ⟨code, hp, by omega⟩
  | child _ hc ih =>
    obtain ⟨b, hb⟩ := exists_code_of_child hc hp
    obtain ⟨path, hpath, hlen⟩ := ih hb
    exact ⟨path, hpath, by rw [hlen, List.length_cons]; omega⟩

/-- A tree of distinct symbols has every subtree at one depth only. -/
theorem Below.depth_unique {h t : HTree} {d e : Nat} (hnodup : h.leaves.Nodup) (hd : Below h t d)
    (he : Below h t e) : d = e := by
  obtain ⟨code, hp⟩ := exists_code_of_mem_leaves t.rep_mem_leaves
  obtain ⟨path, hpath, hlen⟩ := hd.exists_code hp
  obtain ⟨path', hpath', hlen'⟩ := he.exists_code hp
  rw [← map_fst_codes] at hnodup
  obtain ⟨-, rfl⟩ := Prod.mk.inj (List.inj_on_of_nodup_map hnodup hpath hpath' rfl)
  omega

/-- The leaf of a code lies as deep as the code is long. -/
theorem Below.leaf_of_code {h t : HTree} {d : Nat} (ht : Below h t d) {sym : Symbol} {code : List Bit}
    (hp : (sym, code) ∈ t.codes) : Below h (leaf sym) (d + code.length) := by
  induction t generalizing d code with
  | leaf a =>
    obtain ⟨rfl, rfl⟩ : sym = a ∧ code = [] := by simpa [codes] using hp
    exact ht
  | node t0 t1 ih0 ih1 =>
    simp only [codes, List.mem_append, List.mem_map, Prod.mk.injEq, Prod.exists] at hp
    rcases hp with ⟨_, path, hp, rfl, rfl⟩ | ⟨_, path, hp, rfl, rfl⟩
    · rw [List.length_cons, Nat.add_comm path.length, ← Nat.add_assoc]
      exact ih0 (ht.child (by simp [children])) hp
    · rw [List.length_cons, Nat.add_comm path.length, ← Nat.add_assoc]
      exact ih1 (ht.child (by simp [children])) hp

/-! #### The order of the merges -/

/-- The merges of a forest without trees lighter than `w` merge none lighter than `w`. -/
theorem le_weight_of_mem_mergesOf {fuel w : Nat} {fs : List HTree} (hw : ∀ t ∈ fs, w ≤ t.weight freq) {p t : HTree}
    (hp : p ∈ mergesOf freq fuel fs) (ht : t ∈ p.children) : w ≤ t.weight freq := by
  induction fuel generalizing fs with
  | zero => simp [mergesOf] at hp
  | succ fuel ih =>
    match fs, hp with
    | [], hp | [_], hp => simp [mergesOf] at hp
    | t0 :: t1 :: us, hp =>
      obtain ⟨h0, h1, hus⟩ : w ≤ t0.weight freq ∧ w ≤ t1.weight freq ∧ ∀ t ∈ us, w ≤ t.weight freq := by
        simpa using hw
      rcases List.mem_cons.mp hp with rfl | hp
      · rcases List.mem_pair.mp ht with rfl | rfl
        · exact h0
        · exact h1
      · refine ih (fun u hu => ?_) hp
        rcases List.mem_cons.mp ((insertTree_perm freq _ us).mem_iff.mp hu) with rfl | hu
        · rw [weight]
          omega
        · exact hus u hu

/-- What a sorted forest merges later is no lighter (R123). -/
theorem mergesOf_pairwise {fuel : Nat} {fs : List HTree} (hsorted : Sorted freq fs) :
    (mergesOf freq fuel fs).Pairwise (MergedBefore freq) := by
  induction fuel generalizing fs with
  | zero => simp [mergesOf]
  | succ fuel ih =>
    match fs, hsorted with
    | [], _ | [_], _ => simp [mergesOf]
    | t0 :: t1 :: us, hsorted =>
      have h01 := weight_le_of_key_le ((List.pairwise_cons.mp hsorted).1 t1 List.mem_cons_self)
      refine List.pairwise_cons.mpr ⟨fun q hq t ht u hu => ?_, ih (hsorted.tail.tail.insertTree _)⟩
      have ht : t.weight freq ≤ t1.weight freq := by
        rcases List.mem_pair.mp ht with rfl | rfl
        · exact h01
        · exact Nat.le_refl _
      refine ht.trans (le_weight_of_mem_mergesOf (fun v hv => ?_) hq hu)
      rcases List.mem_cons.mp ((insertTree_perm freq _ us).mem_iff.mp hv) with rfl | hv
      · rw [weight]
        omega
      · exact weight_le_of_key_le ((List.pairwise_cons.mp hsorted.tail).1 v hv)

/-! #### Internal nodes are merges -/

theorem mem_preorder_self (t : HTree) : t ∈ t.preorder := by cases t <;> simp [preorder]

theorem mem_preorder_child {h p t : HTree} (hp : p ∈ h.preorder) (ht : t ∈ p.children) : t ∈ h.preorder := by
  induction h with
  | leaf sym =>
    obtain rfl : p = leaf sym := by simpa [preorder] using hp
    simp [children] at ht
  | node t0 t1 ih0 ih1 =>
    simp only [preorder, List.mem_cons, List.mem_append] at hp ⊢
    rcases hp with rfl | hp | hp
    · rcases List.mem_pair.mp ht with rfl | rfl
      · exact .inr (.inl (mem_preorder_self _))
      · exact .inr (.inr (mem_preorder_self _))
    · exact .inr (.inl (ih0 hp))
    · exact .inr (.inr (ih1 hp))

theorem Below.mem_preorder {h t : HTree} {d : Nat} (ht : Below h t d) : t ∈ h.preorder := by
  induction ht with
  | root => exact mem_preorder_self _
  | child _ hc ih => exact mem_preorder_child ih hc

/-- A subtree of the merged tree is a merge, or a subtree of the forest. -/
theorem mem_mergesOf_or_preorder {fuel : Nat} {fs : List HTree} {h p : HTree} (hh : mergeForest freq fuel fs = some h)
    (hp : p ∈ h.preorder) : p ∈ mergesOf freq fuel fs ∨ ∃ f ∈ fs, p ∈ f.preorder := by
  induction fuel generalizing fs with
  | zero =>
    match fs, hh with
    | [t], hh =>
      obtain rfl : t = h := by simpa [mergeForest] using hh
      exact .inr ⟨t, by simp, hp⟩
    | _ :: _ :: _, hh => simp [mergeForest] at hh
  | succ fuel ih =>
    match fs, hh with
    | [t], hh =>
      obtain rfl : t = h := by simpa [mergeForest] using hh
      exact .inr ⟨t, by simp, hp⟩
    | t0 :: t1 :: us, hh =>
      rcases ih hh with hp | ⟨f, hf, hp⟩
      · exact .inl (List.mem_cons_of_mem _ hp)
      rcases List.mem_cons.mp ((insertTree_perm freq _ us).mem_iff.mp hf) with rfl | hf
      · simp only [preorder, List.mem_cons, List.mem_append] at hp
        rcases hp with rfl | hp | hp
        · exact .inl List.mem_cons_self
        · exact .inr ⟨t0, by simp, hp⟩
        · exact .inr ⟨t1, by simp, hp⟩
      · exact .inr ⟨f, by simp [hf], hp⟩

/-- An internal node of the Huffman tree is one of its merges. -/
theorem mem_merges_of_child {h p t : HTree} (hh : huffman freq = some h) (hp : p ∈ h.preorder) (ht : t ∈ p.children) :
    p ∈ merges freq := by
  rcases mem_mergesOf_or_preorder hh hp with hp | ⟨f, hf, hp⟩
  · exact hp
  · obtain ⟨sym, -, rfl⟩ := List.mem_map.mp ((forest_perm freq).mem_iff.mp hf)
    obtain rfl : p = leaf sym := by simpa [preorder] using hp
    simp [children] at ht

/-! #### Depths -/

/-- If one merge comes before another and merges a lighter tree than the other does, it makes a lighter tree. -/
theorem MergedBefore.weight_lt {p q t u : HTree} (h : MergedBefore freq p q) (ht : t ∈ p.children)
    (hu : u ∈ q.children) (hlt : t.weight freq < u.weight freq) : p.weight freq < q.weight freq := by
  cases p with
  | leaf sym => simp [children] at ht
  | node t0 t1 =>
    cases q with
    | leaf sym => simp [children] at hu
    | node u0 u1 =>
      have h00 := h t0 (by simp [children]) u0 (by simp [children])
      have h01 := h t0 (by simp [children]) u1 (by simp [children])
      have h10 := h t1 (by simp [children]) u0 (by simp [children])
      have h11 := h t1 (by simp [children]) u1 (by simp [children])
      rw [weight, weight]
      rcases List.mem_pair.mp ht with rfl | rfl <;> rcases List.mem_pair.mp hu with rfl | rfl <;> omega

/-- Two merges of the Huffman tree come one before the other. -/
theorem mergedBefore_or {p q : HTree} (hp : p ∈ merges freq) (hq : q ∈ merges freq) (hne : p ≠ q) :
    MergedBefore freq p q ∨ MergedBefore freq q p := by
  obtain ⟨i, hi, rfl⟩ := List.getElem_of_mem hp
  obtain ⟨j, hj, rfl⟩ := List.getElem_of_mem hq
  have hpairs := List.pairwise_iff_getElem.mp (mergesOf_pairwise (fuel := 256) (forest_sorted freq))
  rcases Nat.lt_trichotomy i j with hij | rfl | hij
  · exact .inl (hpairs i j hi hj hij)
  · exact absurd rfl hne
  · exact .inr (hpairs j i hj hi hij)

/-- In the Huffman tree the heavier of two subtrees is not the deeper one: were it, so would be its parent, which is
heavier than the other's parent, since it was merged later; but nothing is heavier than the root (R129). -/
theorem Below.depth_le {h t u : HTree} {d e : Nat} (hh : huffman freq = some h) (hnodup : h.leaves.Nodup)
    (ht : Below h t d) (hu : Below h u e) (hlt : u.weight freq < t.weight freq) : d ≤ e := by
  induction hu generalizing t d with
  | root => exact absurd (ht.weight_le (freq := freq)) (Nat.not_le.mpr hlt)
  | @child q u e hq huq ih =>
    cases ht with
    | root => exact Nat.zero_le _
    | @child p _ d hp htp =>
      refine Nat.succ_le_succ ?_
      by_cases hpq : p = q
      · subst hpq
        exact (hp.depth_unique hnodup hq).le
      · rcases mergedBefore_or (mem_merges_of_child hh hq.mem_preorder huq)
          (mem_merges_of_child hh hp.mem_preorder htp) (Ne.symm hpq) with hbefore | hbefore
        · exact ih hp (hbefore.weight_lt huq htp hlt)
        · exact absurd (hbefore t htp u huq) (Nat.not_le.mpr hlt)

end HTree

namespace Machine

theorem toNat_result_encode {code : List Bit} (h : code.length < 2 ^ 32) (s : State) :
    (finish (emitBits s code) (BitVec.ofNat 32 code.length)).result.toNat = code.length := by
  rw [finish_result, BitVec.toNat_ofNat, Nat.mod_eq_of_lt h]

/-- Settles O15: RESULT of ENCODE is the depth of the symbol's leaf. -/
theorem higherCountShorterCode : Obligations.HigherCountShorterCode := by
  intro s t a b hbuild hb hlt
  obtain ⟨c, hexec, hlog⟩ := exec_build s
  obtain rfl : builtState s c = t := Host.Outcome.next.inj (hexec.symm.trans hbuild)
  have hpresent {sym : Symbol} (hsym : getFreq s sym ≠ 0#32) : sym ∈ HTree.presentSymbols s.freq :=
    List.mem_filter.mpr ⟨mem_allSymbols sym, decide_eq_true hsym⟩
  have ha : getFreq s a ≠ 0#32 := by
    intro hzero
    simp [hzero] at hlt
  obtain ⟨h, hh⟩ := Option.ne_none_iff_exists'.mp
    (mt HTree.huffman_eq_none_iff.mp (List.ne_nil_of_mem (hpresent hb)))
  have htree := treeAt_builtState hlog hh
  have hleaves := HTree.huffman_leaves s.freq
  rw [hh, Option.toList_some, forestLeaves_cons, forestLeaves_nil, List.append_nil] at hleaves
  obtain ⟨codeA, hcodeA⟩ := HTree.exists_code_of_mem_leaves (hleaves.mem_iff.mpr (hpresent ha))
  obtain ⟨codeB, hcodeB⟩ := HTree.exists_code_of_mem_leaves (hleaves.mem_iff.mpr (hpresent hb))
  have hdepth := HTree.Below.depth_le hh htree.distinct (HTree.Below.root.leaf_of_code hcodeA)
    (HTree.Below.root.leaf_of_code hcodeB) hlt
  have hcap := htree.length_leaves_le
  have hlenA := HTree.length_code_lt hcodeA
  have hlenB := HTree.length_code_lt hcodeB
  refine ⟨_, _, htree.exec_encode hcodeA, htree.exec_encode hcodeB, ?_⟩
  rw [toNat_result_encode (by omega), toNat_result_encode (by omega)]
  omega

end Machine
end Sys2Proof
end

section
/-! ### ENCODE and DECODE on the machine's tree (42_encode_decode.md R140 to R146) -/

namespace Sys2Proof

open Sys2Proof.Machine

namespace HTree

theorem mem_codes_leaf {a sym : Symbol} {code : List Bit} : (sym, code) ∈ (leaf a).codes ↔ sym = a ∧ code = [] := by
  simp [codes]

/-- A code of an internal node is a bit and a code of the child on that side (R142). -/
theorem mem_codes_node {t0 t1 : HTree} {sym : Symbol} {code : List Bit} :
    (sym, code) ∈ (node t0 t1).codes ↔ ∃ b path, code = b :: path ∧ (sym, path) ∈ (if b then t1 else t0).codes := by
  simp [codes, eq_comm, and_comm]

/-- No code of a tree begins the code of another symbol (R142). -/
theorem eq_of_code_prefix {t : HTree} {a b : Symbol} {p q : List Bit} (ha : (a, p) ∈ t.codes)
    (hb : (b, q) ∈ t.codes) (hpq : p <+: q) : a = b := by
  induction t generalizing p q with
  | leaf sym => exact (mem_codes_leaf.mp ha).1.trans (mem_codes_leaf.mp hb).1.symm
  | node t0 t1 ih0 ih1 =>
    obtain ⟨side, pathA, rfl, hpathA⟩ := mem_codes_node.mp ha
    obtain ⟨_, pathB, rfl, hpathB⟩ := mem_codes_node.mp hb
    obtain ⟨rfl, hpath⟩ := List.cons_prefix_cons.mp hpq
    cases side with
    | false => exact ih0 hpathA hpathB hpath
    | true => exact ih1 hpathA hpathB hpath

end HTree

namespace Machine

/-! #### The descent -/

theorem descend_of_leaf {s : State} {c : NodeIdx} {sym : Symbol} (h : holds s.node (.leaf sym) c = true)
    (fuel bits : Nat) : descend fuel c bits s = .leaf bits sym s := by
  obtain ⟨w, hc⟩ := holds_leaf_iff.mp h
  simp only [NodeRec.content, Prod.mk.injEq] at hc
  obtain ⟨-, hleaf, hsym, -⟩ := hc
  cases fuel <;> simp [descend, nodeAt?_of_holds h, hleaf, hsym]

/-- At an internal node the descent reads a bit and goes on in the child on that side (R143, R144). -/
theorem descend_of_node {s : State} {c : NodeIdx} {t0 t1 : HTree} {b : Bit} {rest : List Bit}
    (h : holds s.node (.node t0 t1) c = true) (hsrc : s.src.drop s.srcPos = b :: rest) (fuel bits : Nat) :
    descend (fuel + 1) c bits s =
      descend fuel (if b then (nodeAt s.node c).child1 else (nodeAt s.node c).child0) (bits + 1)
        { s with srcPos := s.srcPos + 1 } := by
  obtain ⟨w, _, _, hc, -⟩ := holds_node_iff.mp h
  have hleaf : (nodeAt s.node c).leaf = false := congrArg (·.2.1) hc
  simp [descend, nodeAt?_of_holds h, hleaf, (readBit_of_drop hsrc).1]

/-- With a code of a held tree at the cursor the descent ends at that code's symbol and reads the code (R144). -/
theorem descend_of_code {s : State} {t : HTree} {c : NodeIdx} (h : holds s.node t c = true) {sym : Symbol}
    {code rest : List Bit} (hp : (sym, code) ∈ t.codes) (hsrc : s.src.drop s.srcPos = code ++ rest)
    (fuel bits : Nat) :
    descend (fuel + code.length) c bits s =
      .leaf (bits + code.length) sym { s with srcPos := s.srcPos + code.length } := by
  induction t generalizing s c code bits with
  | leaf a =>
    obtain ⟨rfl, rfl⟩ := HTree.mem_codes_leaf.mp hp
    exact descend_of_leaf h _ _
  | node t0 t1 ih0 ih1 =>
    obtain ⟨b, path, rfl, hpath⟩ := HTree.mem_codes_node.mp hp
    obtain ⟨-, hrest⟩ := readBit_of_drop hsrc
    obtain ⟨w, _, _, hc, -, -, -, h0, h1⟩ := holds_node_iff.mp h
    obtain ⟨rfl, rfl⟩ := NodeRec.children_of_content hc
    rw [List.length_cons, ← Nat.add_assoc, descend_of_node h hsrc, Nat.add_comm path.length, ← Nat.add_assoc,
      ← Nat.add_assoc]
    cases b with
    | false => exact ih0 (s := { s with srcPos := s.srcPos + 1 }) h0 hpath hrest _
    | true => exact ih1 (s := { s with srcPos := s.srcPos + 1 }) h1 hpath hrest _

/-! #### The RESULT of DECODE -/

theorem decodeResult_eq {bits : Nat} (h : bits ≤ 255) (sym : Symbol) :
    decodeResult bits sym = BitVec.ofNat 32 (256 * bits + sym.toNat) := by
  apply BitVec.eq_of_toNat_eq
  have hsym := sym.isLt
  simp only [decodeResult, BitVec.toNat_append, BitVec.toNat_ofNat, Nat.zero_mod, Nat.zero_shiftLeft, Nat.zero_or]
  rw [← Nat.shiftLeft_add_eq_or_of_lt hsym, Nat.shiftLeft_eq]
  omega

/-- RESULT[7:0] of DECODE is the symbol (R28). -/
theorem extractLsb'_decodeResult (bits : Nat) (sym : Symbol) : (decodeResult bits sym).extractLsb' 0 8 = sym :=
  BitVec.extractLsb'_append_eq_right

/-! #### The two commands -/

theorem TreeAt.length_code_le {s : State} {r : NodeIdx} {h : HTree} (ht : TreeAt s r h) {sym : Symbol}
    {code : List Bit} (hp : (sym, code) ∈ h.codes) : code.length ≤ 255 := by
  have hlt := HTree.length_code_lt hp
  have hle := ht.length_leaves_le
  omega

/-- DECODE of a code of the tree at the cursor reads the code and gives its symbol (R143, R144). -/
theorem TreeAt.exec_decode {s : State} {r : NodeIdx} {h : HTree} (ht : TreeAt s r h) {sym : Symbol}
    {code rest : List Bit} (hp : (sym, code) ∈ h.codes) (hsrc : s.src.drop s.srcPos = code ++ rest) :
    exec .decode s =
      .next (finish { s with srcPos := s.srcPos + code.length } (decodeResult code.length sym)) := by
  have hwalk := descend_of_code ht.held hp hsrc (Config.maxDepth - code.length) 0
  rw [Nat.sub_add_cancel (show code.length ≤ Config.maxDepth from ht.length_code_le hp), Nat.zero_add] at hwalk
  simp [exec, execDecode, ht.root_eq, hwalk]

theorem TreeAt.decoded {s : State} {r : NodeIdx} {h : HTree} (ht : TreeAt s r h) (pos : Nat) (result : Word) :
    TreeAt (finish { s with srcPos := pos } result) r h :=
  ht.congr ⟨rfl, rfl, rfl, rfl⟩

/-- Settles O16, by the climb from the symbol's leaf. -/
theorem encodeEmitsCode : Obligations.EncodeEmitsCode := by
  intro s r h sym code ht hp
  refine ⟨ht.length_code_le hp, ?_⟩
  rw [ht.exec_encode hp, emitBits_eq]
  rfl

/-- Settles O18: what ENCODE emits is the code, and no code of a tree begins another. -/
theorem codesArePrefixFree : Obligations.CodesArePrefixFree := by
  intro s u v r h a b ht ha hb hu hv hpre
  obtain ⟨codeA, hcodeA⟩ := HTree.exists_code_of_mem_leaves ha
  obtain ⟨codeB, hcodeB⟩ := HTree.exists_code_of_mem_leaves hb
  obtain rfl := Host.Outcome.next.inj ((ht.exec_encode hcodeA).symm.trans hu)
  obtain rfl := Host.Outcome.next.inj ((ht.exec_encode hcodeB).symm.trans hv)
  simp only [emitBits_eq, finish_sink, List.drop_left] at hpre
  exact HTree.eq_of_code_prefix hcodeA hcodeB hpre

/-- Settles O20, by the descent along the code. -/
theorem decodeReadsCode : Obligations.DecodeReadsCode := by
  intro s r h sym code rest ht hp hsrc
  rw [ht.exec_decode hp hsrc, decodeResult_eq (ht.length_code_le hp)]
  rfl

/-- Settles O23: the code of the only leaf is empty, so it stands at every cursor. -/
theorem singleLeafTree : Obligations.SingleLeafTree := by
  intro s r sym ht
  have hp : (sym, []) ∈ (HTree.leaf sym).codes := HTree.mem_codes_leaf.mpr ⟨rfl, rfl⟩
  constructor
  · simpa using (encodeEmitsCode s r _ sym [] ht hp).2
  · simpa using decodeReadsCode s r _ sym [] _ ht hp rfl

/-! #### A buffer encoded and decoded back -/

theorem decodeMany_succ_of_next {n : Nat} {v t : State} (h : exec .decode v = .next t) (herr : t.err = false) :
    decodeMany (n + 1) v = (decodeMany n t).map fun p => (t.result.extractLsb' 0 8 :: p.1, p.2) := by
  simp [decodeMany, h, herr]

/-- Settles O24, by induction on the buffer: each DECODE reads what the ENCODE of the same symbol emitted, and both
leave their machine's tree. -/
theorem encodeDecodeRoundTrip : Obligations.EncodeDecodeRoundTrip := by
  intro s r h buf ht hbuf
  induction buf generalizing s with
  | nil => exact ⟨s, [], rfl, by simp, fun v q rest _ _ _ => ⟨v, rfl, rfl⟩⟩
  | cons sym buf ih =>
    obtain ⟨hsym, hbuf⟩ := List.forall_mem_cons.mp hbuf
    obtain ⟨code, hp⟩ := HTree.exists_code_of_mem_leaves hsym
    obtain ⟨u, bits, hu, hsink, hdecode⟩ := ih _ (ht.emitted code (BitVec.ofNat 32 code.length)) hbuf
    refine ⟨u, code ++ bits, (execAll_cons_of_next (ht.exec_encode hp) _).trans hu, ?_, ?_⟩
    · rw [hsink, finish_sink, emitBits_eq, List.append_assoc]
    · intro v q rest hv herr hsrc
      rw [List.append_assoc] at hsrc
      have hexec := hv.exec_decode hp hsrc
      have hrest : v.src.drop (v.srcPos + code.length) = bits ++ rest := by
        rw [← List.drop_drop, hsrc, List.drop_left]
      obtain ⟨w, hw, hpos⟩ := hdecode _ q rest (hv.decoded _ _) herr hrest
      refine ⟨w, ?_, ?_⟩
      · rw [List.length_cons, decodeMany_succ_of_next hexec herr, hw, Option.map_some, finish_result,
          extractLsb'_decodeResult]
      · rw [hpos, finish_srcPos, List.length_append, Nat.add_assoc]

end Machine
end Sys2Proof
end

section
/-! ### SERIALIZE (43_serialize.md R160 to R162, R168) -/

namespace Sys2Proof.Machine

open Sys2Proof

/-- Settles O25, by the walk of Ser() down the machine's tree. -/
theorem serializeEmitsForm : Obligations.SerializeEmitsForm := by
  intro s r h ht
  have hlen : h.form.length = 10 * h.leaves.length - 1 := by
    have := h.length_form
    omega
  have hbits := serialBits_of_holds (fuel := Config.maxDepth + 1) ht.held ht.length_leaves_le
  refine ⟨hlen, ?_⟩
  simp only [exec, execSerialize, ht.root_eq, hbits, emitBits_eq, hlen, finish]

/-- Settles O26: without a root there is nothing to walk. -/
theorem serializeWithoutTree : Obligations.SerializeWithoutTree := by
  intro s hroot
  simp only [exec, execSerialize, hroot, finish]

end Sys2Proof.Machine
end

section
/-! ### The items of a form (43_serialize.md R161, R162) -/

namespace Sys2Proof

@[simp] theorem itemSymbols_nil : itemSymbols [] = [] := rfl

@[simp] theorem itemSymbols_internal (items : List FormItem) :
    itemSymbols (.internal :: items) = itemSymbols items := rfl

/-- A tree of k leaves has k-1 internal nodes (R162). -/
theorem HTree.count_internal_items (t : HTree) : t.items.count .internal + 1 = t.leaves.length := by
  induction t with
  | leaf sym => rfl
  | node t0 t1 ih0 ih1 =>
    simp only [items, leaves, List.count_cons_self, List.count_append, List.length_append]
    omega

end Sys2Proof
end

section
/-! ### Des() by what the source holds next (43_serialize.md R163, R165) -/

namespace Sys2Proof.Machine

open Sys2Proof

/-- Any eight bits are those of a symbol (R63). -/
theorem exists_symBits_append {bits : List Bit} (h : 8 ≤ bits.length) :
    ∃ sym rest, bits = symBits sym ++ rest := by
  match bits, h with
  | b7 :: b6 :: b5 :: b4 :: b3 :: b2 :: b1 :: b0 :: rest, _ =>
    exact ⟨BitVec.ofBoolListBE [b7, b6, b5, b4, b3, b2, b1, b0], rest,
      by rw [symBits]; simp only [BitVec.getLsbD_ofBoolListBE]; rfl⟩

@[simp] theorem DesCtx.past_internals (c : DesCtx) (k : Nat) : (c.past k).internals = c.internals := rfl

/-- A symbol whose bits the source ends in (R165 (a)). -/
theorem readSymbol_of_short {k : Nat} {sym : Symbol} {c : DesCtx} (h : c.left.length < k) :
    readSymbol k sym c = .fail true (c.past c.left.length) := by
  induction k generalizing sym c with
  | zero => exact absurd h (Nat.not_lt_zero _)
  | succ k ih =>
    rcases read1_cases c with ⟨hleft, hread⟩ | ⟨b, rest, hleft, hread, hrest⟩
    · simp [readSymbol, hread, hleft]
    · have hlen : (c.past 1).left.length < k := by
        rw [hrest]
        simpa [hleft] using h
      simp only [readSymbol, hread, ih hlen, hrest, hleft, List.length_cons, DesCtx.past_past, Nat.add_comm]

section
variable {c : DesCtx} (fuel : Nat)

/-- EOS at a tag (R165 (a)). -/
theorem des_of_left_nil (h : c.left = []) : des (fuel + 1) c = .fail true c := by
  simp only [des, read1_of_left_nil h]

/-- EOS in the symbol of a leaf (R165 (a)). -/
theorem des_of_short_leaf {bits : List Bit} (h : c.left = true :: bits) (hlen : bits.length < 8) :
    des (fuel + 1) c = .fail true (c.past (bits.length + 1)) := by
  obtain ⟨hread, hrest⟩ := read1_of_left h
  have hsym := readSymbol_of_short (sym := 0#8) (hrest ▸ hlen)
  simp only [des, hread, hsym, hrest, DesCtx.past_past, Nat.add_comm]

/-- A leaf of a new symbol (R163). -/
theorem des_of_leaf {sym : Symbol} {rest : List Bit} (h : c.left = true :: (symBits sym ++ rest))
    (hfree : leafAt c.st.leafOf sym = none) :
    des (fuel + 1) c = .ok (BitVec.ofNat 9 c.n) (allocLeaf (c.past 9) sym) := by
  obtain ⟨hread, hrest⟩ := read1_of_left h
  obtain ⟨hsym, -⟩ := readSymbol_symBits hrest
  simp only [des, hread, hsym, DesCtx.past_past, DesCtx.past_leafOf, hfree]
  rfl

/-- A leaf of a symbol that has one already (R165 (b)). -/
theorem des_of_repeated_leaf {sym : Symbol} {rest : List Bit} (h : c.left = true :: (symBits sym ++ rest))
    (hused : leafAt c.st.leafOf sym ≠ none) : des (fuel + 1) c = .fail false (c.past 9) := by
  obtain ⟨hread, hrest⟩ := read1_of_left h
  obtain ⟨hsym, -⟩ := readSymbol_symBits hrest
  simp only [des, hread, hsym, DesCtx.past_past, DesCtx.past_leafOf, Option.isSome_iff_ne_none.mpr hused, if_true]

/-- One internal tag too many (R165 (c)). -/
theorem des_of_full_internal {rest : List Bit} (h : c.left = false :: rest) (hfull : c.internals = Config.maxInternal) :
    des (fuel + 1) c = .fail false (c.past 1) := by
  simp only [des, (read1_of_left h).1, DesCtx.past_internals, hfull, if_true]

variable {rest : List Bit} (h : c.left = false :: rest) (hroom : c.internals ≠ Config.maxInternal)
include h hroom

/-- An internal node whose "0" subtree fails. -/
theorem des_of_internal_fail_zero {eos : Bool} {d : DesCtx}
    (h0 : des fuel (allocInternal (c.past 1)) = .fail eos d) : des (fuel + 1) c = .fail eos d := by
  simp only [des, (read1_of_left h).1, DesCtx.past_internals, if_neg hroom, h0]

/-- An internal node whose "1" subtree fails. -/
theorem des_of_internal_fail_one {eos : Bool} {a : NodeIdx} {ca d : DesCtx}
    (h0 : des fuel (allocInternal (c.past 1)) = .ok a ca) (h1 : des fuel ca = .fail eos d) :
    des (fuel + 1) c = .fail eos d := by
  simp only [des, (read1_of_left h).1, DesCtx.past_internals, if_neg hroom, h0, h1]

/-- An internal node with both its subtrees. -/
theorem des_of_internal {a b : NodeIdx} {ca cb : DesCtx}
    (h0 : des fuel (allocInternal (c.past 1)) = .ok a ca) (h1 : des fuel ca = .ok b cb) :
    des (fuel + 1) c = .ok (BitVec.ofNat 9 c.n) (closeInternal cb (BitVec.ofNat 9 c.n) a b) := by
  simp only [des, (read1_of_left h).1, DesCtx.past_internals, if_neg hroom, h0, h1]
  rfl

end

end Sys2Proof.Machine
end

section
/-! ### What a successful Des() has read (43_serialize.md R163, R164) -/

namespace Sys2Proof.Machine

open Sys2Proof

/-- Every weight is 0, as DESERIALIZE leaves them (R163). -/
def Weightless (ns : NodeStore) : Prop := ∀ i : NodeIdx, (nodeAt ns i).weight = 0#40

theorem Weightless.setNode {ns : NodeStore} (h : Weightless ns) (i : NodeIdx) {r : NodeRec} (hr : r.weight = 0#40) :
    Weightless (setNode ns i r) := by
  intro j
  by_cases hj : j = i
  · subst hj
    by_cases hlt : j.toNat < 511
    · rw [nodeAt_setNode_same _ _ hlt, hr]
    · rw [Machine.setNode, dif_neg hlt, h j]
  · rw [nodeAt_setNode_ne _ _ hj, h j]

theorem Weightless.linkParent {ns : NodeStore} (h : Weightless ns) (i p : NodeIdx) (side : Bit) :
    Weightless (linkParent ns i p side) := h.setNode i (h i)

theorem Weightless.closeInternal {c : DesCtx} (h : Weightless c.st.node) (p a b : NodeIdx) :
    Weightless (closeInternal c p a b).st.node := by
  have hp := h.setNode p
    (r := { nodeAt c.st.node p with child0 := a, child1 := b, sym := (nodeAt c.st.node a).sym }) (h p)
  exact (hp.linkParent a p false).linkParent b p true

@[simp] theorem closeInternal_left (c : DesCtx) (p a b : NodeIdx) : (closeInternal c p a b).left = c.left := rfl

/-- A successful Des() has read the form of `t` on its way from `c` to `d`, and has planted every subtree at the index
that its tag's place in the form says (R163, R164). -/
structure ReadForm (c d : DesCtx) (syms : List Symbol) (t : HTree) : Prop
    extends ReadTree c d (BitVec.ofNat 9 c.n) t where
  inv        : DesInv d (syms ++ t.leaves)
  form       : c.left = t.form ++ d.left
  bits       : d.bits = c.bits + t.form.length
  place      : ∀ i u, t.preorder[i]? = some u → Planted d.st.node d.st.leafOf u (BitVec.ofNat 9 (c.n + i))
  weightless : Weightless c.st.node → Weightless d.st.node

theorem ReadForm.n_eq {c d : DesCtx} {syms : List Symbol} {t : HTree} (h : ReadForm c d syms t) (hc : DesInv c syms) :
    d.n = c.n + t.preorder.length := by
  have hd := h.inv.count
  have hint := h.internals
  have hpre := t.length_preorder
  rw [List.length_append] at hd
  have := hc.count
  omega

/-- A leaf of a new symbol (R163). -/
theorem DesInv.readForm_leaf {c : DesCtx} {syms : List Symbol} (hc : DesInv c syms) {sym : Symbol} {rest : List Bit}
    (h : c.left = true :: (symBits sym ++ rest)) (hfree : leafAt c.st.leafOf sym = none) :
    ReadForm c (allocLeaf (c.past 9) sym) syms (.leaf sym) := by
  obtain ⟨hinv, hread⟩ := (hc.past 9).readTree_leaf hfree
  refine ⟨hread.of_past, hinv, ?_, rfl, fun i u hu => ?_, fun hw => hw.setNode _ rfl⟩
  · obtain ⟨-, hrest⟩ := read1_of_left h
    obtain ⟨-, hleft⟩ := readSymbol_symBits hrest
    rw [DesCtx.past_past] at hleft
    rw [h]
    exact congrArg (fun bits => true :: (symBits sym ++ bits)) hleft.symm
  · obtain ⟨rfl, rfl⟩ : i = 0 ∧ u = .leaf sym := by
      cases i <;> simp_all [HTree.preorder]
    exact hread.planted

/-- Closing an internal node is putting it over its subtrees, which stay planted (R163). -/
theorem closeInternal_grows {c : DesCtx} {p a b : NodeIdx} (h : Joinable c.st.node p a b) :
    Grows c.st.node c.st.leafOf (closeInternal c p a b).st.node (closeInternal c p a b).st.leafOf :=
  grows_joinNodes _ h _

/-- An internal node and its two subtrees (R163). -/
theorem DesInv.readForm_node {c ca cb : DesCtx} {syms : List Symbol} (hc : DesInv c syms) {rest : List Bit}
    (h : c.left = false :: rest) (hroom : c.internals ≠ Config.maxInternal) {t0 t1 : HTree}
    (h0 : ReadForm (Machine.allocInternal (c.past 1)) ca syms t0) (h1 : ReadForm ca cb (syms ++ t0.leaves) t1) :
    ReadForm c (closeInternal cb (BitVec.ofNat 9 c.n) (BitVec.ofNat 9 (c.n + 1)) (BitVec.ofNat 9 ca.n)) syms
      (.node t0 t1) := by
  have hpast := hc.past 1
  obtain ⟨-, hinvI, -⟩ := hpast.allocInternal hroom
  obtain ⟨hinv, hread⟩ := hpast.readTree_node hroom h0.inv h0.toReadTree h1.inv h1.toReadTree
  obtain ⟨-, -, hjoin⟩ := hpast.joinable hroom h0.inv h0.toReadTree h1.toReadTree
  have hgrow := closeInternal_grows hjoin
  refine ⟨hread.of_past, hinv, ?_, ?_, fun i u hu => ?_, fun hw => ?_⟩
  · have hrest : (Machine.allocInternal (c.past 1)).left = rest := (read1_of_left h).2
    have hleft : c.left = false :: (t0.form ++ (t1.form ++ cb.left)) := by rw [h, ← hrest, h0.form, h1.form]
    rw [hleft, HTree.form, closeInternal_left, List.cons_append, List.append_assoc]
  · have hb0 : ca.bits = c.bits + 1 + t0.form.length := h0.bits
    have hb1 := h1.bits
    simp only [closeInternal, HTree.form, List.length_cons, List.length_append]
    omega
  · cases i with
    | zero =>
      obtain rfl : HTree.node t0 t1 = u := by simpa [HTree.preorder] using hu
      exact hread.planted
    | succ i =>
      have hn : ca.n = c.n + 1 + t0.preorder.length := h0.n_eq hinvI
      rw [HTree.preorder, List.getElem?_cons_succ] at hu
      rcases Nat.lt_or_ge i t0.preorder.length with hi | hi
      · rw [List.getElem?_append_left hi] at hu
        have hplace : Planted ca.st.node ca.st.leafOf u (BitVec.ofNat 9 (c.n + 1 + i)) := h0.place i u hu
        rw [Nat.add_assoc, Nat.add_comm 1] at hplace
        exact (hplace.grow (h0.inv.alloc.grows h1.frame h1.entries)).grow hgrow
      · rw [List.getElem?_append_right hi] at hu
        have hplace := h1.place _ u hu
        rw [show ca.n + (i - t0.preorder.length) = c.n + (i + 1) by omega] at hplace
        exact hplace.grow hgrow
  · have hwI : Weightless (Machine.allocInternal (c.past 1)).st.node := hw.setNode _ rfl
    exact (h1.weightless (h0.weightless hwI)).closeInternal _ _ _

end Sys2Proof.Machine
end

section
/-! ### Des() on a form, whole or in part (43_serialize.md R163, R165) -/

namespace Sys2Proof.Machine

open Sys2Proof

@[simp] theorem allocInternal_internals (c : DesCtx) : (Machine.allocInternal c).internals = c.internals + 1 := rfl

/-- The items can be read from `c` on, after leaves of the symbols `syms`: none of them is case (b) or (c) of R165, and
the fuel suffices for the subtrees they open. -/
structure Fits (c : DesCtx) (syms : List Symbol) (items : List FormItem) (fuel : Nat) : Prop where
  inv    : DesInv c syms
  nodup  : (syms ++ itemSymbols items).Nodup
  room   : c.internals + items.count .internal ≤ Config.maxInternal
  enough : Config.maxDepth + 1 ≤ fuel + c.internals

section
variable {c : DesCtx} {syms : List Symbol} {items more : List FormItem} {fuel : Nat}

theorem Fits.exists_fuel (h : Fits c syms items fuel) : ∃ k, fuel = k + 1 := by
  have hroom := h.room
  have henough := h.enough
  simp only [Config.maxInternal, Config.maxDepth] at hroom henough
  exact ⟨fuel - 1, by omega⟩

/-- The items that come first. -/
theorem Fits.left (h : Fits c syms (items ++ more) fuel) : Fits c syms items fuel := by
  have hnodup := h.nodup
  have hroom := h.room
  rw [itemSymbols_append, ← List.append_assoc] at hnodup
  rw [List.count_append] at hroom
  exact ⟨h.inv, hnodup.of_append_left, by omega, h.enough⟩

/-- Past an internal tag (R163). -/
theorem Fits.enter (h : Fits c syms (.internal :: items) (fuel + 1)) :
    c.internals ≠ Config.maxInternal ∧ Fits (Machine.allocInternal (c.past 1)) syms items fuel := by
  have hroom := h.room
  have henough := h.enough
  rw [List.count_cons_self] at hroom
  have hne : c.internals ≠ Config.maxInternal := by omega
  obtain ⟨-, hinv, -⟩ := (h.inv.past 1).allocInternal hne
  refine ⟨hne, hinv, h.nodup, ?_, ?_⟩ <;>
    simp only [allocInternal_internals, DesCtx.past_internals] <;> omega

/-- Past a subtree (R163). -/
theorem Fits.advance {d : DesCtx} {t : HTree} (h : Fits c syms (t.items ++ items) fuel) (ht : ReadForm c d syms t) :
    Fits d (syms ++ t.leaves) items fuel := by
  have hnodup := h.nodup
  have hroom := h.room
  have henough := h.enough
  have hint := ht.internals
  have hcount := t.count_internal_items
  rw [itemSymbols_append, HTree.itemSymbols_items, ← List.append_assoc] at hnodup
  rw [List.count_append] at hroom
  exact ⟨ht.inv, hnodup, by omega, by omega⟩

end

/-- Des() with the form of a tree at the cursor reads that tree (R163). -/
theorem des_of_form {t : HTree} {c : DesCtx} {syms : List Symbol} {fuel : Nat} {rest : List Bit}
    (hfits : Fits c syms t.items fuel) (h : c.left = t.form ++ rest) :
    ∃ d, des fuel c = .ok (BitVec.ofNat 9 c.n) d ∧ ReadForm c d syms t ∧ d.left = rest := by
  induction t generalizing c syms fuel rest with
  | leaf sym =>
    obtain ⟨fuel, rfl⟩ := hfits.exists_fuel
    have hnew : sym ∉ syms := fun hmem => List.disjoint_of_nodup_append hfits.nodup hmem (List.mem_singleton_self sym)
    have hfree := (hfits.inv.mapped_iff sym).mpr hnew
    have hread := hfits.inv.readForm_leaf h hfree
    exact ⟨_, des_of_leaf fuel h hfree, hread, List.append_cancel_left (hread.form.symm.trans h)⟩
  | node t0 t1 ih0 ih1 =>
    obtain ⟨fuel, rfl⟩ := hfits.exists_fuel
    obtain ⟨hroom, hfits0⟩ := hfits.enter
    rw [HTree.form, List.cons_append, List.append_assoc] at h
    obtain ⟨ca, e0, h0, hleft⟩ := ih0 hfits0.left (read1_of_left h).2
    obtain ⟨cb, e1, h1, hrest⟩ := ih1 (hfits0.advance h0) hleft
    exact ⟨_, des_of_internal fuel h hroom e0 e1, hfits.inv.readForm_node h hroom h0 h1, hrest⟩

/-- With `tail` at the cursor, after leaves of the symbols `syms` and `internals` internal nodes, Des() fails when it
has read `k` bits. -/
def Stops (syms : List Symbol) (internals : Nat) (tail : List Bit) (eos : Bool) (k : Nat) : Prop :=
  ∀ (c : DesCtx) (fuel : Nat), DesInv c syms → c.internals = internals → c.left = tail →
    des (fuel + 1) c = .fail eos (c.past k)

theorem Stops.exists_fail {c : DesCtx} {syms syms' : List Symbol} {internals fuel k : Nat} {tail : List Bit}
    {eos : Bool} (hstop : Stops syms' internals tail eos k) (hfits : Fits c syms [] fuel) (h : c.left = tail)
    (hsyms : syms ++ itemSymbols [] = syms') (hint : c.internals = internals) :
    ∃ d, des fuel c = .fail eos d ∧ d.bits = c.bits + k := by
  obtain ⟨fuel, rfl⟩ := hfits.exists_fuel
  obtain rfl : syms = syms' := by simpa using hsyms
  exact ⟨_, hstop c fuel hfits.inv hint h, rfl⟩

/-- A list that begins two lists one after the other, without being all of them, ends in the first or in the second. -/
theorem prefix_append_cases {α : Type} {items xs ys : List α} {item : α} (h : items ++ [item] <+: xs ++ ys) :
    items ++ [item] <+: xs ∨ ∃ more, items = xs ++ more ∧ more ++ [item] <+: ys := by
  rcases List.prefix_or_prefix_of_prefix h (List.prefix_append xs ys) with hxs | hxs
  · exact .inl hxs
  · rcases List.prefix_concat_iff.mp hxs with rfl | ⟨more, rfl⟩
    · exact .inl (List.prefix_refl _)
    · rw [List.append_assoc] at h
      exact .inr ⟨more, rfl, (List.prefix_append_right_inj xs).mp h⟩

/-- If Des() fails on an item of a form, it fails on the form up to that item (R165). -/
theorem des_of_stops {t : HTree} {items : List FormItem} {item : FormItem} {c : DesCtx} {syms syms' : List Symbol}
    {internals fuel k : Nat} {tail : List Bit} {eos : Bool} (hpre : items ++ [item] <+: t.items)
    (hfits : Fits c syms items fuel) (h : c.left = itemBits items ++ tail) (hsyms : syms ++ itemSymbols items = syms')
    (hint : c.internals + items.count .internal = internals) (hstop : Stops syms' internals tail eos k) :
    ∃ d, des fuel c = .fail eos d ∧ d.bits = c.bits + (itemBits items).length + k := by
  induction t generalizing items c syms fuel with
  | leaf sym =>
    obtain rfl : items = [] := by simpa [HTree.items] using hpre.length_le
    exact hstop.exists_fail hfits h hsyms hint
  | node t0 t1 ih0 ih1 =>
    cases items with
    | nil => exact hstop.exists_fail hfits h hsyms hint
    | cons first items =>
      rw [HTree.items, List.cons_append, List.cons_prefix_cons] at hpre
      obtain ⟨rfl, hpre⟩ := hpre
      obtain ⟨fuel, rfl⟩ := hfits.exists_fuel
      obtain ⟨hroom, hfits0⟩ := hfits.enter
      rw [itemBits_internal, List.cons_append] at h
      rw [List.count_cons_self] at hint
      have hbits : (Machine.allocInternal (c.past 1)).bits = c.bits + 1 := rfl
      obtain ⟨-, hleft⟩ := read1_of_left h
      rcases prefix_append_cases hpre with hpre0 | ⟨more, rfl, hpre1⟩
      · obtain ⟨d, e0, hd⟩ := ih0 hpre0 hfits0 hleft hsyms
          (by rw [allocInternal_internals, DesCtx.past_internals]; omega)
        refine ⟨d, des_of_internal_fail_zero fuel h hroom e0, ?_⟩
        rw [itemBits_internal, List.length_cons]
        omega
      · rw [itemBits_append, HTree.itemBits_items, List.append_assoc] at hleft
        obtain ⟨ca, e0, h0, hleft⟩ := des_of_form hfits0.left hleft
        have hint0 : ca.internals + 1 = c.internals + 1 + t0.leaves.length := h0.internals
        have hcount := t0.count_internal_items
        have hb0 := h0.bits
        rw [List.count_append] at hint
        obtain ⟨d, e1, hd⟩ := ih1 hpre1 (hfits0.advance h0) hleft
          (by rw [← hsyms, itemSymbols_internal, itemSymbols_append, HTree.itemSymbols_items, List.append_assoc])
          (by omega)
        refine ⟨d, des_of_internal_fail_one fuel h hroom e0 e1, ?_⟩
        rw [itemBits_internal, itemBits_append, HTree.itemBits_items, List.length_cons, List.length_append]
        omega

end Sys2Proof.Machine
end

section
/-! ### DESERIALIZE of a form (43_serialize.md R163, R164, R166, R167) -/

namespace Sys2Proof.Machine

open Sys2Proof

/-- What DESERIALIZE starts with (R163). -/
def desStart (s : State) : DesCtx := { n := 0, internals := 0, bits := 0, st := clearTree s }

/-- The machine after DESERIALIZE has read a tree (R163). -/
def rebuilt (s : State) (d : DesCtx) : State :=
  { s with node := d.st.node, leafOf := d.st.leafOf, root := some 0#9,
           leafCount := BitVec.ofNat 9 (d.n - d.internals), srcPos := s.srcPos + d.bits,
           result := BitVec.ofNat 32 d.bits, pending := none }

/-- The machine after DESERIALIZE has failed (R166, R208). -/
def malformed (s : State) (eos : Bool) (bits : Nat) : State :=
  { s with node := Table.const 511 NodeRec.zero, leafOf := Table.const 256 none, root := none, leafCount := 0#9,
           srcPos := s.srcPos + bits, err := true, errCode := .malformedTree, errEos := eos, errOp := 0x07#8,
           result := BitVec.ofNat 32 bits, pending := none }

/-- Des() changes the node store, LEAF_OF and the cursor alone (R163). -/
theorem desStart_frame {s : State} {fuel : Nat} {d : DesCtx} (h : (des fuel (desStart s)).ctx = d) :
    ∃ node leafOf, d.st = { clearTree s with node := node, leafOf := leafOf, srcPos := s.srcPos + d.bits } := by
  obtain ⟨-, hframe, -⟩ := des_consumes fuel (desStart s)
  rwa [h] at hframe

theorem exec_deserialize_of_ok {s : State} {d : DesCtx} (h : des (Config.maxDepth + 1) (desStart s) = .ok 0#9 d) :
    exec .deserialize s = .next (rebuilt s d) := by
  obtain ⟨node, leafOf, hst⟩ := desStart_frame (d := d) (congrArg DesEnd.ctx h)
  rw [desStart] at h
  simp only [exec, execDeserialize, h, rebuilt]
  rw [hst]
  rfl

theorem exec_deserialize_of_fail {s : State} {eos : Bool} {d : DesCtx}
    (h : des (Config.maxDepth + 1) (desStart s) = .fail eos d) :
    exec .deserialize s = .next (malformed s eos d.bits) := by
  obtain ⟨node, leafOf, hst⟩ := desStart_frame (d := d) (congrArg DesEnd.ctx h)
  rw [desStart] at h
  simp only [exec, execDeserialize, h]
  rw [hst]
  rfl

/-- After a failure there is no tree (R166). -/
theorem noTree_malformed (s : State) (eos : Bool) (bits : Nat) : NoTree (malformed s eos bits) :=
  ⟨rfl, rfl, fun _ hn => by rw [Table.mem_const hn]; rfl, fun sym => leafAt_const sym⟩

theorem fits_desStart (s : State) {items : List FormItem} (hnodup : (itemSymbols items).Nodup)
    (hroom : items.count .internal ≤ Config.maxInternal) :
    Fits (desStart s) [] items (Config.maxDepth + 1) :=
  ⟨desInv_start s, hnodup, by simpa [desStart] using hroom, Nat.le_refl _⟩

/-- The tree that DESERIALIZE has read is the machine's (R36, R163). -/
theorem ReadForm.treeAt {s : State} {d : DesCtx} {t : HTree} (h : ReadForm (desStart s) d [] t) :
    TreeAt (rebuilt s d) 0#9 t := by
  have hinv := h.inv
  rw [List.nil_append] at hinv
  have hint : d.internals + 1 = t.leaves.length := by simpa [desStart] using h.internals
  have hcount := hinv.count
  refine treeAt_of_planted rfl h.planted h.top hinv.nodup ?_ hinv.alloc (by omega)
    fun sym => (hinv.mapped_iff sym).mpr
  simp only [rebuilt]
  congr 1
  omega

/-- DESERIALIZE with the form of a tree of distinct symbols at the cursor reads that tree (R163). -/
theorem exec_deserialize_of_form {s : State} {t : HTree} {rest : List Bit} (hnodup : t.leaves.Nodup)
    (hsrc : s.src.drop s.srcPos = t.form ++ rest) :
    ∃ d, exec .deserialize s = .next (rebuilt s d) ∧ ReadForm (desStart s) d [] t := by
  have hlen := length_le_of_nodup_symbols hnodup
  have hcount := t.count_internal_items
  have hfits := fits_desStart s (items := t.items) (by rwa [HTree.itemSymbols_items])
    (by rw [Config.maxInternal]; omega)
  obtain ⟨d, hd, hread, -⟩ := des_of_form hfits hsrc
  exact ⟨d, exec_deserialize_of_ok hd, hread⟩

/-- No weight is left in the node store that DESERIALIZE starts with, so none is in the tree it reads. -/
theorem ReadForm.weight_eq {s : State} {d : DesCtx} {t : HTree} (h : ReadForm (desStart s) d [] t) (i : NodeIdx) :
    (nodeAt (rebuilt s d).node i).weight = 0#40 :=
  h.weightless (fun i => by rw [desStart, clearTree, nodeAt_const_zero]; rfl) i

/-- Settles O27, by Des() on the form. -/
theorem deserializeReadsForm : Obligations.DeserializeReadsForm := by
  intro s h rest hnodup hsrc
  obtain ⟨d, hexec, hread⟩ := exec_deserialize_of_form hnodup hsrc
  have hbits : d.bits = 10 * h.leaves.length - 1 := by
    have hform := h.length_form
    have hd : d.bits = 0 + h.form.length := hread.bits
    omega
  exact ⟨_, hexec, hread.treeAt, hread.weight_eq, by rw [← hbits]; rfl, by rw [← hbits]; rfl, rfl, rfl, rfl, rfl,
    ⟨rfl, rfl, rfl, rfl⟩, ⟨rfl, rfl, rfl, rfl, rfl⟩⟩

/-- Settles O56: every subtree is planted at its tag's place. -/
theorem deserializeAllocatesInTagOrder : Obligations.DeserializeAllocatesInTagOrder := by
  intro s h rest hnodup hsrc
  obtain ⟨d, hexec, hread⟩ := exec_deserialize_of_form hnodup hsrc
  have hplace (i : Nat) (u : HTree) (hu : h.preorder[i]? = some u) :
      Planted d.st.node d.st.leafOf u (BitVec.ofNat 9 i) := by
    simpa [desStart] using hread.place i u hu
  have hn : d.n = h.preorder.length := by simpa [desStart] using hread.n_eq (desInv_start s)
  have hlen := h.length_preorder
  exact ⟨_, hexec, by omega, fun i u hu => (hplace i u hu).held, fun i sym hu => (hplace i _ hu).mapped,
    fun i hi => hread.inv.alloc.eq_zero (hn ▸ hi)⟩

/-- Settles O29: SERIALIZE emits the form of BUILD's tree, and DESERIALIZE reads that form. -/
theorem serializeRoundTrip : Obligations.SerializeRoundTrip := by
  intro s t r hbuild hroot
  obtain ⟨u, hu, -, htree⟩ := execBuild_completes s
  obtain rfl : u = t := Host.Outcome.next.inj (hu.symm.trans hbuild)
  obtain ⟨h, ht⟩ := htree.treeAt_of_root hroot
  obtain ⟨hlen, hser⟩ := serializeEmitsForm u r h ht
  refine ⟨_, h.form, hser, rfl, fun v rest hsrc => ?_⟩
  obtain ⟨w, hw, htw, hweight, hpos, -, -, -, -, -, herr, -⟩ := deserializeReadsForm v h rest ht.distinct hsrc
  exact ⟨w, h, hw, herr, hlen ▸ hpos, ht, htw, hweight⟩

end Sys2Proof.Machine
end

section
/-! ### DESERIALIZE of a form on which it fails (43_serialize.md R165, R166) -/

namespace Sys2Proof.Machine

open Sys2Proof

/-- DESERIALIZE of a form that fails on an item fails in the same way (R165, R166). -/
theorem exec_deserialize_of_stops {s : State} {h : HTree} {items : List FormItem} {item : FormItem} {k : Nat}
    {tail : List Bit} {eos : Bool} (hpre : items ++ [item] <+: h.items)
    (hroom : items.count .internal ≤ Config.maxInternal) (hnodup : (itemSymbols items).Nodup)
    (hsrc : s.src.drop s.srcPos = itemBits items ++ tail)
    (hstop : Stops (itemSymbols items) (items.count .internal) tail eos k) :
    exec .deserialize s = .next (malformed s eos ((itemBits items).length + k)) := by
  obtain ⟨d, hd, hbits⟩ := des_of_stops hpre (fits_desStart s hnodup hroom) hsrc rfl (Nat.zero_add _) hstop
  have hbits : d.bits = 0 + (itemBits items).length + k := hbits
  rw [exec_deserialize_of_fail hd, hbits, Nat.zero_add]

/-- The source ends at an item or inside it (R165 (a)). -/
theorem stops_of_part {item : FormItem} {part : List Bit} (hpre : part <+: item.bits) (hne : part ≠ item.bits)
    (syms : List Symbol) (internals : Nat) : Stops syms internals part true part.length := by
  intro c fuel _ _ h
  have hlen : part.length < item.bits.length :=
    lt_of_le_of_ne hpre.length_le fun e => hne (hpre.eq_of_length e)
  cases part with
  | nil => exact des_of_left_nil fuel h
  | cons tag bits =>
    cases item with
    | internal => simp [FormItem.bits] at hlen
    | leaf sym =>
      obtain ⟨rfl, -⟩ := List.cons_prefix_cons.mp hpre
      exact des_of_short_leaf fuel h (Nat.lt_of_succ_lt_succ hlen)

/-- A leaf repeats a symbol (R165 (b)). -/
theorem stops_of_repeated_leaf {syms : List Symbol} {sym : Symbol} (hsym : sym ∈ syms) (internals : Nat)
    (rest : List Bit) : Stops syms internals (true :: (symBits sym ++ rest)) false 9 :=
  fun _ fuel hc _ h => des_of_repeated_leaf fuel h fun hfree => (hc.mapped_iff sym).mp hfree hsym

/-- An internal tag is the 256th (R165 (c)). -/
theorem stops_of_full_internal (syms : List Symbol) (rest : List Bit) :
    Stops syms Config.maxInternal (false :: rest) false 1 :=
  fun _ fuel _ hfull h => des_of_full_internal fuel h hfull

/-- Settles O30: Des() stops where the source ends. -/
theorem deserializeTruncatedTraps : Obligations.DeserializeTruncatedTraps := by
  intro s h items item part hpre hroom hnodup hpart hne hsrc
  have hlen : s.src.length - s.srcPos = (itemBits items).length + part.length := by
    rw [← List.length_drop, hsrc, List.length_append]
  rw [exec_deserialize_of_stops hpre hroom hnodup hsrc (stops_of_part hpart hne _ _), hlen, malformed]

/-- Settles O31: Des() stops after the leaf that repeats a symbol. -/
theorem deserializeDuplicateTraps : Obligations.DeserializeDuplicateTraps := by
  intro s h items sym rest hpre hroom hnodup hsym hsrc
  rw [itemBits_append, List.append_assoc] at hsrc
  rw [exec_deserialize_of_stops hpre hroom hnodup hsrc (stops_of_repeated_leaf hsym _ _), malformed, Nat.add_assoc]

/-- Settles O32: Des() stops at the tag. -/
theorem deserializeTooManyInternalTraps : Obligations.DeserializeTooManyInternalTraps := by
  intro s h items rest hpre hfull hnodup hsrc
  rw [itemBits_append, List.append_assoc] at hsrc
  have hstop : Stops (itemSymbols items) (items.count .internal) (itemBits [.internal] ++ rest) false 1 :=
    hfull ▸ stops_of_full_internal _ _
  rw [exec_deserialize_of_stops hpre hfull.le hnodup hsrc hstop, malformed, Nat.add_assoc]

end Sys2Proof.Machine
end

section
/-! ### How DESERIALIZE ends from any state (43_serialize.md R163, R165, R166) -/

namespace Sys2Proof.Machine

open Sys2Proof

theorem DesCtx.left_past (c : DesCtx) (k : Nat) : (c.past k).left = c.left.drop k := by
  simp [DesCtx.left, DesCtx.past, List.drop_drop]

/-- The bits read so far are those of the nodes read so far (R162). -/
structure Counted (c : DesCtx) (syms : List Symbol) : Prop extends DesInv c syms where
  bits_eq : c.bits = c.internals + 9 * syms.length

theorem Counted.bits_le {c : DesCtx} {syms : List Symbol} (h : Counted c syms) : c.bits ≤ 2559 := by
  have hlen := length_le_of_nodup_symbols h.nodup
  have hint := h.internals_le
  rw [Config.maxInternal] at hint
  rw [h.bits_eq]
  omega

theorem Counted.allocInternal {c : DesCtx} {syms : List Symbol} (h : Counted c syms)
    (hroom : c.internals ≠ Config.maxInternal) : Counted (Machine.allocInternal (c.past 1)) syms := by
  obtain ⟨-, hinv, -⟩ := (h.toDesInv.past 1).allocInternal hroom
  have hbits := h.bits_eq
  refine ⟨hinv, ?_⟩
  simp only [Machine.allocInternal, DesCtx.past]
  omega

theorem ReadForm.counted {c d : DesCtx} {syms : List Symbol} {t : HTree} (h : ReadForm c d syms t)
    (hc : Counted c syms) : Counted d (syms ++ t.leaves) := by
  have hbits := hc.bits_eq
  have hread := h.bits
  have hint := h.internals
  have hform := t.length_form
  refine ⟨h.inv, ?_⟩
  rw [List.length_append]
  omega

/-- Des() fails, after no more bits than RESULT can count, and with ERR_EOS only where no bit is left (R165). -/
def Fails (fuel : Nat) (c : DesCtx) : Prop :=
  ∃ eos d, des fuel c = .fail eos d ∧ d.bits < 2 ^ 32 ∧ (eos = true → d.left = [])

theorem Counted.fails {c : DesCtx} {syms : List Symbol} (hc : Counted c syms) {fuel k : Nat} {eos : Bool}
    (h : des fuel c = .fail eos (c.past k)) (hk : k ≤ 9) (heos : eos = true → c.left.length ≤ k) : Fails fuel c := by
  have hbits := hc.bits_le
  refine ⟨eos, _, h, ?_, fun he => ?_⟩
  · simp only [DesCtx.past]
    omega
  · rw [DesCtx.left_past, List.drop_eq_nil_of_le (heos he)]

/-- Des() reads the form of a tree, or fails. -/
theorem des_reads_or_fails {fuel : Nat} {c : DesCtx} {syms : List Symbol} (hc : Counted c syms) :
    (∃ t d, des fuel c = .ok (BitVec.ofNat 9 c.n) d ∧ ReadForm c d syms t) ∨ Fails fuel c := by
  induction fuel generalizing c syms with
  | zero => exact .inr (hc.fails (k := 0) rfl (Nat.zero_le _) nofun)
  | succ fuel ih =>
    match hleft : c.left with
    | [] => exact .inr (hc.fails (k := 0) (des_of_left_nil fuel hleft) (Nat.zero_le _) (by simp [hleft]))
    | true :: bits =>
      rcases Nat.lt_or_ge bits.length 8 with hlen | hlen
      · exact .inr (hc.fails (des_of_short_leaf fuel hleft hlen) (by omega) (by simp [hleft]))
      obtain ⟨sym, rest, rfl⟩ := exists_symBits_append hlen
      by_cases hfree : leafAt c.st.leafOf sym = none
      · exact .inl ⟨_, _, des_of_leaf fuel hleft hfree, hc.readForm_leaf hleft hfree⟩
      · exact .inr (hc.fails (des_of_repeated_leaf fuel hleft hfree) (le_refl _) nofun)
    | false :: rest =>
      by_cases hfull : c.internals = Config.maxInternal
      · exact .inr (hc.fails (des_of_full_internal fuel hleft hfull) (by decide) nofun)
      have hc0 := hc.allocInternal hfull
      rcases ih hc0 with ⟨t0, ca, e0, h0⟩ | ⟨eos, d, e0, hd⟩
      · rcases ih (h0.counted hc0) with ⟨t1, cb, e1, h1⟩ | ⟨eos, d, e1, hd⟩
        · exact .inl ⟨_, _, des_of_internal fuel hleft hfull e0 e1, hc.readForm_node hleft hfull h0 h1⟩
        · exact .inr ⟨eos, d, des_of_internal_fail_one fuel hleft hfull e0 e1, hd⟩
      · exact .inr ⟨eos, d, des_of_internal_fail_zero fuel hleft hfull e0, hd⟩

/-- Settles O28: Des() has read a form, or has failed. -/
theorem deserializeOutcome : Obligations.DeserializeOutcome := by
  intro s
  have hstart : Counted (desStart s) [] := ⟨desInv_start s, rfl⟩
  rcases des_reads_or_fails (fuel := Config.maxDepth + 1) hstart with ⟨h, d, hd, hread⟩ | ⟨eos, d, hd, hlt, heos⟩
  · refine ⟨_, exec_deserialize_of_ok hd, rfl, rfl, rfl, rfl, ⟨rfl, rfl, rfl, rfl, rfl⟩, Nat.le_add_right _ _, ?_,
      .inl ⟨⟨rfl, rfl, rfl, rfl⟩, h, hread.treeAt, ?_⟩⟩
    · have hle := (hread.counted hstart).bits_le
      simp only [rebuilt, BitVec.toNat_ofNat]
      omega
    · have hbits : d.bits = h.form.length := by simpa [desStart] using hread.bits
      have hform : s.src.drop s.srcPos = h.form ++ d.left := hread.form
      simp only [rebuilt, Nat.add_sub_cancel_left, hbits, hform, List.take_left]
  · obtain ⟨node, leafOf, hst⟩ := desStart_frame (d := d) (congrArg DesEnd.ctx hd)
    have hleft : d.left = s.src.drop (s.srcPos + d.bits) := by
      rw [DesCtx.left, hst]
      rfl
    refine ⟨_, exec_deserialize_of_fail hd, rfl, rfl, rfl, rfl, ⟨rfl, rfl, rfl, rfl, rfl⟩, Nat.le_add_right _ _, ?_,
      .inr ⟨noTree_malformed _ _ _, fun _ => Table.mem_const, rfl, rfl, rfl,
        fun he => List.drop_eq_nil_iff.mp (hleft.symm.trans (heos he))⟩⟩
    simp only [malformed, BitVec.toNat_ofNat]
    omega

end Sys2Proof.Machine
end

section
/-! ### The host port's addresses (10_state.md R23, R34, 44_control.md R183, R185) -/

namespace Sys2Proof.Machine

open Sys2Proof

/-- The word address `a` is one of `r`'s, by the table of R23 and the NODE window's layout of R34. -/
def PortReg.hasAddr (r : PortReg) (a : PortAddr) : Prop :=
  match r with
  | .id => a.toNat = 0x000
  | .caps => a.toNat = 0x001
  | .cmd => a.toNat = 0x002
  | .status => a.toNat = 0x003
  | .result => a.toNat = 0x004
  | .tree => a.toNat = 0x005
  | .freq sym => a.toNat = 0x100 + sym.toNat
  | .leafOf sym => a.toNat = 0x200 + sym.toNat
  | .nodeWord i f => i.toNat < 511 ∧ a.toNat = 0x400 + 4 * i.toNat + f.toNat
  | .reserved => (0x006 ≤ a.toNat ∧ a.toNat < 0x100) ∨ (0x300 ≤ a.toNat ∧ a.toNat < 0x400) ∨ 0xBFC ≤ a.toNat

/-- The register map answers `r` at exactly the addresses of `r`: each of its tests is a bound on the address. -/
theorem portReg_eq_iff {a : PortAddr} {r : PortReg} : portReg a = r ↔ r.hasAddr a := by
  cases r with
  | nodeWord i f =>
    simp only [portReg, ite_eq_iff, reduceCtorEq, and_false, false_or, or_false, PortReg.nodeWord.injEq]
    simp only [PortReg.hasAddr, Config.cmdAddr, Config.statusAddr, Config.resultAddr, Config.treeAddr, Config.freqBase,
      Config.leafOfBase, Config.nodeBase, BitVec.toNat_eq, BitVec.extractLsb'_toNat, Nat.shiftRight_eq_div_pow]
    bv_omega
  | _ =>
    simp only [portReg, ite_eq_iff, reduceCtorEq, and_true, and_false, false_or, or_false, PortReg.freq.injEq,
      PortReg.leafOf.injEq]
    simp only [PortReg.hasAddr, Config.cmdAddr, Config.statusAddr, Config.resultAddr, Config.treeAddr, Config.freqBase,
      Config.leafOfBase, Config.nodeBase]
    bv_omega

theorem portReg_leafOfBase_add (sym : Symbol) : portReg (0x200#12 + sym.setWidth 12) = .leafOf sym := by
  rw [portReg_eq_iff, PortReg.hasAddr]
  bv_omega

theorem portReg_nodeBase_add {i : NodeIdx} (h : i.toNat < 511) (f : BitVec 2) :
    portReg (0x400#12 + 4#12 * i.setWidth 12 + f.setWidth 12) = .nodeWord i f := by
  rw [portReg_eq_iff, PortReg.hasAddr]
  bv_omega

/-- The registers that take a host write (R183, R186). -/
def PortReg.takesWrites : PortReg → Bool
  | .cmd | .freq _ => true
  | .id | .caps | .status | .result | .tree | .leafOf _ | .nodeWord _ _ | .reserved => false

/-- The registers that read any value while something is pending (R185, R235). -/
def PortReg.openWhileBusy : PortReg → Bool
  | .result | .tree | .freq _ | .leafOf _ | .nodeWord _ _ => true
  | .id | .caps | .cmd | .status | .reserved => false

/-- CMD and the FREQ window by their addresses (R23, R183). -/
theorem isCommandOrFreq_iff {a : PortAddr} :
    isCommandOrFreq a = true ↔ a.toNat = 0x002 ∨ (0x100 ≤ a.toNat ∧ a.toNat < 0x200) := by
  simp only [isCommandOrFreq, Bool.or_eq_true, Bool.and_eq_true, beq_iff_eq, decide_eq_true_eq, BitVec.toNat_eq]
  rfl

/-- RESULT, TREE and the windows by their addresses (R23, R185). -/
theorem isOpenWhileBusy_iff {a : PortAddr} :
    isOpenWhileBusy a = true ↔ (a.toNat = 0x004 ∨ a.toNat = 0x005) ∨ (0x100 ≤ a.toNat ∧ a.toNat < 0x300) ∨
      (0x400 ≤ a.toNat ∧ a.toNat < 0xBFC) := by
  simp only [isOpenWhileBusy, Bool.or_eq_true, Bool.and_eq_true, beq_iff_eq, decide_eq_true_eq, BitVec.toNat_eq,
    or_assoc]
  rfl

/-- A host's duties before a write name the addresses of the registers that take one (R183, R189). -/
theorem isCommandOrFreq_eq (a : PortAddr) : isCommandOrFreq a = (portReg a).takesWrites := by
  have haddr : (portReg a).hasAddr a := portReg_eq_iff.mp rfl
  rw [Bool.eq_iff_iff, isCommandOrFreq_iff]
  cases hr : portReg a with
  | _ =>
    simp only [hr, PortReg.hasAddr] at haddr
    simp only [PortReg.takesWrites, reduceCtorEq, iff_true, iff_false]
    omega

/-- A host's duties before a read name the addresses of the registers that are open while busy (R185, R189). -/
theorem isOpenWhileBusy_eq (a : PortAddr) : isOpenWhileBusy a = (portReg a).openWhileBusy := by
  have haddr : (portReg a).hasAddr a := portReg_eq_iff.mp rfl
  rw [Bool.eq_iff_iff, isOpenWhileBusy_iff]
  cases hr : portReg a with
  | _ =>
    simp only [hr, PortReg.hasAddr] at haddr
    simp only [PortReg.openWhileBusy, reduceCtorEq, iff_true, iff_false]
    omega

end Sys2Proof.Machine
end

section
/-! ### What a host read returns (44_control.md R185, 70_reset_and_hazards.md R235) -/

namespace Sys2Proof.Machine

open Sys2Proof

/-- A read of a busy block is that of its register while `p` is pending (R185, second column). -/
theorem hostRead_of_busy (a : PortAddr) {s : State} {p : Pending} (h : s.pending = some p) :
    hostRead a s = busyRead (portReg a) p s := by
  simp only [hostRead, h]

/-- A reserved address reads 0 in every state (R30, R185). -/
theorem hostRead_of_reserved {a : PortAddr} (h : portReg a = .reserved) (s : State) : hostRead a s = (0#32, s) := by
  unfold hostRead
  rw [h]
  split
  · rfl
  · rfl

theorem busyRead_of_open {r : PortReg} (h : r.openWhileBusy = true) (p : Pending) (s : State) :
    busyRead r p s = (Config.freeWord s.draws, drawn s) := by
  cases r with
  | id | caps | cmd | status | reserved => contradiction
  | _ => rfl

theorem changesTree_iff {p : Pending} : changesTree p = true ↔ p = .cmd .build ∨ p = .cmd .deserialize := by
  cases p with
  | init => simp [changesTree]
  | cmd i => cases i <;> simp [changesTree]

/-- STATUS while busy: BUSY is 1 and the error fields are 0 (R27, R185). -/
theorem statusWord_of_busy {s : State} {p : Pending} (h : s.pending = some p) (valid : Bool) :
    statusWord s valid = statusFields 0#8 0#4 false valid s.overrun false true := by
  simp [statusWord, busy, h]

/-- The STATUS word while busy is BUSY and OVERRUN, TREE_VALID masked out. -/
theorem statusFields_busy_and (valid overrun : Bool) :
    statusFields 0#8 0#4 false valid overrun false true &&& 0xFFFFFFF7#32 = if overrun then 0x5#32 else 0x1#32 := by
  cases valid <;> cases overrun <;> rfl

theorem statusFields_busy_getLsbD_three (valid overrun : Bool) :
    (statusFields 0#8 0#4 false valid overrun false true).getLsbD 3 = valid := by
  cases valid <;> cases overrun <;> rfl

/-- A read of STATUS while busy draws TREE_VALID when the tree is changing, and else shows it as it is (R27, R185). -/
theorem hostRead_status_of_busy {s : State} {p : Pending} (h : s.pending = some p) :
    hostRead 0x003#12 s =
      if changesTree p then (statusWord s (Config.freeTreeValid s.draws), drawn s)
      else (statusWord s (treeValid s), s) :=
  hostRead_of_busy _ h

/-- Settles O40: an idle read is that of the register the address names. -/
theorem idleReadsShowState : Obligations.IdleReadsShowState := by
  intro s hp
  refine ⟨hostRead_of_idle _ hp, hostRead_of_idle _ hp, hostRead_of_idle _ hp, hostRead_of_idle _ hp,
    hostRead_of_idle _ hp, hostRead_of_idle _ hp, fun sym => ?_, fun sym => ?_, fun i f hi => ?_, fun a ha => ?_⟩
  · have hreg : portReg (0x100#12 + sym.setWidth 12) = .freq sym := portReg_freqBase_add sym
    rw [hostRead_of_idle _ hp, hreg]
    rfl
  · rw [hostRead_of_idle _ hp, portReg_leafOfBase_add]
    rfl
  · rw [hostRead_of_idle _ hp, portReg_nodeBase_add hi]
    rfl
  · exact hostRead_of_reserved (portReg_eq_iff.mpr ha) s

/-- Settles O43: a busy read is that of the register the address names, and STATUS is one of two words. -/
theorem busyReads : Obligations.BusyReads := by
  intro s p hp
  refine ⟨hostRead_of_busy _ hp, hostRead_of_busy _ hp, hostRead_of_busy _ hp, ?_, fun hbuild hdes => ?_,
    fun htree => ?_, fun a ha => ?_, fun a ha => hostRead_of_reserved (portReg_eq_iff.mpr ha) s⟩
  · rw [hostRead_status_of_busy hp, statusWord_of_busy hp, statusWord_of_busy hp]
    split
    · exact statusFields_busy_and _ _
    · exact statusFields_busy_and _ _
  · have hkeeps : ¬ changesTree p = true := by simp [changesTree_iff, hbuild, hdes]
    rw [hostRead_status_of_busy hp, if_neg hkeeps, statusWord_of_busy hp]
    exact ⟨statusFields_busy_getLsbD_three _ _, rfl⟩
  · rw [hostRead_status_of_busy hp, if_pos (changesTree_iff.mpr htree), statusWord_of_busy hp]
    exact ⟨statusFields_busy_getLsbD_three _ _, rfl⟩
  · rw [isOpenWhileBusy_eq] at ha
    rw [hostRead_of_busy _ hp, busyRead_of_open ha]
    rfl

end Sys2Proof.Machine
end

section
/-! ### Host writes that are ignored or dropped, and the acceptance of a command (44_control.md R180, R183, R186) -/

namespace Sys2Proof.Machine

open Sys2Proof

/-- A write to a register that takes none is ignored (R186). -/
theorem hostWrite_ignored {a : PortAddr} (h : (portReg a).takesWrites = false) (v : Word) (s : State) :
    hostWrite a v s = .next s := by
  unfold hostWrite
  cases hr : portReg a with
  | cmd | freq => simp [hr, PortReg.takesWrites] at h
  | _ => rfl

/-- Settles O39: CMD and the FREQ window are the addresses of the registers that take a write. -/
theorem otherWritesIgnored : Obligations.OtherWritesIgnored := by
  intro s a v hcmd hfreq
  refine hostWrite_ignored ?_ v s
  rw [← isCommandOrFreq_eq, Bool.eq_false_iff, ne_eq, isCommandOrFreq_iff]
  bv_omega

/-- A word written to CMD goes through the acceptance procedure (R87, R180). -/
theorem hostStep_asmWord (w : Word) (s : State) : hostStep (asmWord w) s = acceptCommand w s := rfl

theorem decode_encode (i : Instr) : decode (encode i) = .legal i := (decodeInvertsEncode _ _).mpr rfl

theorem acceptCommand_encode {s : State} {i : Instr} (hi : i ≠ .softReset) (hp : s.pending = none)
    (he : s.err = false) : acceptCommand (encode i) s = .next (setPending s (.cmd i)) := by
  simp [acceptCommand, decode_encode, hi, busy, hp, he]

/-- Settles O35: of the acceptance procedure's branches, a legal command meets the one that makes it pending, and
SOFT_RESET the first. -/
theorem commandAcceptance : Obligations.CommandAcceptance := by
  intro s i
  have hreset : acceptCommand (encode .softReset) s = exec .softReset s := if_pos (decode_encode .softReset)
  exact ⟨fun hi hp he => ⟨_, _, acceptCommand_encode hi hp he⟩, hreset⟩

/-- Settles O37: the acceptance procedure's two dropping branches, BUSY before ERR. -/
theorem droppedCommandWrites : Obligations.DroppedCommandWrites := by
  intro s w hw
  rw [hostStep_asmWord]
  rcases acceptCommand_cases w s with ⟨hreset, -⟩ | ⟨-, ⟨hp, h⟩ | ⟨hp, -, h⟩ | ⟨hp, he, -⟩ | ⟨hp, he, -⟩⟩
  · exact absurd hreset hw
  · exact ⟨fun _ => h, fun hidle => absurd hidle hp⟩
  · exact ⟨fun hbusy => absurd hp hbusy, fun _ _ => h⟩
  · exact ⟨fun hbusy => absurd hp hbusy, fun _ herr => absurd herr (by simp [he])⟩
  · exact ⟨fun hbusy => absurd hp hbusy, fun _ herr => absurd herr (by simp [he])⟩

end Sys2Proof.Machine
end

section
/-! ### Whose move it is (44_control.md R182, R184, R187), and runs that never stop -/

namespace Sys2Proof.Machine

open Sys2Proof

/-- With the delay used up, or no host operation left, the step is the completion step (R184). -/
theorem step_eq_engineStep {s : State} {p : Pending} (hp : s.pending = some p) (h : s.hostOps = [] ∨ s.delay = 0) :
    step s = engineStep p s := by
  rcases turn_pending hp with ⟨hturn, -⟩ | ⟨op, rest, hops, hdelay, -⟩
  · rw [step, hturn]
  · simp [hops, hdelay] at h

/-- While the delay lasts, the step is the host's next operation (R184, R187). -/
theorem step_eq_hostStep_of_delay {s : State} {op : HostOp} {rest : List HostOp} (hp : s.pending ≠ none)
    (hops : s.hostOps = op :: rest) (hdelay : s.delay ≠ 0) :
    step s = hostStep op { s with hostOps := rest, delay := s.delay - 1 } := by
  obtain ⟨p, hp⟩ := Option.ne_none_iff_exists'.mp hp
  rcases turn_pending hp with ⟨-, h⟩ | ⟨op', rest', hops', -, hturn⟩
  · simp [hops, hdelay] at h
  · obtain ⟨rfl, rfl⟩ := List.cons.inj (hops.symm.trans hops')
    rw [step, hturn]

/-- With nothing pending, the step is the host's next operation. -/
theorem step_eq_hostStep_of_idle {s : State} {op : HostOp} {rest : List HostOp} (hp : s.pending = none)
    (hops : s.hostOps = op :: rest) : step s = hostStep op { s with hostOps := rest } := by
  rcases turn_idle hp with ⟨-, hnil⟩ | ⟨op', rest', hops', hturn⟩
  · simp [hops] at hnil
  · obtain ⟨rfl, rfl⟩ := List.cons.inj (hops.symm.trans hops')
    rw [step, hturn]

/-- With nothing pending and nothing left for the host to do, the machine stays (R220). -/
theorem step_eq_self {s : State} (hp : s.pending = none) (hops : s.hostOps = []) : step s = .next s := by
  rcases turn_idle hp with ⟨hturn, -⟩ | ⟨op, rest, hops', -⟩
  · rw [step, hturn]
  · simp [hops] at hops'

/-- Settles O5: each clause is one of the four moves. -/
theorem stepTakesTurns : Obligations.StepTakesTurns := fun _ =>
  ⟨fun _ hp h => step_eq_engineStep hp h, fun _ _ => step_eq_hostStep_of_delay, fun _ _ => step_eq_hostStep_of_idle,
    step_eq_self⟩

/-- Settles O6: the completion step of INIT is `completeInit`. -/
theorem initOnlyClearsPending : Obligations.InitOnlyClearsPending := fun _ hp h => step_eq_engineStep hp h

/-- Settles O48, by induction on the number of steps: every one of them completes and keeps the invariant. -/
theorem invariantRunsAreSafe : Obligations.InvariantRunsAreSafe := by
  intro s h n
  induction n generalizing s with
  | zero => exact ⟨s, rfl⟩
  | succ n ih =>
    obtain ⟨t, ht, hinv⟩ := stepKeepsInvariant s h
    rw [core_run_succ ht]
    exact ih t hinv

end Sys2Proof.Machine
end

section
/-! ### The duties of the host (44_control.md R189, 70_reset_and_hazards.md R233, R234) -/

namespace Sys2Proof

theorem softResetWord_eq_encode : softResetWord = encode .softReset := by decide

namespace Machine

theorem pending_eq_none_of_waitFor {p : Option Pending} (h : waitFor p = .nothing) : p = none := by
  cases p with
  | none => rfl
  | some p => cases p <;> contradiction

/-- Nothing has been lost to OVERRUN, and the host's operations still to come keep its duties (R189). -/
def Dutiful (s : State) : Prop := s.overrun = false ∧ keepsDuties (waitFor s.pending) s.hostOps = true

/-- A reset clears OVERRUN and leaves INIT to wait for (R231, R233). -/
theorem dutiful_reset {s : State} (h : keepsDuties .reset s.hostOps = true) : Dutiful (resetState (abortPending s)) := by
  obtain ⟨sink, srcPos, draws, hframe⟩ := abortPending_frame s
  refine ⟨rfl, ?_⟩
  rw [hframe]
  exact h

theorem dutiful_logRead {s : State} (h : Dutiful s) (a : PortAddr) : Dutiful (logRead a s) := by
  obtain ⟨reads, draws, hlog⟩ := logRead_eq a s
  rw [hlog]
  exact h

/-- A poll of WAIT (R89): an idle block has nothing left to wait for, and on a busy one the WAIT is still to come. -/
theorem dutiful_pollWait {s : State} (hover : s.overrun = false) (h : keepsDuties .nothing s.hostOps = true) :
    Dutiful (pollWait s) := by
  obtain ⟨reads, draws, hlog⟩ := logRead_eq Config.statusAddr s
  rw [pollWait, hostRead_status_getLsbD_zero, hlog]
  cases hp : s.pending with
  | none => simpa [busy, hp, Dutiful, waitFor] using ⟨hover, h⟩
  | some p => simpa [busy, hp, Dutiful, keepsDuties] using ⟨hover, h⟩

/-- A CMD write with nothing pending is not lost: what it makes pending, or nothing, is no more than the host waits for
(R180, R189 row 1). -/
theorem dutiful_acceptCommand {s t : State} {w : Word} (hp : s.pending = none) (hover : s.overrun = false)
    (h : keepsDuties (if w = softResetWord then .reset else .command) s.hostOps = true)
    (ht : acceptCommand w s = .next t) : Dutiful t := by
  rcases acceptCommand_cases w s with
    ⟨hw, haccept⟩ | ⟨hw, ⟨hbusy, -⟩ | ⟨-, -, haccept⟩ | ⟨-, -, i, -, -, haccept⟩ | ⟨-, -, why, -, haccept⟩⟩
  · obtain rfl := Host.Outcome.next.inj (haccept.symm.trans ht)
    rw [if_pos (softResetWord_eq_encode ▸ (decodeInvertsEncode _ _).mp hw)] at h
    exact dutiful_reset h
  · exact absurd hp hbusy
  · obtain rfl := Host.Outcome.next.inj (haccept.symm.trans ht)
    exact ⟨hover, by rw [hp]; exact keepsDuties_nothing h⟩
  · obtain rfl := Host.Outcome.next.inj (haccept.symm.trans ht)
    have hne : w ≠ softResetWord := fun e => hw ((decodeInvertsEncode _ _).mpr (e.trans softResetWord_eq_encode))
    rw [if_neg hne] at h
    exact ⟨hover, h⟩
  · obtain rfl := Host.Outcome.next.inj (haccept.symm.trans ht)
    exact ⟨hover, keepsDuties_nothing h⟩

/-- A FREQ write with nothing pending is not lost (R103). -/
theorem dutiful_writeFreq {s : State} (hp : s.pending = none) (h : Dutiful s) (sym : Symbol) (v : Word) :
    Dutiful (writeFreq sym v s) := by
  unfold writeFreq
  simp only [busy, hp, Option.isSome_none, Bool.false_eq_true, if_false]
  split
  · exact h
  · exact h

/-- A dutiful host's write: CMD and FREQ it writes only when nothing is pending, and other addresses take none. -/
theorem dutiful_hostWrite {s t : State} {a : PortAddr} {v : Word} (hover : s.overrun = false)
    (h : keepsDuties (waitFor s.pending) (.write a v :: s.hostOps) = true) (ht : hostWrite a v s = .next t) :
    Dutiful t := by
  have hidle (hwrites : (portReg a).takesWrites = true) : s.pending = none := by
    by_contra hp
    have hnot := not_isCommandOrFreq_of_keepsDuties (mt pending_eq_none_of_waitFor hp) h
    simp [isCommandOrFreq_eq, hwrites] at hnot
  obtain ⟨-, hrest⟩ := Bool.and_eq_true_iff.mp h
  have hkeeps (hr : portReg a ≠ .cmd) : Dutiful s := by
    have ha : a ≠ Config.cmdAddr := fun e => hr (e ▸ rfl)
    exact ⟨hover, by simpa [HostWait.afterWrite, ha] using hrest⟩
  cases hr : portReg a with
  | cmd =>
    have ha : a = Config.cmdAddr := BitVec.eq_of_toNat_eq (portReg_eq_iff.mp hr)
    rw [HostWait.afterWrite, if_pos ha] at hrest
    rw [hostWrite, hr] at ht
    exact dutiful_acceptCommand (hidle (by rw [hr]; rfl)) hover hrest ht
  | freq sym =>
    rw [hostWrite, hr] at ht
    obtain rfl := Host.Outcome.next.inj ht
    exact dutiful_writeFreq (hidle (by rw [hr]; rfl)) (hkeeps (by simp [hr])) sym v
  | _ =>
    rw [hostWrite_ignored (by rw [hr]; rfl)] at ht
    obtain rfl := Host.Outcome.next.inj ht
    exact hkeeps (by simp [hr])

/-- One operation of a dutiful host, taken off its list. -/
theorem dutiful_hostStep {s t : State} {op : HostOp} (hover : s.overrun = false)
    (h : keepsDuties (waitFor s.pending) (op :: s.hostOps) = true) (ht : hostStep op s = .next t) : Dutiful t := by
  cases op with
  | read a =>
    obtain rfl := Host.Outcome.next.inj ht
    obtain ⟨-, hrest⟩ := Bool.and_eq_true_iff.mp h
    exact dutiful_logRead ⟨hover, hrest⟩ a
  | write a v => exact dutiful_hostWrite hover h ht
  | wait =>
    obtain rfl := Host.Outcome.next.inj ht
    exact dutiful_pollWait hover h
  | hardReset =>
    obtain rfl := Host.Outcome.next.inj ht
    exact dutiful_reset h

/-- The completion step of what is pending leaves nothing to wait for, OVERRUN and the host as they are (R182, R184). -/
theorem dutiful_engineStep {s t : State} {p : Pending} (hs : StatusInv s) (hp : s.pending = some p) (h : Dutiful s)
    (ht : engineStep p s = .next t) : Dutiful t := by
  obtain ⟨hover, hduties⟩ := h
  have hdone := keepsDuties_nothing hduties
  cases p with
  | init =>
    obtain rfl := Host.Outcome.next.inj ht
    exact ⟨hover, hdone⟩
  | cmd i =>
    have hi : i ≠ .softReset := by
      rintro rfl
      exact hs.never_reset hp
    obtain ⟨hpending, ⟨hops, -, hoverrun, -⟩, -⟩ := commandFrame s t i hi ht
    exact ⟨hoverrun.trans hover, by rw [hpending, hops]; exact hdone⟩

/-- Settles O54: a dutiful host stays so over its own operations and over the completion steps. -/
theorem dutifulHostNeverOverruns : Obligations.DutifulHostNeverOverruns := by
  intro s t hs hover hduties ht
  rcases step_cases s with ⟨hstep, -⟩ | ⟨op, rest, delay, hops, -, hstep⟩ | ⟨p, hp, -, hstep⟩
  · obtain rfl := Host.Outcome.next.inj (hstep.symm.trans ht)
    exact ⟨hover, hduties⟩
  · rw [hops] at hduties
    exact dutiful_hostStep (s := { s with hostOps := rest, delay := delay }) hover hduties (hstep.symm.trans ht)
  · exact dutiful_engineStep hs hp ⟨hover, hduties⟩ (hstep.symm.trans ht)

/-- A read that draws nothing is one more word in the host's list. -/
theorem hostStep_read {a : PortAddr} {v : Word} {s : State} (h : hostRead a s = (v, s)) :
    hostStep (.read a) s = .next { s with reads := s.reads ++ [(a, v)] } := by
  simp only [hostStep, logRead, h]

/-- STATUS while INIT is pending, OVERRUN and the tree as a reset leaves them (R185, R231). -/
theorem hostRead_status_of_init {s : State} (hp : s.pending = some .init) (hroot : s.root = none)
    (hover : s.overrun = false) : hostRead 0x003#12 s = (0x00000001#32, s) := by
  have htree : ¬ changesTree .init = true := by simp [changesTree_iff]
  rw [hostRead_status_of_busy hp, if_neg htree, statusWord_of_busy hp, treeValid, hroot, hover]
  rfl

/-- Settles O57: the duty after a reset leaves three addresses to read and none to write. -/
theorem dutifulHostAfterReset : Obligations.DutifulHostAfterReset := by
  intro s op rest hp hroot hover h
  rw [hp] at h
  cases op with
  | wait => exact .inl rfl
  | hardReset => exact .inr (.inl rfl)
  | write a v =>
    obtain ⟨hmay, -⟩ := Bool.and_eq_true_iff.mp h
    contradiction
  | read a =>
    obtain ⟨hid, hcaps, -⟩ := busyReads s .init hp
    obtain ⟨hmay, -⟩ := Bool.and_eq_true_iff.mp h
    simp only [waitFor, HostWait.mayRead, Bool.or_eq_true, beq_iff_eq] at hmay
    rcases hmay with (rfl | rfl) | rfl
    · exact .inr (.inr ⟨_, _, rfl, .inl rfl, hostStep_read hid⟩)
    · exact .inr (.inr ⟨_, _, rfl, .inr (.inl rfl), hostStep_read hcaps⟩)
    · exact .inr (.inr ⟨_, _, rfl, .inr (.inr rfl), hostStep_read (hostRead_status_of_init hp hroot hover)⟩)

end Machine
end Sys2Proof
end

section
/-! ### The errors of the commands and of the CMD write (60_exceptions.md R201 to R208) -/

namespace Sys2Proof

/-- The low byte of a command's word, which ERR_OP takes, is its opcode (R80, R208). -/
theorem extractLsb'_encode (i : Instr) : (encode i).extractLsb' 0 8 = i.opcode :=
  congrArg CmdFields.op (fieldsOfWord_encode i)

namespace Machine

/-- The error entry of a command of the engine (R208). -/
theorem errorEntry_encode (s : State) (code : ErrCode) (eos : Bool) (progress : Word) (i : Instr) :
    errorEntry s code eos progress (encode i) =
      { s with err := true, errCode := code, errEos := eos, errOp := i.opcode, result := progress,
               pending := none } := by
  rw [errorEntry, extractLsb'_encode]

theorem exec_freqInc_of_eq {s : State} {sym : Symbol} (h : getFreq s sym = 0xFFFFFFFF#32) :
    exec (.freqInc sym) s = .next (errorEntry s .countOverflow false 0#32 (encode (.freqInc sym))) :=
  if_pos h

theorem exec_encode_of_no_leaf {s : State} {sym : Symbol} (h : leafAt s.leafOf sym = none) :
    exec (.encode sym) s = .next (errorEntry s .invalidSymbol false 0#32 (encode (.encode sym))) := by
  simp only [exec, execEncode, h]

theorem exec_decode_of_no_root {s : State} (h : s.root = none) :
    exec .decode s = .next (errorEntry s .noTree false 0#32 (encode .decode)) := by
  simp only [exec, execDecode, h]

/-- Settles O10: FREQ_INC tests for the last count before it adds. -/
theorem freqIncOverflowTraps : Obligations.FreqIncOverflowTraps := by
  refine ⟨rfl, fun s sym h => ?_⟩
  rw [exec_freqInc_of_eq h, errorEntry_encode]
  rfl

/-- Settles O17: ENCODE looks for the leaf before it climbs. -/
theorem encodeAbsentSymbolTraps : Obligations.EncodeAbsentSymbolTraps := by
  refine ⟨rfl, fun s sym h => ?_⟩
  rw [exec_encode_of_no_leaf h, errorEntry_encode]
  rfl

/-- Settles O22: DECODE looks for the root before it descends. -/
theorem decodeWithoutTreeTraps : Obligations.DecodeWithoutTreeTraps := by
  refine ⟨rfl, fun s h => ?_⟩
  rw [exec_decode_of_no_root h, errorEntry_encode]
  rfl

/-- Settles O36: an illegal word on an idle block without an error meets the last branch of the acceptance procedure
only. -/
theorem illegalCommandTraps : Obligations.IllegalCommandTraps := by
  refine ⟨rfl, fun s w why hw hp he => ?_⟩
  rw [hostStep_asmWord]
  rcases acceptCommand_cases w s with ⟨hreset, -⟩ | ⟨-, ⟨hbusy, -⟩ | ⟨-, herr, -⟩ | ⟨-, -, i, hi, -⟩ | ⟨-, -, -, -, h⟩⟩
  · simp [hw] at hreset
  · exact absurd hp hbusy
  · simp [he] at herr
  · simp [hw] at hi
  · exact h

end Machine
end Sys2Proof
end

section
/-! ### DECODE whose source ends inside a code (42_encode_decode.md R143, 60_exceptions.md R201) -/

namespace Sys2Proof.Machine

open Sys2Proof

/-- At an internal node with no bit left the descent signals EOS (R143). -/
theorem descend_of_node_nil {s : State} {c : NodeIdx} {t0 t1 : HTree} (h : holds s.node (.node t0 t1) c = true)
    (hsrc : s.src.drop s.srcPos = []) (fuel bits : Nat) : descend (fuel + 1) c bits s = .eos bits s := by
  obtain ⟨w, _, _, hc, -⟩ := holds_node_iff.mp h
  have hleaf : (nodeAt s.node c).leaf = false := congrArg (·.2.1) hc
  simp [descend, nodeAt?_of_holds h, hleaf, readBit_of_drop_nil hsrc]

/-- With only a proper beginning of a code left in the source the descent reads those bits and signals EOS (R144,
R201). -/
theorem descend_of_code_cut {s : State} {t : HTree} {c : NodeIdx} (h : holds s.node t c = true) {sym : Symbol}
    {code left : List Bit} (hp : (sym, code) ∈ t.codes) (hsrc : s.src.drop s.srcPos = left) (hpre : left <+: code)
    (hne : left ≠ code) (fuel bits : Nat) :
    descend (fuel + code.length) c bits s =
      .eos (bits + left.length) { s with srcPos := s.srcPos + left.length } := by
  induction t generalizing s c code left bits with
  | leaf a =>
    obtain ⟨-, rfl⟩ := HTree.mem_codes_leaf.mp hp
    exact absurd (List.prefix_nil.mp hpre) hne
  | node t0 t1 ih0 ih1 =>
    obtain ⟨b, path, rfl, hpath⟩ := HTree.mem_codes_node.mp hp
    rw [List.length_cons, ← Nat.add_assoc]
    cases left with
    | nil => exact descend_of_node_nil h hsrc _ _
    | cons b' rest =>
      obtain ⟨rfl, hrestPre⟩ := List.cons_prefix_cons.mp hpre
      have hrestNe : rest ≠ path := fun e => hne (e ▸ rfl)
      obtain ⟨-, hrest⟩ := readBit_of_drop hsrc
      obtain ⟨w, _, _, hc, -, -, -, h0, h1⟩ := holds_node_iff.mp h
      obtain ⟨rfl, rfl⟩ := NodeRec.children_of_content hc
      rw [descend_of_node h hsrc, List.length_cons, Nat.add_comm rest.length, ← Nat.add_assoc, ← Nat.add_assoc]
      cases b' with
      | false => exact ih0 (s := { s with srcPos := s.srcPos + 1 }) h0 hpath hrest hrestPre hrestNe _
      | true => exact ih1 (s := { s with srcPos := s.srcPos + 1 }) h1 hpath hrest hrestPre hrestNe _

/-- DECODE of a code whose end the source lacks consumes the bits that are left and fails (R201). -/
theorem TreeAt.exec_decode_cut {s : State} {r : NodeIdx} {h : HTree} (ht : TreeAt s r h) {sym : Symbol}
    {code left : List Bit} (hp : (sym, code) ∈ h.codes) (hsrc : s.src.drop s.srcPos = left) (hpre : left <+: code)
    (hne : left ≠ code) :
    exec .decode s =
      .next (errorEntry { s with srcPos := s.srcPos + left.length } .endOfStream true (BitVec.ofNat 32 left.length)
        (encode .decode)) := by
  have hwalk := descend_of_code_cut ht.held hp hsrc hpre hne (Config.maxDepth - code.length) 0
  rw [Nat.sub_add_cancel (show code.length ≤ Config.maxDepth from ht.length_code_le hp), Nat.zero_add] at hwalk
  simp only [exec, execDecode, ht.root_eq, hwalk]

/-- Settles O21, by the descent along the bits that are left. -/
theorem decodeEndOfStreamTraps : Obligations.DecodeEndOfStreamTraps := by
  refine ⟨rfl, fun s r h sym code ht hp hpre hne => ?_⟩
  rw [ht.exec_decode_cut hp rfl hpre hne, errorEntry_encode, List.length_drop]
  rfl

end Sys2Proof.Machine
end

section
/-! ### The error state and OVERRUN last until a reset (44_control.md R183, 60_exceptions.md R209, R210) -/

namespace Sys2Proof.Machine

open Sys2Proof

/-- No operation of the host clears OVERRUN but a reset (R183). -/
theorem HostMove.overrun {op : HostOp} {s t : State} (h : HostMove op s t) (hr : isReset op ≠ true)
    (hover : s.overrun = true) : t.overrun = true := by
  cases h with
  | reset hreset => exact absurd hreset hr
  | log | accept | illegal | writeFreq => exact hover
  | lost => rfl

/-- OVERRUN stays set through every step but a reset: the commands of the engine leave it (R183). -/
theorem overrun_of_step {s t : State} (h : step s = .next t) (hreset : ¬ resetNext s) (hover : s.overrun = true) :
    t.overrun = true := by
  rcases step_move h with rfl | ⟨op, rest, delay, hturn, hmove⟩ | ⟨-, -, rfl⟩ | ⟨i, hturn, -, hexec⟩
  · exact hover
  · exact hmove.overrun (isReset_ne_of_turn hturn hreset) hover
  · exact hover
  · obtain ⟨-, ⟨-, -, hsame, -, -⟩, -⟩ := commandFrame s t i (ne_softReset_of_turn hturn hreset) hexec
    exact hsame.trans hover

/-- In the error state every host write but a SOFT_RESET is dropped or ignored (R180, R103, R186, R209). -/
theorem hostWrite_of_error {a : PortAddr} {v : Word} {s : State} (hp : s.pending = none) (he : s.err = true)
    (hr : isReset (.write a v) ≠ true) : hostWrite a v s = .next s := by
  cases ha : portReg a with
  | cmd =>
    have hv : decode v ≠ .legal .softReset := fun hv => hr (by simp [isReset, ha, hv])
    simpa only [hostWrite, ha, hostStep_asmWord] using (droppedCommandWrites s v hv).2 hp he
  | freq sym =>
    obtain rfl := eq_of_portReg_freq ha
    exact (freqWrite s sym v).2.1 hp he
  | _ => exact hostWrite_ignored (by rw [ha]; rfl) v s

/-- A poll of an idle block is one read of STATUS (R89). -/
theorem hostStep_wait_of_idle {s : State} (h : s.pending = none) :
    hostStep .wait s = hostStep (.read Config.statusAddr) s := by
  simp only [hostStep, pollWait, hostRead_status_getLsbD_zero, busy, h, Option.isSome_none, Bool.false_eq_true,
    if_false]

/-- In the error state a host operation that is no reset adds to what the host has read, and does nothing else
(R209). -/
theorem hostStep_of_error {op : HostOp} {s : State} (hp : s.pending = none) (he : s.err = true)
    (hr : isReset op ≠ true) : ∃ reads, hostStep op s = .next { s with reads := reads } := by
  cases op with
  | read a => exact ⟨_, hostStep_read (hostRead_of_idle a hp)⟩
  | write a v => exact ⟨s.reads, hostWrite_of_error hp he hr⟩
  | wait =>
    rw [hostStep_wait_of_idle hp]
    exact ⟨_, hostStep_read (hostRead_of_idle _ hp)⟩
  | hardReset => exact absurd rfl hr

/-- A step of the error state that is no reset is an operation of the host's, if anything, and changes no more than
the host's side (R209). -/
theorem step_of_error {s t : State} (h : step s = .next t) (hreset : ¬ resetNext s) (hp : s.pending = none)
    (he : s.err = true) :
    ∃ hostOps reads delay, t = { s with hostOps := hostOps, reads := reads, delay := delay } := by
  rcases step_cases s with ⟨hstep, -, -⟩ | ⟨op, rest, delay, -, hturn, hstep⟩ | ⟨p, hpending, -⟩
  · exact ⟨s.hostOps, s.reads, s.delay, Host.Outcome.next.inj (h.symm.trans hstep)⟩
  · obtain ⟨reads, hop⟩ := hostStep_of_error (s := { s with hostOps := rest, delay := delay }) hp he
      (isReset_ne_of_turn hturn hreset)
    exact ⟨rest, reads, delay, Host.Outcome.next.inj (h.symm.trans (hstep.trans hop))⟩
  · simp [hp] at hpending

/-- Settles O49: nothing is pending in the error state, so that only the host can move. -/
theorem onlyResetLeavesError : Obligations.OnlyResetLeavesError := by
  intro s t h hreset
  refine ⟨overrun_of_step h hreset, fun hs he => ?_⟩
  obtain ⟨_, _, _, rfl⟩ := step_of_error h hreset (hs.idle_in_error he) he
  simp [sameError, sameTree, sameChannel]

end Sys2Proof.Machine
end

section
/-! ### The abort of a command in flight (70_reset_and_hazards.md R242) -/

namespace Sys2Proof.Machine

open Sys2Proof

/-- An abort cuts short the transfers of the pending command's own completion step (R242). -/
theorem abortPending_of_exec {s u : State} {i : Instr} (hp : s.pending = some (.cmd i)) (hi : i ≠ .softReset)
    (h : exec i s = .next u) : abortPending s = partialTransfers s u := by
  simp only [abortPending, hp, completionOutcome_eq_exec hi, h, abortedTransfers]

/-- A cut-short cursor stops no later than the whole command's own, which lies further on (R66, R242). -/
theorem partialTransfers_srcPos_le {s u : State} (h : s.srcPos ≤ u.srcPos) :
    (partialTransfers s u).srcPos ≤ u.srcPos := by
  rw [partialTransfers_srcPos]
  omega

/-- Settles O34: the reset keeps the channel as the abort leaves it, with a prefix of the bits the command would have
emitted and the cursor between its start and where the command would have left it. -/
theorem abortLeavesPrefix : Obligations.AbortLeavesPrefix := by
  intro s t u i hp hi hexec hreset
  obtain rfl : resetState (abortPending s) = t := Host.Outcome.next.inj hreset
  have hforward : ChannelForward s (resetState (abortPending s)) := channelForward_resetState_abortPending s
  have habort : abortPending s = partialTransfers s u := abortPending_of_exec hp hi hexec
  refine ⟨⟨_, List.take_prefix (Config.freeEmitted s.draws) _, ?_⟩, hforward.srcPos, ?_, hforward.src,
    blockReset_resetState _⟩
  · rw [resetState_sink, habort, partialTransfers_sink]
  · rw [resetState_srcPos, habort]
    exact partialTransfers_srcPos_le (exec_channelForward hexec).srcPos

end Sys2Proof.Machine
end
